-- ==== Sys2Proof/Word.lean ====
section
/-! DEFINITION. The word types of the U128XU (spec/00_scope.md R7, R8): plain abbreviations, so that the library's
bit vector lemmas apply. -/

namespace Sys2Proof

/-- A U128 value, 128 bits (spec/00_scope.md R7 `UW`, R12): an X register or a Quad mantissa. -/
abbrev U128 := BitVec 128

/-- A 64-bit word: a register half, a window register, the port's data (spec/00_scope.md R7 `W`). -/
abbrev Word64 := BitVec 64

/-- A command word (spec/30_encoding.md R70). -/
abbrev CmdWord := BitVec 32

/-- The word index the port carries (spec/20_memory.md R50 `addr`): byte offset divided by 8. -/
abbrev WordIndex := BitVec 7

/-- One byte of the register window (spec/20_memory.md R54). -/
abbrev Byte := BitVec 8

/-- The number of an X register, X0 to X15 (spec/10_state.md R21). -/
abbrev XReg := Fin 16

/-- The number of a Q register, Q0 to Q7 (spec/10_state.md R22). -/
abbrev QReg := Fin 8

end Sys2Proof
end

