-- ==== Sys2Proof/Syntax.lean ====
section
/-! DEFINITION. The commands of the U128XU: one constructor per row of spec/opcode_table.json, in its order
(spec/30_encoding.md R75). -/

namespace Sys2Proof

/-- A command. `d` is the destination register, `a` and `b` the sources (spec/30_encoding.md R71); the type of each
says its class (R73). -/
inductive Instr where
  /-- `NOP` (R111). -/
  | nop
  /-- `ADD xd, xa, xb` (R100). -/
  | add (d a b : XReg)
  /-- `SUB xd, xa, xb` (R101). -/
  | sub (d a b : XReg)
  /-- `AND xd, xa, xb` (R102). -/
  | and (d a b : XReg)
  /-- `OR xd, xa, xb` (R103). -/
  | or (d a b : XReg)
  /-- `XOR xd, xa, xb` (R104). -/
  | xor (d a b : XReg)
  /-- `NOT xd, xa` (R105). -/
  | not (d a : XReg)
  /-- `MOV xd, xa` (R106). -/
  | mov (d a : XReg)
  /-- `LDI xd, imm16` (R107). -/
  | ldi (d : XReg) (imm : BitVec 16)
  /-- `ZEXT64 xd, xa` (R108). -/
  | zext64 (d a : XReg)
  /-- `MUL64 xd, xa, xb` (R120). -/
  | mul64 (d a b : XReg)
  /-- `MULW xd, xa, xb` (R121). -/
  | mulw (d a b : XReg)
  /-- `MUL128 xd, xa, xb` (R122). -/
  | mul128 (d a b : XReg)
  /-- `MULHI xd, xa, xb` (R123). -/
  | mulhi (d a b : XReg)
  /-- `SHL xd, xa, n` (R140). -/
  | shl (d a : XReg) (n : BitVec 8)
  /-- `SHR xd, xa, n` (R141). -/
  | shr (d a : XReg) (n : BitVec 8)
  /-- `SHRMSB xd, xa` (R142); its count field has the one legal value 1. -/
  | shrmsb (d a : XReg)
  /-- `NORM xd, xa` (R143). -/
  | norm (d a : XReg)
  /-- `QADD qd, qa, qb` (R169). -/
  | qadd (d a b : QReg)
  /-- `QSUB qd, qa, qb` (R170). -/
  | qsub (d a b : QReg)
  /-- `QMUL qd, qa, qb` (R171). -/
  | qmul (d a b : QReg)
  /-- `QNEG qd, qa` (R172). -/
  | qneg (d a : QReg)
  /-- `QABS qd, qa` (R173). -/
  | qabs (d a : QReg)
  /-- `QTRUNC qd, qa` (R191). -/
  | qtrunc (d a : QReg)
  /-- `QFLOOR qd, qa` (R192). -/
  | qfloor (d a : QReg)
  /-- `QCEIL qd, qa` (R193). -/
  | qceil (d a : QReg)
  /-- `QROUND qd, qa` (R194). -/
  | qround (d a : QReg)
  /-- `QFROMU qd, xa` (R195). -/
  | qfromu (d : QReg) (a : XReg)
  /-- `QFROMS qd, xa` (R196). -/
  | qfroms (d : QReg) (a : XReg)
  /-- `QSETSIG qd, qa, n` (R197); legal for n up to 128. -/
  | qsetsig (d a : QReg) (n : BitVec 8)
  deriving DecidableEq, Repr

/-- A pseudo-instruction (spec/30_encoding.md R81): the assembler replaces it by commands. -/
inductive Pseudo where
  /-- `CLR xd`. -/
  | clr (d : XReg)
  /-- `LDI32 xd, v`, for v below 2^32. -/
  | ldi32 (d : XReg) (v : BitVec 32)
  /-- `QCLR qd`, with the X register `z` that holds 0: R81 gives no fixed zero register. -/
  | qclr (d : QReg) (z : XReg)
  deriving DecidableEq, Repr

end Sys2Proof
end

