-- ==== Sys2Proof/WellFormed.lean ====
section
/-! DEFINITION. Which terms of `Instr` and `Pseudo` are commands and pseudo-instructions. The register classes of
spec/30_encoding.md R73 hold by type; what is left is the QSETSIG count (R77) and the LDI32 destination (R81). -/

namespace Sys2Proof

/-- Legal commands: a QSETSIG count is at most 128 (spec/30_encoding.md R74, R77). Every other field's values are all
legal. -/
def Instr.wellFormed : Instr → Bool
  | .qsetsig _ _ n => n.toNat ≤ 128
  | .nop | .add _ _ _ | .sub _ _ _ | .and _ _ _ | .or _ _ _ | .xor _ _ _ | .not _ _ | .mov _ _ | .ldi _ _
  | .zext64 _ _ | .mul64 _ _ _ | .mulw _ _ _ | .mul128 _ _ _ | .mulhi _ _ _ | .shl _ _ _ | .shr _ _ _
  | .shrmsb _ _ | .norm _ _ | .qadd _ _ _ | .qsub _ _ _ | .qmul _ _ _ | .qneg _ _ | .qabs _ _ | .qtrunc _ _
  | .qfloor _ _ | .qceil _ _ | .qround _ _ | .qfromu _ _ | .qfroms _ _ => true

/-- Legal pseudo-instructions: LDI32 clobbers x15 and "needs xd != x15" (spec/30_encoding.md R81). -/
def Pseudo.wellFormed : Pseudo → Bool
  | .ldi32 d _ => d != 15
  | .clr _ | .qclr _ _ => true

end Sys2Proof
end

