-- ==== Sys2Proof/Decode.lean ====
section
/-! DEFINITION. The decoder (spec/30_encoding.md R79: total on every 32-bit word), the encoder written from the format
table R72, and `decodeTableWord`. -/

namespace Sys2Proof

/-! ## Fields of a command word (R71) -/

/-- Bits 31:24, the opcode. -/
def opField (w : CmdWord) : BitVec 8 := w.extractLsb' 24 8

/-- Bits 23:20, an X-class destination. -/
def xdField (w : CmdWord) : XReg := (w.extractLsb' 20 4).toFin

/-- Bits 19:16, an X-class first source. -/
def xaField (w : CmdWord) : XReg := (w.extractLsb' 16 4).toFin

/-- Bits 15:12, an X-class second source. -/
def xbField (w : CmdWord) : XReg := (w.extractLsb' 12 4).toFin

/-- A Q-class destination: bits 22:20, bit 23 being 0 in a legal word (R73). -/
def qdField (w : CmdWord) : QReg := (w.extractLsb' 20 3).toFin

/-- A Q-class first source: bits 18:16, bit 19 being 0 in a legal word (R73). -/
def qaField (w : CmdWord) : QReg := (w.extractLsb' 16 3).toFin

/-- A Q-class second source: bits 14:12, bit 15 being 0 in a legal word (R73). -/
def qbField (w : CmdWord) : QReg := (w.extractLsb' 12 3).toFin

/-- Bits 15:0, the immediate of format RI (R74). -/
def immField (w : CmdWord) : BitVec 16 := w.extractLsb' 0 16

/-- Bits 7:0, the count of format RS (R74). -/
def n8Field (w : CmdWord) : BitVec 8 := w.extractLsb' 0 8

/-! ## The opcode table -/

/-- One row of spec/opcode_table.json: a word is of the row when its bits under `mask` are those of `pattern`. -/
structure OpRow where
  mnemonic : String
  pattern : CmdWord
  mask : CmdWord
  /-- The command the row's word stands for, its fields read as R71 places them. -/
  build : CmdWord → Instr

/-- NOP and the U128 add, subtract, logic and move rows (opcodes 0x00 to 0x09). -/
def rowsLogic : List OpRow := [
  ⟨"NOP", 0x00000000#32, 0xFFFFFFFF#32, fun _ => .nop⟩,
  ⟨"ADD", 0x01000000#32, 0xFF000FFF#32, fun w => .add (xdField w) (xaField w) (xbField w)⟩,
  ⟨"SUB", 0x02000000#32, 0xFF000FFF#32, fun w => .sub (xdField w) (xaField w) (xbField w)⟩,
  ⟨"AND", 0x03000000#32, 0xFF000FFF#32, fun w => .and (xdField w) (xaField w) (xbField w)⟩,
  ⟨"OR", 0x04000000#32, 0xFF000FFF#32, fun w => .or (xdField w) (xaField w) (xbField w)⟩,
  ⟨"XOR", 0x05000000#32, 0xFF000FFF#32, fun w => .xor (xdField w) (xaField w) (xbField w)⟩,
  ⟨"NOT", 0x06000000#32, 0xFF00FFFF#32, fun w => .not (xdField w) (xaField w)⟩,
  ⟨"MOV", 0x07000000#32, 0xFF00FFFF#32, fun w => .mov (xdField w) (xaField w)⟩,
  ⟨"LDI", 0x08000000#32, 0xFF0F0000#32, fun w => .ldi (xdField w) (immField w)⟩,
  ⟨"ZEXT64", 0x09000000#32, 0xFF00FFFF#32, fun w => .zext64 (xdField w) (xaField w)⟩]

/-- The U128 multiply, shift and normalise rows (opcodes 0x10 to 0x1C). -/
def rowsMulShift : List OpRow := [
  ⟨"MUL64", 0x10000000#32, 0xFF000FFF#32, fun w => .mul64 (xdField w) (xaField w) (xbField w)⟩,
  ⟨"MULW", 0x11000000#32, 0xFF000FFF#32, fun w => .mulw (xdField w) (xaField w) (xbField w)⟩,
  ⟨"MUL128", 0x12000000#32, 0xFF000FFF#32, fun w => .mul128 (xdField w) (xaField w) (xbField w)⟩,
  ⟨"MULHI", 0x13000000#32, 0xFF000FFF#32, fun w => .mulhi (xdField w) (xaField w) (xbField w)⟩,
  ⟨"SHL", 0x18000000#32, 0xFF00FF00#32, fun w => .shl (xdField w) (xaField w) (n8Field w)⟩,
  ⟨"SHR", 0x19000000#32, 0xFF00FF00#32, fun w => .shr (xdField w) (xaField w) (n8Field w)⟩,
  ⟨"SHRMSB", 0x1A000001#32, 0xFF00FFFF#32, fun w => .shrmsb (xdField w) (xaField w)⟩,
  ⟨"NORM", 0x1C000000#32, 0xFF00FFFF#32, fun w => .norm (xdField w) (xaField w)⟩]

/-- The Quad arithmetic rows (opcodes 0x20 to 0x24). -/
def rowsQuadArith : List OpRow := [
  ⟨"QADD", 0x20000000#32, 0xFF888FFF#32, fun w => .qadd (qdField w) (qaField w) (qbField w)⟩,
  ⟨"QSUB", 0x21000000#32, 0xFF888FFF#32, fun w => .qsub (qdField w) (qaField w) (qbField w)⟩,
  ⟨"QMUL", 0x22000000#32, 0xFF888FFF#32, fun w => .qmul (qdField w) (qaField w) (qbField w)⟩,
  ⟨"QNEG", 0x23000000#32, 0xFF88FFFF#32, fun w => .qneg (qdField w) (qaField w)⟩,
  ⟨"QABS", 0x24000000#32, 0xFF88FFFF#32, fun w => .qabs (qdField w) (qaField w)⟩]

/-- The Quad rounding, construction and significant-bits rows (opcodes 0x28 to 0x34). -/
def rowsQuadRound : List OpRow := [
  ⟨"QTRUNC", 0x28000000#32, 0xFF88FFFF#32, fun w => .qtrunc (qdField w) (qaField w)⟩,
  ⟨"QFLOOR", 0x29000000#32, 0xFF88FFFF#32, fun w => .qfloor (qdField w) (qaField w)⟩,
  ⟨"QCEIL", 0x2A000000#32, 0xFF88FFFF#32, fun w => .qceil (qdField w) (qaField w)⟩,
  ⟨"QROUND", 0x2B000000#32, 0xFF88FFFF#32, fun w => .qround (qdField w) (qaField w)⟩,
  ⟨"QFROMU", 0x30000000#32, 0xFF80FFFF#32, fun w => .qfromu (qdField w) (xaField w)⟩,
  ⟨"QFROMS", 0x31000000#32, 0xFF80FFFF#32, fun w => .qfroms (qdField w) (xaField w)⟩,
  ⟨"QSETSIG", 0x34000000#32, 0xFF88FF00#32, fun w => .qsetsig (qdField w) (qaField w) (n8Field w)⟩]

/-- The whole opcode map (spec/30_encoding.md R75, spec/opcode_table.json). -/
def opRows : List OpRow := rowsLogic ++ rowsMulShift ++ rowsQuadArith ++ rowsQuadRound

/-! ## Decoding -/

/-- Why a word is no command. Each raises ILLEGAL_CMD (spec/30_encoding.md R76, R77). -/
inductive DecodeError where
  /-- The opcode is in no row of R75 (R76). -/
  | reservedOpcode
  /-- A must-be-zero bit is 1, a Q-class field holds 8 to 15, or a SHRMSB count is not 1 (R77). -/
  | illegalField
  /-- A QSETSIG count is above 128 (R77). -/
  | illegalCount
  deriving DecidableEq, Repr

/-- The row with the word's opcode, if any (R79, first line). -/
def findRow (w : CmdWord) : Option OpRow := opRows.find? fun r => opField r.pattern == opField w

/-- The word is a QSETSIG word whose count is above 128 (R79, third test). -/
def countIllegal (w : CmdWord) : Bool := opField w == 0x34#8 && decide (128 < (n8Field w).toNat)

/-- The decoding procedure of spec/30_encoding.md R79. -/
def decode (w : CmdWord) : Except DecodeError Instr :=
  match findRow w with
  | none => .error .reservedOpcode
  | some r =>
    if w &&& r.mask ≠ r.pattern then .error .illegalField
    else if countIllegal w then .error .illegalCount
    else .ok (r.build w)

/-! ## Encoding (R72) -/

/-- An X-class field's four bits. -/
def xBits (r : XReg) : BitVec 4 := BitVec.ofFin r

/-- A Q-class field's four bits: bit 3 is 0 (R73). -/
def qBits (r : QReg) : BitVec 4 := (BitVec.ofFin r : BitVec 3).setWidth 4

/-- Format R3: op, d, a, b, then zeros. -/
def wordR3 (op : BitVec 8) (d a b : BitVec 4) : CmdWord :=
  op.setWidth 32 <<< 24 ||| d.setWidth 32 <<< 20 ||| a.setWidth 32 <<< 16 ||| b.setWidth 32 <<< 12

/-- Format R2: op, d, a, then zeros. -/
def wordR2 (op : BitVec 8) (d a : BitVec 4) : CmdWord :=
  op.setWidth 32 <<< 24 ||| d.setWidth 32 <<< 20 ||| a.setWidth 32 <<< 16

/-- Format RI: op, d, four zeros, imm16. -/
def wordRI (op : BitVec 8) (d : BitVec 4) (imm : BitVec 16) : CmdWord :=
  op.setWidth 32 <<< 24 ||| d.setWidth 32 <<< 20 ||| imm.setWidth 32

/-- Format RS: op, d, a, eight zeros, n8. -/
def wordRS (op : BitVec 8) (d a : BitVec 4) (n : BitVec 8) : CmdWord :=
  op.setWidth 32 <<< 24 ||| d.setWidth 32 <<< 20 ||| a.setWidth 32 <<< 16 ||| n.setWidth 32

/-- The word of a command, by the formats of R72 and the opcodes of R75. -/
def encode : Instr → CmdWord
  | .nop => 0x00000000#32
  | .add d a b => wordR3 0x01 (xBits d) (xBits a) (xBits b)
  | .sub d a b => wordR3 0x02 (xBits d) (xBits a) (xBits b)
  | .and d a b => wordR3 0x03 (xBits d) (xBits a) (xBits b)
  | .or d a b => wordR3 0x04 (xBits d) (xBits a) (xBits b)
  | .xor d a b => wordR3 0x05 (xBits d) (xBits a) (xBits b)
  | .not d a => wordR2 0x06 (xBits d) (xBits a)
  | .mov d a => wordR2 0x07 (xBits d) (xBits a)
  | .ldi d imm => wordRI 0x08 (xBits d) imm
  | .zext64 d a => wordR2 0x09 (xBits d) (xBits a)
  | .mul64 d a b => wordR3 0x10 (xBits d) (xBits a) (xBits b)
  | .mulw d a b => wordR3 0x11 (xBits d) (xBits a) (xBits b)
  | .mul128 d a b => wordR3 0x12 (xBits d) (xBits a) (xBits b)
  | .mulhi d a b => wordR3 0x13 (xBits d) (xBits a) (xBits b)
  | .shl d a n => wordRS 0x18 (xBits d) (xBits a) n
  | .shr d a n => wordRS 0x19 (xBits d) (xBits a) n
  | .shrmsb d a => wordRS 0x1A (xBits d) (xBits a) 1
  | .norm d a => wordR2 0x1C (xBits d) (xBits a)
  | .qadd d a b => wordR3 0x20 (qBits d) (qBits a) (qBits b)
  | .qsub d a b => wordR3 0x21 (qBits d) (qBits a) (qBits b)
  | .qmul d a b => wordR3 0x22 (qBits d) (qBits a) (qBits b)
  | .qneg d a => wordR2 0x23 (qBits d) (qBits a)
  | .qabs d a => wordR2 0x24 (qBits d) (qBits a)
  | .qtrunc d a => wordR2 0x28 (qBits d) (qBits a)
  | .qfloor d a => wordR2 0x29 (qBits d) (qBits a)
  | .qceil d a => wordR2 0x2A (qBits d) (qBits a)
  | .qround d a => wordR2 0x2B (qBits d) (qBits a)
  | .qfromu d a => wordR2 0x30 (qBits d) (xBits a)
  | .qfroms d a => wordR2 0x31 (qBits d) (xBits a)
  | .qsetsig d a n => wordRS 0x34 (qBits d) (qBits a) n

/-- The instruction the decoder reads from an instruction of `nbits` bits whose number is `w`, every bit above `nbits`
being 0. A command has one word of 32 bits (R70): a longer one is no command (notes/assumptions/13.md). -/
def decodeTableWord (nbits w : Nat) : Option Instr :=
  if nbits ≤ 32 then
    match decode (BitVec.ofNat 32 (w % 2 ^ nbits)) with
    | .ok i => some i
    | .error _ => none
  else none

end Sys2Proof
end

