-- ==== Sys2Proof/Config.lean ====
section
/-! DEFINITION. The implementation parameters of spec/00_scope.md R7. A parameter with a default is a field of
`Params`, which the machine takes as data; a parameter marked OPEN is an opaque constant or stays outside the model
(notes/assumptions 3 to 8). -/

namespace Sys2Proof

/-- The parameters of spec/00_scope.md R7 that have a default and change what a command computes. They are fixed for
one unit: no step changes them. -/
structure Params where
  /-- `EMIN`, the exponent that encodes zero. -/
  emin : BitVec 16
  /-- `EMAX`, the exponent that encodes infinity and NaN. -/
  emax : BitVec 16
  /-- `MULHI_CROSS_CARRY`: the cross products' low halves carry into the high half of MULHI (spec/41_u128_multiply.md
  R123). -/
  crossCarry : Bool
  deriving DecidableEq, Repr

namespace Params

/-- `EMIN` as an integer. -/
def eminInt (p : Params) : Int := p.emin.toInt

/-- `EMAX` as an integer. -/
def emaxInt (p : Params) : Int := p.emax.toInt

/-- The constraints R7 puts on the parameters: `EMIN < 0` and `EMAX > 129`. The bounds -32768 and 32767 hold by the
16-bit width. -/
abbrev wf (p : Params) : Prop := p.eminInt < 0 ∧ 129 < p.emaxInt

end Params

namespace Config

/-- The default parameters of spec/00_scope.md R7: EMIN = -32768, EMAX = 32767, MULHI_CROSS_CARRY = true. -/
def defaultParams : Params := { emin := 0x8000#16, emax := 0x7FFF#16, crossCarry := true }

/-- `ID_VALUE` (spec/00_scope.md R7, spec/10_state.md R30). -/
def idValue : Word64 := 0x0000000155313238#64

/-- `SIGMAX`, the largest legal budget (spec/00_scope.md R7). -/
def sigMax : Nat := 128

/-- The size of the register window in bytes (spec/20_memory.md R51). -/
def windowBytes : Nat := 1024

/-- Which KiB of the host's address space the window occupies. The platform chooses it (`BASE`, OPEN): no value is
known to the model (notes/assumptions/4.md). -/
opaque basePage : Nat

/-- `BASE`, the window's base byte address: 1 KiB aligned (spec/00_scope.md R7). -/
def base : Nat := windowBytes * basePage

end Config

end Sys2Proof
end

