-- ==== Sys2Proof/Machine/State.lean ====
section
/-! DEFINITION. The machine's state (spec/10_state.md), the host accesses it serves (spec/20_memory.md R50), the ways a
step can stop, and the state after reset (spec/10_state.md R33). -/

namespace Sys2Proof.Machine

/-- One Quad, the content of a Q register (spec/10_state.md R22). Any pattern can be stored; validity is checked when a
Q command reads it. -/
structure Quad where
  /-- The sign, true for negative. -/
  neg : Bool
  /-- The exponent, two's complement. -/
  exp : BitVec 16
  /-- The mantissa. -/
  man : U128
  /-- significant_bits; legal values are 0 to 128. -/
  sig : BitVec 8
  deriving DecidableEq, Repr

/-- The fault causes of spec/60_exceptions.md R220. Codes 4 to 15 are never written, so they have no constructor. -/
inductive Cause where
  /-- Code 0: no fault since reset. -/
  | none
  /-- Code 1, ILLEGAL_CMD: a reserved opcode or an illegal field. -/
  | illegalCmd
  /-- Code 2, BAD_QUAD_OPERAND: a Q operand is not valid. -/
  | badQuadOperand
  /-- Code 3, NORM_ZERO: NORM of 0. -/
  | normZero
  deriving DecidableEq, Repr

/-- The STATUS register's fields (spec/10_state.md R23). The host cannot write STATUS and its reserved bits read 0, so
nothing is stored for them; `Status.word` gives the 64 bits the host reads. -/
structure Status where
  ovf : Bool
  qof : Bool
  quf : Bool
  qnv : Bool
  qcut : Bool
  /-- FAULT, which is also the halted condition (R32). -/
  fault : Bool
  cause : Cause
  cnt : BitVec 8
  deriving DecidableEq, Repr

/-- STATUS after reset: 0 in every field (spec/10_state.md R33). -/
def Status.clear : Status :=
  { ovf := false, qof := false, quf := false, qnv := false, qcut := false, fault := false, cause := .none, cnt := 0 }

/-- One request at the port (spec/20_memory.md R50). -/
structure PortRequest where
  /-- The 64-bit word index in the window. -/
  addr : WordIndex
  wr : Bool
  rd : Bool
  wdata : Word64
  deriving DecidableEq, Repr

/-- What a host bus asks at a byte address (spec/20_memory.md R54, R55): read `n` bytes, or write the listed bytes, the
first at the lowest address. -/
inductive BusOp where
  | read (n : Nat)
  | write (bytes : List Byte)
  deriving DecidableEq, Repr

/-- One access of the host's bus. The spec gives the host's address space no width. -/
structure BusAccess where
  addr : Nat
  op : BusOp
  deriving DecidableEq, Repr

/-- What reaches the unit from outside, one at a time (spec/00_scope.md R2, spec/20_memory.md R50, R57). -/
inductive HostEvent where
  /-- A hardware reset request on `rst`. -/
  | rst
  /-- A request at the port. -/
  | port (r : PortRequest)
  /-- An access of the host's bus, which reaches the port only as one aligned 64-bit word of the window. -/
  | bus (a : BusAccess)
  deriving DecidableEq, Repr

/-- The port's `ready` and `rdata` (spec/20_memory.md R50): what the last served event answered. -/
inductive Response where
  /-- No access has completed: `ready` = 0. -/
  | idle
  /-- A read completed with this `rdata`. -/
  | readData (v : Word64)
  /-- A write completed, with all its effects. -/
  | written
  deriving DecidableEq, Repr

/-- Why the model stops with a fault. The unit's own faults are no stops: they are states (`State.raiseFault`). -/
inductive Fault where
  /-- Raised by `State.serveBus`: a bus access of one whole aligned word lies outside the unit's 1024-byte window, where
  the unit has no address (spec/20_memory.md R51). Safe: the model stops and says nothing of what the platform does
  there. -/
  | outsideWindow
  deriving DecidableEq, Repr

/-- What the model refuses. -/
inductive Refusal where
  /-- Raised by `exec` for a command without a meaning: none is left. Safe. -/
  | notModelled (mnemonic : String)
  /-- Raised by `State.servePort`: a request with both `wr` and `rd` set "is outside the port protocol (refused by a
  model)" (spec/20_memory.md R50). Safe. -/
  | readAndWrite
  /-- Raised by `State.serveBus`, in the window or not: "a model refuses any access not of this form", one whole aligned
  64-bit word (spec/20_memory.md R55, spec/00_scope.md R7 `BRIDGE`). Safe. -/
  | notOneAlignedWord
  deriving DecidableEq, Repr

/-- The machine. -/
structure State where
  /-- X0 to X15 (spec/10_state.md R21). -/
  x : Vector U128 16
  /-- Q0 to Q7 (spec/10_state.md R22). -/
  q : Vector Quad 8
  /-- STATUS (spec/10_state.md R23). -/
  status : Status
  /-- FCMD (spec/10_state.md R28). -/
  fcmd : Word64
  /-- LASTCMD (spec/10_state.md R29). -/
  lastcmd : Word64
  /-- The index of the next command in the host's sequence, the model's "pc" (spec/10_state.md R20). -/
  cmdIndex : Nat
  /-- MODEL'S OWN: what the host delivers and the unit has not yet served, oldest first (notes/assumptions/1.md). -/
  inbox : List HostEvent
  /-- The port's outputs after the last event (spec/20_memory.md R50). -/
  response : Response
  /-- MODEL'S OWN: the implementation parameters, which no step changes (spec/00_scope.md R7,
  notes/assumptions/3.md). -/
  params : Params
  deriving DecidableEq, Repr

/-- The machine right after reset (spec/10_state.md R33) with the default parameters, before the host has delivered
anything. DESIGN CHOICE for `cmdIndex`, `inbox` and `response` (notes/assumptions 1, 2, 9). -/
def State.reset : State where
  x := Vector.replicate 16 0#128
  q := Vector.replicate 8 { neg := false, exp := 0x8000#16, man := 0#128, sig := 128#8 }
  status := Status.clear
  fcmd := 0
  lastcmd := 0
  cmdIndex := 0
  inbox := []
  response := .idle
  params := Config.defaultParams

end Sys2Proof.Machine
end

