-- ==== Sys2Proof/Machine/Operands.lean ====
section
/-! DEFINITION. What a command reads: halves, bit positions, immediates and counts of X operands, and the classes and
validity of Quad operands (spec/00_scope.md R8, R9; spec/30_encoding.md R74; spec/43_quad_arith.md R160 to R163). -/

namespace Sys2Proof.Machine

/-! ## U128 operands -/

/-- The low half, bits 63:0 (spec/00_scope.md R8). -/
def lowHalf (v : U128) : Word64 := v.extractLsb' 0 64

/-- The high half, bits 127:64 (spec/00_scope.md R8). -/
def highHalf (v : U128) : Word64 := v.extractLsb' 64 64

/-- The U128 with the given halves: `high*2^64 + low` (spec/00_scope.md R8). -/
def joinHalves (hi lo : Word64) : U128 := hi.setWidth 128 <<< 64 ||| lo.setWidth 128

/-- `2^127`, the value whose only set bit is the MSB. -/
def msbOnly : U128 := 1#128 <<< 127

/-- Bit 127 (spec/00_scope.md R8). -/
def msbSet (v : U128) : Bool := v.getLsbD 127

/-- `msb_index(v)`, the largest i with v[i] = 1, for v not 0 (spec/00_scope.md R9). -/
def msbIndex (v : Word64) : Nat := Nat.log2 v.toNat

/-- LDI's value: the immediate zero-extended to 128 bits (spec/30_encoding.md R74). -/
def immediate (imm : BitVec 16) : U128 := imm.setWidth 128

/-- The low half zero-extended (spec/40_u128_addsub_logic.md R108). -/
def zextLow (v : U128) : U128 := (lowHalf v).setWidth 128

/-- The RS count: `n8` unsigned and unscaled (spec/30_encoding.md R74). -/
def shiftCount (n : BitVec 8) : Nat := n.toNat

/-- The low half as a two's-complement integer (spec/44_quad_round_convert.md R196). -/
def signedLow (v : U128) : Int := (lowHalf v).toInt

/-! ## Quad operands -/

/-- The exponent as an integer. -/
def Quad.expInt (q : Quad) : Int := q.exp.toInt

/-- `isZero` (spec/43_quad_arith.md R160). -/
def Quad.isZero (p : Params) (q : Quad) : Bool := q.expInt == p.eminInt

/-- `isInf` (spec/43_quad_arith.md R160, spec/90_conflicts.md C1). -/
def Quad.isInf (p : Params) (q : Quad) : Bool := q.expInt == p.emaxInt && q.man == msbOnly

/-- `isNaN` (spec/43_quad_arith.md R160). -/
def Quad.isNaN (p : Params) (q : Quad) : Bool := q.expInt == p.emaxInt && q.man != msbOnly

/-- `isFinite` (spec/43_quad_arith.md R160): nonzero and neither infinite nor NaN. -/
def Quad.isFinite (p : Params) (q : Quad) : Bool := decide (p.eminInt < q.expInt) && decide (q.expInt < p.emaxInt)

/-- `valid(q)` (spec/43_quad_arith.md R161). -/
def Quad.valid (p : Params) (q : Quad) : Bool :=
  decide (q.sig.toNat ≤ Config.sigMax)
    && (!q.isZero p || (q.man == 0#128 && !q.neg))
    && (!q.isFinite p || msbSet q.man)
    && decide (p.eminInt ≤ q.expInt) && decide (q.expInt ≤ p.emaxInt)

/-- `ZERO(s)` (spec/43_quad_arith.md R162): every zero has sign 0 (spec/90_conflicts.md C2). -/
def Quad.zero (p : Params) (s : BitVec 8) : Quad := { neg := false, exp := p.emin, man := 0#128, sig := s }

/-- `INF(n, s)` (spec/43_quad_arith.md R162). -/
def Quad.inf (p : Params) (n : Bool) (s : BitVec 8) : Quad := { neg := n, exp := p.emax, man := msbOnly, sig := s }

/-- `NAN(s)`, the canonical NaN (spec/43_quad_arith.md R162). -/
def Quad.nan (p : Params) (s : BitVec 8) : Quad := { neg := false, exp := p.emax, man := 0#128, sig := s }

/-- `FLIP(q)` (spec/43_quad_arith.md R168). -/
def Quad.flip (q : Quad) : Quad := { q with neg := !q.neg }

/-- The budget of a binary command's result, the minimum of the operands' (spec/43_quad_arith.md R163). -/
def minSig (a b : Quad) : BitVec 8 := if a.sig.toNat ≤ b.sig.toNat then a.sig else b.sig

/-- `(a.exp, a.man) >= (b.exp, b.man)`, lexicographic (spec/43_quad_arith.md R167). -/
def Quad.magGe (a b : Quad) : Bool :=
  decide (b.expInt < a.expInt) || (a.expInt == b.expInt && decide (b.man.toNat ≤ a.man.toNat))

end Sys2Proof.Machine
end

