-- ==== Sys2Proof/Machine/Flags.lean ====
section
/-! DEFINITION. The STATUS fields a command writes and the STATUS word the host reads (spec/10_state.md R23 to R27). -/

namespace Sys2Proof.Machine

/-- The four Quad status bits one command reports (spec/10_state.md R27). -/
structure QFlags where
  qof : Bool
  quf : Bool
  qnv : Bool
  qcut : Bool
  deriving DecidableEq, Repr

/-- All four bits 0: what every executed Q command writes first (spec/10_state.md R27). -/
def QFlags.clear : QFlags := { qof := false, quf := false, qnv := false, qcut := false }

/-- The result saturated to infinity by exponent overflow. -/
def QFlags.overflow : QFlags := { QFlags.clear with qof := true }

/-- The result was clamped to zero by exponent underflow. -/
def QFlags.underflow : QFlags := { QFlags.clear with quf := true }

/-- A NaN was produced from operands none of which was NaN. -/
def QFlags.invalid : QFlags := { QFlags.clear with qnv := true }

/-- The addition or subtraction took the alignment cutoff. -/
def QFlags.cutoff : QFlags := { QFlags.clear with qcut := true }

/-- What a Quad datapath function answers: the result and the status bits it sets. -/
structure QResult where
  val : Quad
  flags : QFlags
  deriving DecidableEq, Repr

/-- A result with no status bit set. -/
def QResult.plain (q : Quad) : QResult := { val := q, flags := QFlags.clear }

/-- OVF overwritten (spec/10_state.md R24). -/
def Status.withOvf (st : Status) (c : Bool) : Status := { st with ovf := c }

/-- QOF, QUF, QNV and QCUT overwritten (spec/10_state.md R27). -/
def Status.withQFlags (st : Status) (f : QFlags) : Status :=
  { st with qof := f.qof, quf := f.quf, qnv := f.qnv, qcut := f.qcut }

/-- CNT overwritten (spec/10_state.md R26). -/
def Status.withCnt (st : Status) (n : BitVec 8) : Status := { st with cnt := n }

/-- FAULT set and CAUSE written (spec/10_state.md R25). -/
def Status.withFault (st : Status) (c : Cause) : Status := { st with fault := true, cause := c }

/-- The code of a cause (spec/60_exceptions.md R220). -/
def Cause.code : Cause → BitVec 4
  | .none => 0
  | .illegalCmd => 1
  | .badQuadOperand => 2
  | .normZero => 3

/-- One flag at its bit position. -/
def bitAt (b : Bool) (i : Nat) : Word64 := (BitVec.ofBool b).setWidth 64 <<< i

/-- The 64 bits the host reads as STATUS (spec/10_state.md R23); the reserved bits read 0. -/
def Status.word (st : Status) : Word64 :=
  bitAt st.ovf 0 ||| bitAt st.qof 1 ||| bitAt st.quf 2 ||| bitAt st.qnv 3 ||| bitAt st.qcut 4
    ||| bitAt st.fault 7 ||| st.cause.code.setWidth 64 <<< 8 ||| st.cnt.setWidth 64 <<< 16

end Sys2Proof.Machine
end

