-- ==== Sys2Proof/Machine/U128Path.lean ====
section
/-! DEFINITION. The U128 datapath, from the half-word pseudocode of spec/40_u128_addsub_logic.md,
spec/41_u128_multiply.md and spec/42_u128_shift_normalize.md. -/

namespace Sys2Proof.Machine

/-! ## Add and subtract -/

/-- The sum and OVF of ADD, by halves (spec/40_u128_addsub_logic.md R100). -/
def addHalves (a b : U128) : U128 × Bool :=
  let loSum := (lowHalf a).toNat + (lowHalf b).toNat
  let hiSum1 := (highHalf a).toNat + loSum / 2 ^ 64
  let hiSum := hiSum1 % 2 ^ 64 + (highHalf b).toNat
  (joinHalves (BitVec.ofNat 64 hiSum) (BitVec.ofNat 64 loSum),
    decide (2 ^ 64 ≤ hiSum1) || decide (2 ^ 64 ≤ hiSum))

/-- The difference and the borrow out of SUB, by halves (spec/40_u128_addsub_logic.md R101). -/
def subHalves (a b : U128) : U128 × Bool :=
  let loDiff : Int := (lowHalf a).toNat - (lowHalf b).toNat
  let bLo : Int := if loDiff < 0 then 1 else 0
  let hiDiff : Int := (highHalf a).toNat - (highHalf b).toNat - bLo
  (joinHalves (BitVec.ofInt 64 hiDiff) (BitVec.ofInt 64 loDiff), decide (hiDiff < 0))

/-! ## Multiply -/

/-- The exact 64 by 64 product from four 32 by 32 partial products (spec/41_u128_multiply.md R120). -/
def mul64Exact (u v : Word64) : Nat :=
  let u1 := u.toNat / 2 ^ 32
  let u0 := u.toNat % 2 ^ 32
  let v1 := v.toNat / 2 ^ 32
  let v0 := v.toNat % 2 ^ 32
  u1 * v1 * 2 ^ 64 + (u0 * v1 + u1 * v0) * 2 ^ 32 + u0 * v0

/-- The low 128 bits of an exact product, and whether it is 2^128 or more (spec/41_u128_multiply.md R121, R122). -/
def truncProduct (p : Nat) : U128 × Bool := (BitVec.ofNat 128 p, decide (2 ^ 128 ≤ p))

/-- The product of MULW: the multiplier is the low half of `b` (spec/41_u128_multiply.md R121). -/
def mulWide (a b : U128) : U128 × Bool := truncProduct (a.toNat * (lowHalf b).toNat)

/-- The product of MUL128 (spec/41_u128_multiply.md R122). -/
def mulFull (a b : U128) : U128 × Bool := truncProduct (a.toNat * b.toNat)

/-- `r` of MULHI, from the three partial products hi*hi, hi*lo and lo*hi (spec/41_u128_multiply.md R123). `crossCarry`
says whether the cross products' low halves carry into the high half. -/
def mulHiAcc (crossCarry : Bool) (a b : U128) : Nat :=
  let phh := mul64Exact (highHalf a) (highHalf b)
  let phl := mul64Exact (highHalf a) (lowHalf b)
  let plh := mul64Exact (lowHalf a) (highHalf b)
  if crossCarry then (phh * 2 ^ 64 + phl + plh) / 2 ^ 64 else phh + phl / 2 ^ 64 + plh / 2 ^ 64

/-- The result of MULHI and its carry out, bit 128 of the accumulation (spec/41_u128_multiply.md R123). -/
def mulHi (crossCarry : Bool) (a b : U128) : U128 × Bool :=
  (BitVec.ofNat 128 (mulHiAcc crossCarry a b), (mulHiAcc crossCarry a b).testBit 128)

/-! ## Shift and normalise -/

/-- SHL's result; counts of 128 or more give 0 (spec/42_u128_shift_normalize.md R140). -/
def shiftLeft (v : U128) (n : Nat) : U128 := if n < 128 then v <<< n else 0

/-- SHR's result; counts of 128 or more give 0 (spec/42_u128_shift_normalize.md R141). -/
def shiftRight (v : U128) (n : Nat) : U128 := if n < 128 then v >>> n else 0

/-- SHRMSB's result: `(v div 2) + 2^127` (spec/42_u128_shift_normalize.md R142). -/
def shiftRightMsb (v : U128) : U128 := v >>> 1 + msbOnly

/-- The position of the highest set bit of a value that is not 0, the high half scanned first
(spec/42_u128_shift_normalize.md R143). -/
def topBit (v : U128) : Nat :=
  if highHalf v ≠ 0 then 64 + msbIndex (highHalf v) else msbIndex (lowHalf v)

/-- `normalize(v)` for v not 0: the mantissa with bit 127 set and the shift count (spec/42_u128_shift_normalize.md
R143). -/
def normalize (v : U128) : U128 × Nat := (v <<< (127 - topBit v), 127 - topBit v)

end Sys2Proof.Machine
end

