-- ==== Sys2Proof/Machine/QuadPath.lean ====
section
/-! DEFINITION. The Quad datapath: aligner, exponent clamp, magnitude add and subtract, the add and multiply cores and
the integer rounder (spec/43_quad_arith.md R164 to R171, spec/44_quad_round_convert.md R190, R195, R196). -/

namespace Sys2Proof.Machine

/-- `ALIGN(m, d)`; `none` is CUTOFF (spec/43_quad_arith.md R164). -/
def align (m : U128) (d : Nat) : Option U128 := if 128 < d then none else some (shiftRight m d)

/-- `FINISH(n, e, m, s)`, the exponent clamp (spec/43_quad_arith.md R165, spec/90_conflicts.md C3). -/
def finish (p : Params) (n : Bool) (e : Int) (m : U128) (s : BitVec 8) : QResult :=
  if p.emaxInt ≤ e then { val := Quad.inf p n s, flags := QFlags.overflow }
  else if e ≤ p.eminInt then { val := Quad.zero p s, flags := QFlags.underflow }
  else QResult.plain { neg := n, exp := BitVec.ofInt 16 e, man := m, sig := s }

/-- The arm of the magnitude add and subtract where the smaller operand contributes nothing: the anchor with sign `n`
and budget `s` (spec/43_quad_arith.md R166, R167, spec/90_conflicts.md C4). -/
def cutoffResult (n : Bool) (anchor : Quad) (s : BitVec 8) : QResult :=
  { val := { neg := n, exp := anchor.exp, man := anchor.man, sig := s }, flags := QFlags.cutoff }

/-- The sum of the anchor's mantissa and the aligned one, with the carry fold (spec/43_quad_arith.md R166, from the
fourth line). -/
def addAligned (p : Params) (n : Bool) (hi : Quad) (t : U128) (s : BitVec 8) : QResult :=
  let sum := addHalves hi.man t
  if sum.2 then finish p n (hi.expInt + 1) (shiftRightMsb sum.1) s
  else finish p n hi.expInt sum.1 s

/-- `MAGADD` once the anchor is known (spec/43_quad_arith.md R166). -/
def magAddAnchored (p : Params) (n : Bool) (hi lo : Quad) (s : BitVec 8) : QResult :=
  match align lo.man (hi.expInt - lo.expInt).toNat with
  | none => cutoffResult n hi s
  | some t => addAligned p n hi t s

/-- `MAGADD(n, a, b, s)`: the operand with the larger exponent is the anchor, `a` on a tie (spec/43_quad_arith.md
R166). -/
def magAdd (p : Params) (n : Bool) (a b : Quad) (s : BitVec 8) : QResult :=
  if b.expInt ≤ a.expInt then magAddAnchored p n a b s else magAddAnchored p n b a s

/-- The difference of the larger mantissa and the aligned one, renormalised (spec/43_quad_arith.md R167, from the
sixth line). -/
def subAligned (p : Params) (n : Bool) (big : Quad) (t : U128) (s : BitVec 8) : QResult :=
  let diff := (subHalves big.man t).1
  if diff = 0 then QResult.plain (Quad.zero p s)
  else finish p n (big.expInt - (normalize diff).2) (normalize diff).1 s

/-- `MAGSUB` once the larger magnitude is known (spec/43_quad_arith.md R167). -/
def magSubOrdered (p : Params) (n : Bool) (big small : Quad) (s : BitVec 8) : QResult :=
  match align small.man (big.expInt - small.expInt).toNat with
  | none => cutoffResult n big s
  | some t => subAligned p n big t s

/-- `MAGSUB(n, a, b, s)`: the swap flags a sign negation (spec/43_quad_arith.md R167). -/
def magSub (p : Params) (n : Bool) (a b : Quad) (s : BitVec 8) : QResult :=
  if a.magGe b then magSubOrdered p n a b s else magSubOrdered p (!n) b a s

/-- `ADDCORE(a, b)` (spec/43_quad_arith.md R168). -/
def addCore (p : Params) (a b : Quad) : QResult :=
  let s := minSig a b
  if a.isNaN p || b.isNaN p then QResult.plain (Quad.nan p s)
  else if a.isInf p && b.isInf p then
    if a.neg == b.neg then QResult.plain (Quad.inf p a.neg s)
    else { val := Quad.nan p s, flags := QFlags.invalid }
  else if a.isInf p then QResult.plain (Quad.inf p a.neg s)
  else if b.isInf p then QResult.plain (Quad.inf p b.neg s)
  else if a.isZero p && b.isZero p then QResult.plain (Quad.zero p s)
  else if b.isZero p then QResult.plain { a with sig := s }
  else if a.isZero p then QResult.plain { b with sig := s }
  else if a.neg == b.neg then magAdd p a.neg a b s
  else magSub p a.neg a b.flip s

/-- QSUB's second operand: negated, but for a NaN or a zero (spec/43_quad_arith.md R170). -/
def subOperand (p : Params) (b : Quad) : Quad := if b.isNaN p || b.isZero p then b else b.flip

/-- QSUB's result: the add core on the negated second operand (spec/43_quad_arith.md R170). -/
def subCore (p : Params) (a b : Quad) : QResult := addCore p a (subOperand p b)

/-- The finite arm of QMUL: MULHI, the carry fold, the normaliser and the clamp (spec/43_quad_arith.md R171, last
arm). -/
def mulFinite (p : Params) (n : Bool) (a b : Quad) (s : BitVec 8) : QResult :=
  let e := a.expInt + b.expInt
  let prod := mulHi p.crossCarry a.man b.man
  let folded := if prod.2 then shiftRightMsb prod.1 else prod.1
  let e' := if prod.2 then e + 1 else e
  finish p n (e' - (normalize folded).2) (normalize folded).1 s

/-- QMUL's result (spec/43_quad_arith.md R171). -/
def mulCore (p : Params) (a b : Quad) : QResult :=
  let s := minSig a b
  let n := a.neg != b.neg
  if a.isNaN p || b.isNaN p then QResult.plain (Quad.nan p s)
  else if (a.isZero p && b.isInf p) || (a.isInf p && b.isZero p) then
    { val := Quad.nan p s, flags := QFlags.invalid }
  else if a.isInf p || b.isInf p then QResult.plain (Quad.inf p n s)
  else if a.isZero p || b.isZero p then QResult.plain (Quad.zero p s)
  else mulFinite p n a b s

/-- QNEG's result (spec/43_quad_arith.md R172). -/
def negate (p : Params) (a : Quad) : Quad :=
  if a.isNaN p then Quad.nan p a.sig else if a.isZero p then a else a.flip

/-- QABS's result (spec/43_quad_arith.md R173). -/
def absolute (p : Params) (a : Quad) : Quad := if a.isNaN p then Quad.nan p a.sig else { a with neg := false }

/-! ## The integer rounder -/

/-- The modes of the integer rounder (spec/44_quad_round_convert.md R190). -/
inductive RoundMode where
  | trunc
  | floor
  | ceil
  | round
  deriving DecidableEq, Repr

/-- `up` for a magnitude below 1: the exponent is at most 0 (spec/44_quad_round_convert.md R190). -/
def roundUpSmall (mode : RoundMode) (a : Quad) : Bool :=
  match mode with
  | .trunc => false
  | .floor => a.neg
  | .ceil => !a.neg
  | .round => a.expInt == 0 && decide (msbOnly.toNat < a.man.toNat)

/-- `up` for integer part `i`, fraction bits `fr` and half weight `half` (spec/44_quad_round_convert.md R190). -/
def roundUp (mode : RoundMode) (n : Bool) (i fr half : Nat) : Bool :=
  match mode with
  | .trunc => false
  | .floor => n && decide (fr ≠ 0)
  | .ceil => !n && decide (fr ≠ 0)
  | .round => decide (half < fr) || (decide (fr = half) && decide (i % 2 = 1))

/-- `ROUNDINT` for an exponent of at most 0 (spec/44_quad_round_convert.md R190). -/
def roundSmall (p : Params) (mode : RoundMode) (a : Quad) : Quad :=
  if roundUpSmall mode a then { neg := a.neg, exp := 1#16, man := msbOnly, sig := a.sig } else Quad.zero p a.sig

/-- `ROUNDINT` for an exponent from 1 to 127: `f` fraction bits, their rounding and the carry out
(spec/44_quad_round_convert.md R190). -/
def roundFraction (mode : RoundMode) (a : Quad) (f : Nat) : Quad :=
  let i := a.man.toNat / 2 ^ f
  let fr := a.man.toNat % 2 ^ f
  let i' := if roundUp mode a.neg i fr (2 ^ (f - 1)) then i + 1 else i
  let r := i' * 2 ^ f
  if r = 2 ^ 128 then { neg := a.neg, exp := BitVec.ofInt 16 (a.expInt + 1), man := msbOnly, sig := a.sig }
  else { neg := a.neg, exp := a.exp, man := BitVec.ofNat 128 r, sig := a.sig }

/-- `ROUNDINT(a, mode)` (spec/44_quad_round_convert.md R190). -/
def roundInt (p : Params) (mode : RoundMode) (a : Quad) : Quad :=
  if a.isNaN p then Quad.nan p a.sig
  else if a.isInf p || a.isZero p then a
  else if 128 ≤ a.expInt then a
  else if a.expInt ≤ 0 then roundSmall p mode a
  else roundFraction mode a (128 - a.expInt).toNat

/-! ## Construction -/

/-- The Quad of sign `n` and integer magnitude `v`, with budget 128: zero is special-cased before the normaliser
(spec/44_quad_round_convert.md R195, R196). -/
def fromMagnitude (p : Params) (n : Bool) (v : U128) : Quad :=
  if v = 0 then Quad.zero p 128#8
  else { neg := n, exp := BitVec.ofInt 16 (128 - (normalize v).2), man := (normalize v).1, sig := 128#8 }

/-- QFROMU's result: the whole X value, unsigned (spec/44_quad_round_convert.md R195). -/
def fromUnsigned (p : Params) (v : U128) : Quad := fromMagnitude p false v

/-- QFROMS's result: the low half as a signed 64-bit integer (spec/44_quad_round_convert.md R196). -/
def fromSigned (p : Params) (v : U128) : Quad :=
  fromMagnitude p (decide (signedLow v < 0)) (BitVec.ofNat 128 (signedLow v).natAbs)

/-- QSETSIG's result: the budget becomes `n`, a NaN becomes canonical (spec/44_quad_round_convert.md R197). -/
def setSig (p : Params) (a : Quad) (n : BitVec 8) : Quad := if a.isNaN p then Quad.nan p n else { a with sig := n }

end Sys2Proof.Machine
end

