-- ==== Sys2Proof/Machine/Ops.lean ====
section
/-! DEFINITION. The named operations on the state: register reads and writes (spec/00_scope.md R10), taking a fault
(spec/60_exceptions.md R221), the reset that alone leaves it (spec/70_reset_and_hazards.md R240), and the frame every
command runs in (spec/10_state.md R29, R32). -/

namespace Sys2Proof.Machine

/-! ## Registers -/

/-- `X[i]` (spec/00_scope.md R10). -/
def State.readX (s : State) (i : XReg) : U128 := s.x[i.val]

/-- `X[i] <- v` (spec/00_scope.md R10). -/
def State.writeX (s : State) (i : XReg) (v : U128) : State := { s with x := s.x.set i.val v }

/-- `Q[j]` (spec/00_scope.md R10). -/
def State.readQ (s : State) (j : QReg) : Quad := s.q[j.val]

/-- `Q[j] <- v`, all four fields (spec/00_scope.md R10). -/
def State.writeQ (s : State) (j : QReg) (v : Quad) : State := { s with q := s.q.set j.val v }

/-- STATUS replaced. -/
def State.setStatus (s : State) (st : Status) : State := { s with status := st }

/-- A destination X register and OVF written (spec/10_state.md R24). -/
def State.writeXOvf (s : State) (d : XReg) (r : U128 × Bool) : State :=
  (s.writeX d r.1).setStatus (s.status.withOvf r.2)

/-- A destination X register and CNT written (spec/42_u128_shift_normalize.md R143). -/
def State.writeXCnt (s : State) (d : XReg) (r : U128 × Nat) : State :=
  (s.writeX d r.1).setStatus (s.status.withCnt (BitVec.ofNat 8 r.2))

/-- A destination Q register and the four Q status bits written (spec/10_state.md R27). -/
def State.writeQResult (s : State) (d : QReg) (r : QResult) : State :=
  (s.writeQ d r.val).setStatus (s.status.withQFlags r.flags)

/-! ## Faults and reset -/

/-- The halted condition, exactly `STATUS.FAULT = 1` (spec/10_state.md R32). -/
def State.halted (s : State) : Bool := s.status.fault

/-- `raise Fault(cause)` for the command word `w`: FAULT, CAUSE and FCMD are written, nothing else
(spec/60_exceptions.md R221). -/
def State.raiseFault (s : State) (c : Cause) (w : CmdWord) : State :=
  { s with status := s.status.withFault c, fcmd := w.setWidth 64 }

/-- The one way out of a fault, a hardware or soft reset: every register takes the reset value of spec/10_state.md R33
(spec/70_reset_and_hazards.md R240, spec/60_exceptions.md R223). What is not a register of the unit stays: the
parameters, the host's sequence and the port's response (notes/assumptions 2, 3, 14). -/
def State.resetUnit (s : State) : State :=
  { s with
    x := Vector.replicate 16 0#128
    q := Vector.replicate 8 (Quad.zero s.params 128#8)
    status := Status.clear
    fcmd := 0
    lastcmd := 0 }

/-! ## The frame of a command -/

/-- LASTCMD takes the word of a command that completes without a fault (spec/10_state.md R29). A command has one word,
so it is the command's own encoding (notes/assumptions/12.md). -/
def State.complete (s : State) (i : Instr) : State := { s with lastcmd := (encode i).setWidth 64 }

/-- Run the command `i`, whose effect is a new state or a fault cause: a halted unit discards it with no effect
(spec/10_state.md R32), an effect completes (R29), a cause raises the fault (spec/60_exceptions.md R221). -/
def State.command (s : State) (i : Instr) (effect : Except Cause State) : Host.Outcome State Fault Refusal :=
  if s.halted then .next s
  else
    match effect with
    | .ok t => .next (t.complete i)
    | .error c => .next (s.raiseFault c (encode i))

/-- A Q command with one Q operand: an invalid operand raises BAD_QUAD_OPERAND, else the result of `f` is written
(spec/43_quad_arith.md R161, R172). -/
def State.unaryQ (s : State) (d a : QReg) (f : Quad → QResult) : Except Cause State :=
  if (s.readQ a).valid s.params then .ok (s.writeQResult d (f (s.readQ a))) else .error .badQuadOperand

/-- A Q command with two Q operands, `a` checked first (spec/43_quad_arith.md R161, R169; spec/60_exceptions.md
R222). -/
def State.binaryQ (s : State) (d a b : QReg) (f : Quad → Quad → QResult) : Except Cause State :=
  if !(s.readQ a).valid s.params then .error .badQuadOperand
  else if !(s.readQ b).valid s.params then .error .badQuadOperand
  else .ok (s.writeQResult d (f (s.readQ a) (s.readQ b)))

end Sys2Proof.Machine
end

