-- ==== Sys2Proof/Machine/AddLogic.lean ====
section
/-! DEFINITION. The U128 add, subtract, logic and move commands (spec/40_u128_addsub_logic.md R100 to R111). -/

namespace Sys2Proof.Machine

/-- NOP: nothing but LASTCMD is written (spec/40_u128_addsub_logic.md R111). -/
def execNop (s : State) : Host.Outcome State Fault Refusal :=
  s.command .nop (.ok s)

/-- ADD (spec/40_u128_addsub_logic.md R100). -/
def execAdd (d a b : XReg) (s : State) : Host.Outcome State Fault Refusal :=
  s.command (.add d a b) (.ok (s.writeXOvf d (addHalves (s.readX a) (s.readX b))))

/-- SUB, OVF being the borrow out (spec/40_u128_addsub_logic.md R101). -/
def execSub (d a b : XReg) (s : State) : Host.Outcome State Fault Refusal :=
  s.command (.sub d a b) (.ok (s.writeXOvf d (subHalves (s.readX a) (s.readX b))))

/-- AND, no flag (spec/40_u128_addsub_logic.md R102). -/
def execAnd (d a b : XReg) (s : State) : Host.Outcome State Fault Refusal :=
  s.command (.and d a b) (.ok (s.writeX d (s.readX a &&& s.readX b)))

/-- OR, no flag (spec/40_u128_addsub_logic.md R103). -/
def execOr (d a b : XReg) (s : State) : Host.Outcome State Fault Refusal :=
  s.command (.or d a b) (.ok (s.writeX d (s.readX a ||| s.readX b)))

/-- XOR, no flag (spec/40_u128_addsub_logic.md R104). -/
def execXor (d a b : XReg) (s : State) : Host.Outcome State Fault Refusal :=
  s.command (.xor d a b) (.ok (s.writeX d (s.readX a ^^^ s.readX b)))

/-- NOT, no flag (spec/40_u128_addsub_logic.md R105). -/
def execNot (d a : XReg) (s : State) : Host.Outcome State Fault Refusal :=
  s.command (.not d a) (.ok (s.writeX d (~~~ s.readX a)))

/-- MOV, no flag (spec/40_u128_addsub_logic.md R106). -/
def execMov (d a : XReg) (s : State) : Host.Outcome State Fault Refusal :=
  s.command (.mov d a) (.ok (s.writeX d (s.readX a)))

/-- LDI, no flag (spec/40_u128_addsub_logic.md R107). -/
def execLdi (d : XReg) (imm : BitVec 16) (s : State) : Host.Outcome State Fault Refusal :=
  s.command (.ldi d imm) (.ok (s.writeX d (immediate imm)))

/-- ZEXT64, no flag (spec/40_u128_addsub_logic.md R108). -/
def execZext64 (d a : XReg) (s : State) : Host.Outcome State Fault Refusal :=
  s.command (.zext64 d a) (.ok (s.writeX d (zextLow (s.readX a))))

end Sys2Proof.Machine
end

