-- ==== Sys2Proof/Machine/Multiply.lean ====
section
/-! DEFINITION. The U128 multiply commands (spec/41_u128_multiply.md R120 to R123). -/

namespace Sys2Proof.Machine

/-- MUL64: the exact product of the low halves, OVF written 0 (spec/41_u128_multiply.md R120). -/
def execMul64 (d a b : XReg) (s : State) : Host.Outcome State Fault Refusal :=
  s.command (.mul64 d a b)
    (.ok (s.writeXOvf d (BitVec.ofNat 128 (mul64Exact (lowHalf (s.readX a)) (lowHalf (s.readX b))), false)))

/-- MULW (spec/41_u128_multiply.md R121). -/
def execMulw (d a b : XReg) (s : State) : Host.Outcome State Fault Refusal :=
  s.command (.mulw d a b) (.ok (s.writeXOvf d (mulWide (s.readX a) (s.readX b))))

/-- MUL128 (spec/41_u128_multiply.md R122). -/
def execMul128 (d a b : XReg) (s : State) : Host.Outcome State Fault Refusal :=
  s.command (.mul128 d a b) (.ok (s.writeXOvf d (mulFull (s.readX a) (s.readX b))))

/-- MULHI (spec/41_u128_multiply.md R123). -/
def execMulhi (d a b : XReg) (s : State) : Host.Outcome State Fault Refusal :=
  s.command (.mulhi d a b) (.ok (s.writeXOvf d (mulHi s.params.crossCarry (s.readX a) (s.readX b))))

end Sys2Proof.Machine
end

