-- ==== Sys2Proof/Machine/QuadArith.lean ====
section
/-! DEFINITION. The Quad arithmetic commands (spec/43_quad_arith.md R169 to R173). -/

namespace Sys2Proof.Machine

/-- QADD (spec/43_quad_arith.md R169). -/
def execQadd (d a b : QReg) (s : State) : Host.Outcome State Fault Refusal :=
  s.command (.qadd d a b) (s.binaryQ d a b (addCore s.params))

/-- QSUB (spec/43_quad_arith.md R170). -/
def execQsub (d a b : QReg) (s : State) : Host.Outcome State Fault Refusal :=
  s.command (.qsub d a b) (s.binaryQ d a b (subCore s.params))

/-- QMUL (spec/43_quad_arith.md R171). -/
def execQmul (d a b : QReg) (s : State) : Host.Outcome State Fault Refusal :=
  s.command (.qmul d a b) (s.binaryQ d a b (mulCore s.params))

/-- QNEG (spec/43_quad_arith.md R172). -/
def execQneg (d a : QReg) (s : State) : Host.Outcome State Fault Refusal :=
  s.command (.qneg d a) (s.unaryQ d a fun q => .plain (negate s.params q))

/-- QABS (spec/43_quad_arith.md R173). -/
def execQabs (d a : QReg) (s : State) : Host.Outcome State Fault Refusal :=
  s.command (.qabs d a) (s.unaryQ d a fun q => .plain (absolute s.params q))

end Sys2Proof.Machine
end

