-- ==== Sys2Proof/Machine/QuadRound.lean ====
section
/-! DEFINITION. The Quad rounding, construction and significant-bits commands (spec/44_quad_round_convert.md R190 to
R197). -/

namespace Sys2Proof.Machine

/-- QTRUNC (spec/44_quad_round_convert.md R191). -/
def execQtrunc (d a : QReg) (s : State) : Host.Outcome State Fault Refusal :=
  s.command (.qtrunc d a) (s.unaryQ d a fun q => .plain (roundInt s.params .trunc q))

/-- QFLOOR (spec/44_quad_round_convert.md R192). -/
def execQfloor (d a : QReg) (s : State) : Host.Outcome State Fault Refusal :=
  s.command (.qfloor d a) (s.unaryQ d a fun q => .plain (roundInt s.params .floor q))

/-- QCEIL (spec/44_quad_round_convert.md R193). -/
def execQceil (d a : QReg) (s : State) : Host.Outcome State Fault Refusal :=
  s.command (.qceil d a) (s.unaryQ d a fun q => .plain (roundInt s.params .ceil q))

/-- QROUND (spec/44_quad_round_convert.md R194). -/
def execQround (d a : QReg) (s : State) : Host.Outcome State Fault Refusal :=
  s.command (.qround d a) (s.unaryQ d a fun q => .plain (roundInt s.params .round q))

/-- QFROMU: reads no Q operand, so it cannot fault (spec/44_quad_round_convert.md R195). -/
def execQfromu (d : QReg) (a : XReg) (s : State) : Host.Outcome State Fault Refusal :=
  s.command (.qfromu d a) (.ok (s.writeQResult d (.plain (fromUnsigned s.params (s.readX a)))))

/-- QFROMS: reads no Q operand, so it cannot fault (spec/44_quad_round_convert.md R196). -/
def execQfroms (d : QReg) (a : XReg) (s : State) : Host.Outcome State Fault Refusal :=
  s.command (.qfroms d a) (.ok (s.writeQResult d (.plain (fromSigned s.params (s.readX a)))))

/-- QSETSIG (spec/44_quad_round_convert.md R197). A count above 128 is no command: the decoder refuses it, and a term
with one raises ILLEGAL_CMD here too, before the operand is read (spec/30_encoding.md R77, spec/60_exceptions.md R222;
notes/assumptions/20.md). -/
def execQsetsig (d a : QReg) (n : BitVec 8) (s : State) : Host.Outcome State Fault Refusal :=
  s.command (.qsetsig d a n)
    (if 128 < n.toNat then .error .illegalCmd else s.unaryQ d a fun q => .plain (setSig s.params q n))

end Sys2Proof.Machine
end

