-- ==== Sys2Proof/Machine/Shift.lean ====
section
/-! DEFINITION. The U128 shift and normalise commands (spec/42_u128_shift_normalize.md R140 to R143). -/

namespace Sys2Proof.Machine

/-- SHL, no flag (spec/42_u128_shift_normalize.md R140). -/
def execShl (d a : XReg) (n : BitVec 8) (s : State) : Host.Outcome State Fault Refusal :=
  s.command (.shl d a n) (.ok (s.writeX d (shiftLeft (s.readX a) (shiftCount n))))

/-- SHR, no flag (spec/42_u128_shift_normalize.md R141). -/
def execShr (d a : XReg) (n : BitVec 8) (s : State) : Host.Outcome State Fault Refusal :=
  s.command (.shr d a n) (.ok (s.writeX d (shiftRight (s.readX a) (shiftCount n))))

/-- SHRMSB, no flag (spec/42_u128_shift_normalize.md R142). -/
def execShrmsb (d a : XReg) (s : State) : Host.Outcome State Fault Refusal :=
  s.command (.shrmsb d a) (.ok (s.writeX d (shiftRightMsb (s.readX a))))

/-- NORM: 0 raises NORM_ZERO; else CNT is written (spec/42_u128_shift_normalize.md R143). -/
def execNorm (d a : XReg) (s : State) : Host.Outcome State Fault Refusal :=
  s.command (.norm d a)
    (if s.readX a = 0 then .error .normZero else .ok (s.writeXCnt d (normalize (s.readX a))))

end Sys2Proof.Machine
end

