-- ==== Sys2Proof/Machine/Dispatch.lean ====
section
/-! DEFINITION. One arm per command, each a direct call of its meaning. -/

namespace Sys2Proof.Machine

def exec (i : Instr) (s : State) : Host.Outcome State Fault Refusal :=
  match i with
  | .nop => Sys2Proof.Machine.execNop s
  | .add d a b => Sys2Proof.Machine.execAdd d a b s
  | .sub d a b => Sys2Proof.Machine.execSub d a b s
  | .and d a b => Sys2Proof.Machine.execAnd d a b s
  | .or d a b => Sys2Proof.Machine.execOr d a b s
  | .xor d a b => Sys2Proof.Machine.execXor d a b s
  | .not d a => Sys2Proof.Machine.execNot d a s
  | .mov d a => Sys2Proof.Machine.execMov d a s
  | .ldi d imm => Sys2Proof.Machine.execLdi d imm s
  | .zext64 d a => Sys2Proof.Machine.execZext64 d a s
  | .mul64 d a b => Sys2Proof.Machine.execMul64 d a b s
  | .mulw d a b => Sys2Proof.Machine.execMulw d a b s
  | .mul128 d a b => Sys2Proof.Machine.execMul128 d a b s
  | .mulhi d a b => Sys2Proof.Machine.execMulhi d a b s
  | .shl d a n => Sys2Proof.Machine.execShl d a n s
  | .shr d a n => Sys2Proof.Machine.execShr d a n s
  | .shrmsb d a => Sys2Proof.Machine.execShrmsb d a s
  | .norm d a => Sys2Proof.Machine.execNorm d a s
  | .qadd d a b => Sys2Proof.Machine.execQadd d a b s
  | .qsub d a b => Sys2Proof.Machine.execQsub d a b s
  | .qmul d a b => Sys2Proof.Machine.execQmul d a b s
  | .qneg d a => Sys2Proof.Machine.execQneg d a s
  | .qabs d a => Sys2Proof.Machine.execQabs d a s
  | .qtrunc d a => Sys2Proof.Machine.execQtrunc d a s
  | .qfloor d a => Sys2Proof.Machine.execQfloor d a s
  | .qceil d a => Sys2Proof.Machine.execQceil d a s
  | .qround d a => Sys2Proof.Machine.execQround d a s
  | .qfromu d a => Sys2Proof.Machine.execQfromu d a s
  | .qfroms d a => Sys2Proof.Machine.execQfroms d a s
  | .qsetsig d a n => Sys2Proof.Machine.execQsetsig d a n s

end Sys2Proof.Machine
end

