-- ==== Sys2Proof/Machine/Window.lean ====
section
/-! DEFINITION. The register window: the map of spec/20_memory.md R52, the meta word R53 and the byte order R54. The
window stores nothing: it is a view of the registers. -/

namespace Sys2Proof.Machine

/-- What stands at a word of the window (spec/20_memory.md R52). -/
inductive WindowReg where
  /-- CMD on a write, LASTCMD on a read. -/
  | cmd
  | status
  | fcmd
  | id
  | ctrl
  | xLo (i : XReg)
  | xHi (i : XReg)
  | manLo (j : QReg)
  | manHi (j : QReg)
  | metaWd (j : QReg)
  | reserved
  deriving DecidableEq, Repr

/-- The register at a word index: byte offset 8 times the index (spec/20_memory.md R50, R52). -/
def windowReg (addr : WordIndex) : WindowReg :=
  let n := addr.toNat
  if n = 0 then .cmd
  else if n = 1 then .status
  else if n = 2 then .fcmd
  else if n = 3 then .id
  else if n = 4 then .ctrl
  else if n < 32 then .reserved
  else if n < 64 then
    let i : XReg := Fin.ofNat 16 ((n - 32) / 2)
    if n % 2 = 0 then .xLo i else .xHi i
  else if n < 96 then
    let j : QReg := Fin.ofNat 8 ((n - 64) / 4)
    if n % 4 = 0 then .manLo j else if n % 4 = 1 then .manHi j else if n % 4 = 2 then .metaWd j else .reserved
  else .reserved

/-- The meta word of a Quad: exp in bits 15:0, neg in bit 16, sig in bits 31:24, the rest 0 (spec/20_memory.md R53). -/
def Quad.metaWord (q : Quad) : Word64 :=
  q.exp.setWidth 64 ||| bitAt q.neg 16 ||| q.sig.setWidth 64 <<< 24

/-- A Quad whose exp, neg and sig are those of a written meta word, stored unchecked (spec/20_memory.md R53). -/
def Quad.withMeta (q : Quad) (w : Word64) : Quad :=
  { q with exp := w.extractLsb' 0 16, neg := w.getLsbD 16, sig := w.extractLsb' 24 8 }

/-- A U128 with its low half replaced (spec/20_memory.md R52). -/
def withLow (v : U128) (w : Word64) : U128 := joinHalves (highHalf v) w

/-- A U128 with its high half replaced (spec/20_memory.md R52). -/
def withHigh (v : U128) (w : Word64) : U128 := joinHalves w (lowHalf v)

/-- What a host read gives; it changes nothing (spec/20_memory.md R52, R55). -/
def State.readReg (s : State) : WindowReg → Word64
  | .cmd => s.lastcmd
  | .status => s.status.word
  | .fcmd => s.fcmd
  | .id => Config.idValue
  | .ctrl => 0
  | .xLo i => lowHalf (s.readX i)
  | .xHi i => highHalf (s.readX i)
  | .manLo j => lowHalf (s.readQ j).man
  | .manHi j => highHalf (s.readQ j).man
  | .metaWd j => (s.readQ j).metaWord
  | .reserved => 0

/-- One word of the window as the host reads it. -/
def State.readWindow (s : State) (addr : WordIndex) : Word64 := s.readReg (windowReg addr)

/-- What a host write does to the unit's registers, but for CMD, whose write is a command: a write to an X or Q word
replaces exactly those 64 bits (for a meta word, the fields of R53), CTRL with bit 0 = 1 is a soft reset
(spec/10_state.md R31), and the read-only and reserved words ignore it (spec/20_memory.md R52, R55). -/
def State.writeReg (s : State) (w : Word64) : WindowReg → State
  | .xLo i => s.writeX i (withLow (s.readX i) w)
  | .xHi i => s.writeX i (withHigh (s.readX i) w)
  | .manLo j => s.writeQ j { s.readQ j with man := withLow (s.readQ j).man w }
  | .manHi j => s.writeQ j { s.readQ j with man := withHigh (s.readQ j).man w }
  | .metaWd j => s.writeQ j ((s.readQ j).withMeta w)
  | .ctrl => if w.getLsbD 0 then s.resetUnit else s
  | .cmd => s
  | .status => s
  | .fcmd => s
  | .id => s
  | .reserved => s

/-! ## Bytes -/

/-- Byte `k` of a word: bits 8k+7:8k (spec/20_memory.md R54). -/
def byteOfWord (w : Word64) (k : Nat) : Byte := w.extractLsb' (8 * k) 8

/-- The eight bytes of a word, the lowest address first (spec/20_memory.md R54). -/
def bytesOfWord (w : Word64) : List Byte :=
  [byteOfWord w 0, byteOfWord w 1, byteOfWord w 2, byteOfWord w 3,
   byteOfWord w 4, byteOfWord w 5, byteOfWord w 6, byteOfWord w 7]

/-- The number a little-endian byte list stands for (spec/20_memory.md R54). -/
def natOfBytes : List Byte → Nat
  | [] => 0
  | b :: bs => b.toNat + 256 * natOfBytes bs

/-- The word a little-endian byte list stands for. -/
def wordOfBytes (bs : List Byte) : Word64 := BitVec.ofNat 64 (natOfBytes bs)

/-- The byte of the window at a byte offset, as a host bus presents it (spec/20_memory.md R54). -/
def State.windowByte (s : State) (off : Nat) : Byte :=
  byteOfWord (s.readWindow (BitVec.ofNat 7 (off / 8))) (off % 8)

end Sys2Proof.Machine
end

