-- ==== Sys2Proof/Machine/Port.lean ====
section
/-! DEFINITION. What the unit does with what reaches it from outside: commands written to CMD, port requests, bus
accesses and the rst pin (spec/20_memory.md R50 to R57). -/

namespace Sys2Proof.Machine

/-- The command index advances by one per delivered command, "whether the command executes, faults or is ignored"
(spec/10_state.md R20). -/
def State.countCommand (s : State) : State := { s with cmdIndex := s.cmdIndex + 1 }

/-- The port's outputs after an access. -/
def State.respond (s : State) (r : Response) : State := { s with response := r }

/-- `ready`: the current access has completed (spec/20_memory.md R50). -/
def State.ready (s : State) : Bool := s.response != .idle

/-- Deliver one command word to the executor: a word that is no command raises ILLEGAL_CMD before any operand is read
(spec/30_encoding.md R76, R77; spec/60_exceptions.md R222), unless the unit is halted, when every word is discarded
(spec/10_state.md R32). -/
def State.deliver (s : State) (w : CmdWord) : Host.Outcome State Fault Refusal :=
  match decode w with
  | .ok i => exec i s.countCommand
  | .error _ => .next (if s.halted then s.countCommand else s.countCommand.raiseFault .illegalCmd w)

/-- A write at the port: a write to CMD delivers its bits 31:0, bits 63:32 ignored; any other word is written as the
window map says (spec/20_memory.md R52, R55). -/
def State.portWrite (s : State) (addr : WordIndex) (w : Word64) : Host.Outcome State Fault Refusal :=
  match windowReg addr with
  | .cmd => (s.respond .written).deliver (w.extractLsb' 0 32)
  | r => .next ((s.respond .written).writeReg w r)

/-- A read at the port: `rdata` is the word, nothing else changes (spec/20_memory.md R55). -/
def State.portRead (s : State) (addr : WordIndex) : Host.Outcome State Fault Refusal :=
  .next (s.respond (.readData (s.readWindow addr)))

/-- The unit idle: no access, all state kept (spec/60_exceptions.md R229, spec/70_reset_and_hazards.md R241;
notes/assumptions/11.md). -/
def State.idle (s : State) : Host.Outcome State Fault Refusal := .next (s.respond .idle)

/-- One request at the port (spec/20_memory.md R50): with both `wr` and `rd` it is outside the protocol and refused. -/
def State.servePort (s : State) (r : PortRequest) : Host.Outcome State Fault Refusal :=
  match r.wr, r.rd with
  | true, true => .refused .readAndWrite
  | true, false => s.portWrite r.addr r.wdata
  | false, true => s.portRead r.addr
  | false, false => s.idle

/-- The number of bytes of a bus access. -/
def busSize : BusOp → Nat
  | .read n => n
  | .write bytes => bytes.length

/-- The port request a bus access of one whole word makes (spec/20_memory.md R54, R55). -/
def busRequest (addr : WordIndex) : BusOp → PortRequest
  | .read _ => { addr := addr, wr := false, rd := true, wdata := 0 }
  | .write bytes => { addr := addr, wr := true, rd := false, wdata := wordOfBytes bytes }

/-- All the bytes of the access lie in the window of 1024 bytes at `base` (spec/20_memory.md R51). -/
def busInside (base : Nat) (a : BusAccess) : Bool :=
  decide (base ≤ a.addr) && decide (a.addr + busSize a.op ≤ base + Config.windowBytes)

/-- The access is one whole, aligned 64-bit word (spec/20_memory.md R55). -/
def busOneWord (a : BusAccess) : Bool := busSize a.op == 8 && a.addr % 8 == 0

/-- The word index a bus address of the window names (spec/20_memory.md R50, R51). -/
def busIndex (base : Nat) (a : BusAccess) : WordIndex := BitVec.ofNat 7 ((a.addr - base) / 8)

/-- One access of the host's bus, the window at `base`: anything but one whole aligned 64-bit word is refused, wherever
it lies (spec/00_scope.md R7 `BRIDGE`, spec/20_memory.md R55; notes/assumptions/5.md); a word outside the window has no
address in the unit (spec/20_memory.md R51; notes/assumptions/10.md). -/
def State.serveBusAt (s : State) (base : Nat) (a : BusAccess) : Host.Outcome State Fault Refusal :=
  if !busOneWord a then .refused .notOneAlignedWord
  else if !busInside base a then .fault .outsideWindow
  else s.servePort (busRequest (busIndex base a) a.op)

/-- One access of the host's bus, the window at `BASE` (spec/20_memory.md R51). -/
def State.serveBus (s : State) (a : BusAccess) : Host.Outcome State Fault Refusal := s.serveBusAt Config.base a

/-- A hardware reset: the rst pin has the effect of a soft reset, as one atomic step between accesses
(spec/70_reset_and_hazards.md R240; notes/assumptions 7, 14). -/
def State.serveRst (s : State) : Host.Outcome State Fault Refusal := .next (s.resetUnit.respond .idle)

/-- Serve one event of the host. -/
def State.serve (s : State) : HostEvent → Host.Outcome State Fault Refusal
  | .rst => s.serveRst
  | .port r => s.servePort r
  | .bus a => s.serveBus a

/-- The host's next event is taken, in arrival order (spec/20_memory.md R57); with none, the unit waits. -/
def State.serveNext (s : State) : Host.Outcome State Fault Refusal :=
  match s.inbox with
  | [] => s.idle
  | e :: rest => State.serve { s with inbox := rest } e

/-- The port request that writes a command word to CMD (spec/20_memory.md R52). -/
def cmdWrite (w : CmdWord) : HostEvent :=
  .port { addr := 0, wr := true, rd := false, wdata := w.setWidth 64 }

/-- The host delivers one event before all others. -/
def State.push (s : State) (e : HostEvent) : State := { s with inbox := e :: s.inbox }

/-- The command word that the table's number `w` of `nbits` bits stands for, the bits above `nbits` zero
(spec/30_encoding.md R70). -/
def tableWord (nbits w : Nat) : CmdWord := BitVec.ofNat 32 (w % 2 ^ nbits)

end Sys2Proof.Machine
end

