-- ==== Sys2Proof/Machine/Step.lean ====
section
/-! DEFINITION. One step: the unit serves the host's next event (spec/20_memory.md R57). -/

namespace Sys2Proof.Machine

/-- One step of the machine: one host event, complete before the next (spec/20_memory.md R55, R57). -/
def step (s : State) : Host.Outcome State Fault Refusal := s.serveNext

/-- The state whose next event is the write of the given instruction to CMD. The unit fetches nothing: a command is
delivered by that write, so this is the host's delivery (spec/20_memory.md R59, notes/assumptions/1.md). -/
def State.withFetchWord (s : State) (nbits w : Nat) : State := s.push (cmdWrite (tableWord nbits w))

end Sys2Proof.Machine
end

