-- ==== Sys2Proof/Machine/Assembler.lean ====
section
/-! DEFINITION. The assembler syntax (spec/30_encoding.md R80) and the pseudo-instructions' expansions (R81). The unit
executes words: nothing here is part of a step. Lexical points R80 leaves open are in notes/assumptions/15.md. -/

namespace Sys2Proof.Machine

/-! ## Pseudo-instructions -/

/-- Bits 31:16 of an LDI32 value (spec/30_encoding.md R81). -/
def upper16 (v : BitVec 32) : BitVec 16 := v.extractLsb' 16 16

/-- Bits 15:0 of an LDI32 value (spec/30_encoding.md R81). -/
def lower16 (v : BitVec 32) : BitVec 16 := v.extractLsb' 0 16

/-- The commands that replace a pseudo-instruction (spec/30_encoding.md R81). -/
def expand : Pseudo → List Instr
  | .clr d => [.ldi d 0]
  | .ldi32 d v => [.ldi d (upper16 v), .shl d d 16, .ldi 15 (lower16 v), .or d d 15]
  | .qclr d z => [.qfromu d z]

/-! ## Tokens -/

/-- A number in decimal. -/
def decimal (n : Nat) : List Char := Nat.toDigits 10 n

/-- `x0` to `x15`. -/
def xName (r : XReg) : List Char := 'x' :: decimal r.val

/-- `q0` to `q7`. -/
def qName (r : QReg) : List Char := 'q' :: decimal r.val

/-- The X register a token names. -/
def readXName (t : List Char) : Option XReg := (List.finRange 16).find? fun r => xName r == t

/-- The Q register a token names. -/
def readQName (t : List Char) : Option QReg := (List.finRange 8).find? fun r => qName r == t

/-- The value of a digit, of the decimal or of the hexadecimal digits. -/
def digitValue (c : Char) : Option Nat :=
  let n := c.toNat
  if 48 ≤ n ∧ n ≤ 57 then some (n - 48)
  else if 97 ≤ n ∧ n ≤ 102 then some (n - 87)
  else if 65 ≤ n ∧ n ≤ 70 then some (n - 55)
  else none

/-- One more digit of a number read so far. -/
def addDigit (base : Nat) (acc : Option Nat) (c : Char) : Option Nat :=
  match acc, digitValue c with
  | some n, some v => if v < base then some (n * base + v) else none
  | _, _ => none

/-- A number written with at least one digit of the base. -/
def readDigits (base : Nat) : List Char → Option Nat
  | [] => none
  | t => t.foldl (addDigit base) (some 0)

/-- A number in decimal or with a `0x` prefix (spec/30_encoding.md R80). -/
def readNumber : List Char → Option Nat
  | '0' :: 'x' :: t => readDigits 16 t
  | t => readDigits 10 t

/-- A number below the bound. -/
def readBelow (bound : Nat) (t : List Char) : Option Nat :=
  (readNumber t).bind fun n => if n < bound then some n else none

/-- A space or a tab. -/
def isBlank (c : Char) : Bool := c == ' ' || c == '\t'

/-- The token without the blanks around it. -/
def trimBlanks (t : List Char) : List Char := ((t.dropWhile isBlank).reverse.dropWhile isBlank).reverse

/-- The tokens between commas. -/
def splitCommas : List Char → List (List Char)
  | [] => [[]]
  | c :: t =>
    if c == ',' then [] :: splitCommas t
    else
      match splitCommas t with
      | [] => [[c]]
      | u :: us => (c :: u) :: us

/-- A lower-case letter in upper case; mnemonics are case-insensitive (spec/30_encoding.md R80). -/
def upperChar (c : Char) : Char := if 97 ≤ c.toNat ∧ c.toNat ≤ 122 then Char.ofNat (c.toNat - 32) else c

/-! ## Lines -/

/-- The operand forms of spec/30_encoding.md R80, with the command each makes. -/
inductive AsmForm where
  | none (i : Instr)
  | xxx (mk : XReg → XReg → XReg → Instr)
  | xx (mk : XReg → XReg → Instr)
  | ximm (mk : XReg → BitVec 16 → Instr)
  | xxn (mk : XReg → XReg → BitVec 8 → Instr)
  | qqq (mk : QReg → QReg → QReg → Instr)
  | qq (mk : QReg → QReg → Instr)
  | qx (mk : QReg → XReg → Instr)
  | qqn (mk : QReg → QReg → BitVec 8 → Instr)

/-- The mnemonics and their forms (spec/30_encoding.md R75, R80). -/
def asmTable : List (String × AsmForm) := [
  ("NOP", .none .nop), ("ADD", .xxx .add), ("SUB", .xxx .sub), ("AND", .xxx .and), ("OR", .xxx .or),
  ("XOR", .xxx .xor), ("NOT", .xx .not), ("MOV", .xx .mov), ("LDI", .ximm .ldi), ("ZEXT64", .xx .zext64),
  ("MUL64", .xxx .mul64), ("MULW", .xxx .mulw), ("MUL128", .xxx .mul128), ("MULHI", .xxx .mulhi),
  ("SHL", .xxn .shl), ("SHR", .xxn .shr), ("SHRMSB", .xx .shrmsb), ("NORM", .xx .norm),
  ("QADD", .qqq .qadd), ("QSUB", .qqq .qsub), ("QMUL", .qqq .qmul), ("QNEG", .qq .qneg), ("QABS", .qq .qabs),
  ("QTRUNC", .qq .qtrunc), ("QFLOOR", .qq .qfloor), ("QCEIL", .qq .qceil), ("QROUND", .qq .qround),
  ("QFROMU", .qx .qfromu), ("QFROMS", .qx .qfroms), ("QSETSIG", .qqn .qsetsig)]

/-- The command of a form with its operand tokens, destination first (spec/30_encoding.md R80). A QSETSIG count is at
most 128 (R77). -/
def readOperands : AsmForm → List (List Char) → Option Instr
  | .none i, [] => some i
  | .xxx mk, [d, a, b] => do some (mk (← readXName d) (← readXName a) (← readXName b))
  | .xx mk, [d, a] => do some (mk (← readXName d) (← readXName a))
  | .ximm mk, [d, v] => do some (mk (← readXName d) (BitVec.ofNat 16 (← readBelow 65536 v)))
  | .xxn mk, [d, a, n] => do some (mk (← readXName d) (← readXName a) (BitVec.ofNat 8 (← readBelow 256 n)))
  | .qqq mk, [d, a, b] => do some (mk (← readQName d) (← readQName a) (← readQName b))
  | .qq mk, [d, a] => do some (mk (← readQName d) (← readQName a))
  | .qx mk, [d, a] => do some (mk (← readQName d) (← readXName a))
  | .qqn mk, [d, a, n] => do some (mk (← readQName d) (← readQName a) (BitVec.ofNat 8 (← readBelow 129 n)))
  | _, _ => none

/-- A pseudo-instruction with its operand tokens; `z` is the X register that holds 0 (spec/30_encoding.md R81). -/
def readPseudo (z : XReg) (m : List Char) (ops : List (List Char)) : Option Pseudo :=
  if m == "CLR".toList then
    match ops with
    | [d] => (readXName d).map .clr
    | _ => none
  else if m == "LDI32".toList then
    match ops with
    | [d, v] => do
      let r ← readXName d
      let n ← readBelow (2 ^ 32) v
      if r == 15 then none else some (.ldi32 r (BitVec.ofNat 32 n))
    | _ => none
  else if m == "QCLR".toList then
    match ops with
    | [d] => (readQName d).map fun r => .qclr r z
    | _ => none
  else none

/-- The operand tokens after the mnemonic: none, or the ones between commas (spec/30_encoding.md R80). -/
def operandTokens (t : List Char) : List (List Char) :=
  if (trimBlanks t).isEmpty then [] else (splitCommas t).map trimBlanks

/-- The commands one line of assembly stands for: one command, or a pseudo-instruction's expansion. -/
def readLine (z : XReg) (line : List Char) : Option (List Instr) :=
  let body := trimBlanks line
  let m := (body.takeWhile fun c => !isBlank c).map upperChar
  let ops := operandTokens (body.dropWhile fun c => !isBlank c)
  match asmTable.find? fun row => row.1.toList == m with
  | some row => (readOperands row.2 ops).map fun i => [i]
  | none => (readPseudo z m ops).map expand

/-- The command words of one line of assembly. -/
def assembleLine (z : XReg) (line : String) : Option (List CmdWord) :=
  (readLine z line.toList).map fun is => is.map encode

end Sys2Proof.Machine
end

