-- ==== Sys2Proof/Safety.lean ====
section
/-! DEFINITION. The terms claims are made in: the numbers of command words, the states a command leaves, the value of a
Quad, what a Quad result must be, which faults a command raises, the invariant of every state, and the end of a run.
Nothing here is part of a step. -/

namespace Sys2Proof.Machine

/-! ## Command words, as numbers (spec/30_encoding.md R71, R72) -/

/-- The word of format R3 with opcode `op`. -/
def numR3 (op d a b : Nat) : Nat := op * 2 ^ 24 + d * 2 ^ 20 + a * 2 ^ 16 + b * 2 ^ 12

/-- The word of format R2. -/
def numR2 (op d a : Nat) : Nat := op * 2 ^ 24 + d * 2 ^ 20 + a * 2 ^ 16

/-- The word of format RI. -/
def numRI (op d imm : Nat) : Nat := op * 2 ^ 24 + d * 2 ^ 20 + imm

/-- The word of format RS. -/
def numRS (op d a n : Nat) : Nat := op * 2 ^ 24 + d * 2 ^ 20 + a * 2 ^ 16 + n

/-- The word with the number decodes to the command. -/
def Decodes (w : Nat) (i : Instr) : Prop := decode (BitVec.ofNat 32 w) = .ok i

/-- The opcodes of the opcode map (spec/30_encoding.md R75). -/
def definedOpcodes : List Nat :=
  [0x00, 0x01, 0x02, 0x03, 0x04, 0x05, 0x06, 0x07, 0x08, 0x09, 0x10, 0x11, 0x12, 0x13, 0x18, 0x19, 0x1A, 0x1C,
   0x20, 0x21, 0x22, 0x23, 0x24, 0x28, 0x29, 0x2A, 0x2B, 0x30, 0x31, 0x34]

/-- The reserved opcodes, as R76 lists them. -/
def ReservedOpcode (op : Nat) : Prop :=
  (0x0A ≤ op ∧ op ≤ 0x0F) ∨ (0x14 ≤ op ∧ op ≤ 0x17) ∨ op = 0x1B ∨ (0x1D ≤ op ∧ op ≤ 0x1F) ∨
    (0x25 ≤ op ∧ op ≤ 0x27) ∨ (0x2C ≤ op ∧ op ≤ 0x2F) ∨ op = 0x32 ∨ op = 0x33 ∨ (0x35 ≤ op ∧ op ≤ 0xFF)

/-- A word of a defined opcode that R77 calls illegal, in R77's words: a bit its format marks 0 is 1, a Q-class field
holds 8 to 15, SHRMSB has a count other than 1, or QSETSIG has one above 128. `w` is the word's number. -/
def IllegalFields (w : Nat) : Prop :=
  let op := w / 2 ^ 24
  let d := w / 2 ^ 20 % 16
  let a := w / 2 ^ 16 % 16
  let b := w / 2 ^ 12 % 16
  if op = 0x00 then w % 2 ^ 24 ≠ 0
  else if op ∈ [0x01, 0x02, 0x03, 0x04, 0x05, 0x10, 0x11, 0x12, 0x13] then w % 2 ^ 12 ≠ 0
  else if op ∈ [0x06, 0x07, 0x09, 0x1C] then w % 2 ^ 16 ≠ 0
  else if op = 0x08 then a ≠ 0
  else if op ∈ [0x18, 0x19] then w / 2 ^ 8 % 2 ^ 8 ≠ 0
  else if op = 0x1A then w / 2 ^ 8 % 2 ^ 8 ≠ 0 ∨ w % 2 ^ 8 ≠ 1
  else if op ∈ [0x20, 0x21, 0x22] then w % 2 ^ 12 ≠ 0 ∨ 8 ≤ d ∨ 8 ≤ a ∨ 8 ≤ b
  else if op ∈ [0x23, 0x24, 0x28, 0x29, 0x2A, 0x2B] then w % 2 ^ 16 ≠ 0 ∨ 8 ≤ d ∨ 8 ≤ a
  else if op ∈ [0x30, 0x31] then w % 2 ^ 16 ≠ 0 ∨ 8 ≤ d
  else w / 2 ^ 8 % 2 ^ 8 ≠ 0 ∨ 8 ≤ d ∨ 8 ≤ a ∨ 128 < w % 2 ^ 8

/-! ## The states a command leaves -/

/-- `s` after a command of word `w` that writes `v` to X[d] and nothing else but LASTCMD. -/
def State.doneX (s : State) (d : XReg) (v : U128) (w : Nat) : State :=
  { s with x := s.x.set d.val v, lastcmd := BitVec.ofNat 64 w }

/-- `s` after a command of word `w` that writes `v` to X[d] and `c` to OVF. -/
def State.doneXOvf (s : State) (d : XReg) (v : U128) (c : Bool) (w : Nat) : State :=
  { s with x := s.x.set d.val v, status := { s.status with ovf := c }, lastcmd := BitVec.ofNat 64 w }

/-- `s` after a Q command of word `w` that writes `r` to Q[d] and the four Q status bits. -/
def State.doneQ (s : State) (d : QReg) (r : QResult) (w : Nat) : State :=
  { s with
    q := s.q.set d.val r.val
    status := { s.status with qof := r.flags.qof, quf := r.flags.quf, qnv := r.flags.qnv, qcut := r.flags.qcut }
    lastcmd := BitVec.ofNat 64 w }

/-- `s` after a command of word `w` that raises a fault (spec/60_exceptions.md R221). -/
def State.faulted (s : State) (c : Cause) (w : Nat) : State :=
  { s with status := { s.status with fault := true, cause := c }, fcmd := BitVec.ofNat 64 w }

/-! ## Quad values (spec/43_quad_arith.md R160, spec/00_scope.md R11) -/

/-- The value classes of R160. -/
inductive QuadClass where
  | zero
  | finite
  | inf
  | nan
  deriving DecidableEq, Repr

/-- The class of a valid Quad (R160). -/
def Quad.cls (p : Params) (q : Quad) : QuadClass :=
  if q.exp = p.emin then .zero
  else if q.exp = p.emax then (if q.man.toNat = 2 ^ 127 then .inf else .nan)
  else .finite

/-- `man * 2^(exp-128)`. -/
def Quad.mag (q : Quad) : ℚ := (q.man.toNat : ℚ) * (2 : ℚ) ^ (q.exp.toInt - 128)

/-- `value(q)` of a zero or finite Quad (R11). -/
def Quad.value (p : Params) (q : Quad) : ℚ :=
  if q.exp = p.emin then 0 else if q.neg then -q.mag else q.mag

/-- A result with no Q status bit set. -/
def QResult.quiet (q : Quad) : QResult :=
  { val := q, flags := { qof := false, quf := false, qnv := false, qcut := false } }

/-- The zero with budget `s` (R162). -/
def theZero (p : Params) (s : BitVec 8) : Quad := { neg := false, exp := p.emin, man := BitVec.ofNat 128 0, sig := s }

/-- The infinity of sign `n` with budget `s` (R162). -/
def theInf (p : Params) (n : Bool) (s : BitVec 8) : Quad :=
  { neg := n, exp := p.emax, man := BitVec.ofNat 128 (2 ^ 127), sig := s }

/-- The canonical NaN with budget `s` (R162). -/
def theNaN (p : Params) (s : BitVec 8) : Quad := { neg := false, exp := p.emax, man := BitVec.ofNat 128 0, sig := s }

/-- The NaN of a domain error, with QNV (spec/10_state.md R27). -/
def invalidResult (p : Params) (s : BitVec 8) : QResult :=
  { val := theNaN p s, flags := { qof := false, quf := false, qnv := true, qcut := false } }

/-- The smaller of two budgets (R163). -/
def leastSig (a b : Quad) : BitVec 8 := BitVec.ofNat 8 (min a.sig.toNat b.sig.toNat)

/-- `a` negated where that has a meaning: a finite or infinite Quad (R170). -/
def negated (p : Params) (a : Quad) : Quad :=
  match a.cls p with
  | .finite | .inf => { a with neg := !a.neg }
  | .zero | .nan => a

/-- `r` is the value of sign `n`, exponent `e` and mantissa `m` with budget `s`, saturated as R165 says; `cut` is
QCUT. -/
def SaturatesTo (p : Params) (n : Bool) (e : Int) (m : U128) (s : BitVec 8) (cut : Bool) (r : QResult) : Prop :=
  if p.emax.toInt ≤ e then
    r = { val := theInf p n s, flags := { qof := true, quf := false, qnv := false, qcut := false } }
  else if e ≤ p.emin.toInt then
    r = { val := theZero p s, flags := { qof := false, quf := true, qnv := false, qcut := false } }
  else
    r = { val := { neg := n, exp := BitVec.ofInt 16 e, man := m, sig := s },
          flags := { qof := false, quf := false, qnv := false, qcut := cut } }

/-- `r` is what QADD leaves for two finite operands (spec/43_quad_arith.md R164 to R168), in terms of the exact sum.
Equal signs: the exact magnitude truncated to 128 bits. Opposite signs: zero if they cancel, else the exact magnitude
rounded up to a multiple of the larger exponent's unit, since the aligner truncates the magnitude subtracted. QCUT says
that the exponents differ by more than 128. -/
def IsFiniteSum (p : Params) (a b : Quad) (r : QResult) : Prop :=
  let s := leastSig a b
  let v := a.value p + b.value p
  let top := max a.exp.toInt b.exp.toInt
  let cut := decide (128 < |a.exp.toInt - b.exp.toInt|)
  if a.neg = b.neg then
    ∃ (e : Int) (m : U128), 2 ^ 127 ≤ m.toNat ∧ (m.toNat : Int) = ⌊|v| / (2 : ℚ) ^ (e - 128)⌋ ∧
      SaturatesTo p a.neg e m s cut r
  else if v = 0 then r = .quiet (theZero p s)
  else
    ∃ (e : Int) (m : U128), 2 ^ 127 ≤ m.toNat ∧
      (m.toNat : ℚ) * (2 : ℚ) ^ (e - 128) = (⌈|v| / (2 : ℚ) ^ (top - 128)⌉ : ℚ) * (2 : ℚ) ^ (top - 128) ∧
      SaturatesTo p (decide (v < 0)) e m s cut r

/-- `r` is what QADD leaves for valid operands, class by class (spec/43_quad_arith.md R168). -/
def IsSum (p : Params) (a b : Quad) (r : QResult) : Prop :=
  let s := leastSig a b
  match a.cls p, b.cls p with
  | .nan, _ => r = .quiet (theNaN p s)
  | _, .nan => r = .quiet (theNaN p s)
  | .inf, .inf => r = if a.neg = b.neg then .quiet (theInf p a.neg s) else invalidResult p s
  | .inf, _ => r = .quiet (theInf p a.neg s)
  | _, .inf => r = .quiet (theInf p b.neg s)
  | .zero, .zero => r = .quiet (theZero p s)
  | .finite, .zero => r = .quiet { a with sig := s }
  | .zero, .finite => r = .quiet { b with sig := s }
  | .finite, .finite => IsFiniteSum p a b r

/-- `r` of MULHI in plain numbers (spec/41_u128_multiply.md R123). -/
def highProduct (crossCarry : Bool) (a b : Nat) : Nat :=
  let phh := (a / 2 ^ 64) * (b / 2 ^ 64)
  let phl := (a / 2 ^ 64) * (b % 2 ^ 64)
  let plh := (a % 2 ^ 64) * (b / 2 ^ 64)
  if crossCarry then (phh * 2 ^ 64 + phl + plh) / 2 ^ 64 else phh + phl / 2 ^ 64 + plh / 2 ^ 64

/-- `r` is what QMUL leaves for two finite operands (spec/43_quad_arith.md R171): MULHI's product, normalised by 0 or 1
position. Its magnitude is the exact product truncated, below it by less than 2 units of the product before
normalisation, 3 without the cross carry. -/
def IsFiniteProduct (p : Params) (a b : Quad) (r : QResult) : Prop :=
  let v := a.mag * b.mag
  let top := a.exp.toInt + b.exp.toInt
  ∃ (k : Nat) (m : U128), k ≤ 1 ∧ 2 ^ 127 ≤ m.toNat ∧
    m.toNat = highProduct p.crossCarry a.man.toNat b.man.toNat * 2 ^ k ∧
    (m.toNat : ℚ) * (2 : ℚ) ^ (top - k - 128) ≤ v ∧
    v < (m.toNat : ℚ) * (2 : ℚ) ^ (top - k - 128) + (if p.crossCarry then 2 else 3) * (2 : ℚ) ^ (top - 128) ∧
    SaturatesTo p (a.neg != b.neg) (top - k) m (leastSig a b) false r

/-- `r` is what QMUL leaves for valid operands, class by class (spec/43_quad_arith.md R171). -/
def IsProduct (p : Params) (a b : Quad) (r : QResult) : Prop :=
  let s := leastSig a b
  match a.cls p, b.cls p with
  | .nan, _ => r = .quiet (theNaN p s)
  | _, .nan => r = .quiet (theNaN p s)
  | .zero, .inf => r = invalidResult p s
  | .inf, .zero => r = invalidResult p s
  | .inf, _ => r = .quiet (theInf p (a.neg != b.neg) s)
  | _, .inf => r = .quiet (theInf p (a.neg != b.neg) s)
  | .zero, _ => r = .quiet (theZero p s)
  | _, .zero => r = .quiet (theZero p s)
  | .finite, .finite => IsFiniteProduct p a b r

/-- `k` is `v` rounded in the mode (spec/44_quad_round_convert.md R190 to R194): toward zero, down, up, or to the
nearest integer with ties to even. -/
def RoundsTo (mode : RoundMode) (v : ℚ) (k : Int) : Prop :=
  match mode with
  | .trunc => k = if v < 0 then ⌈v⌉ else ⌊v⌋
  | .floor => k = ⌊v⌋
  | .ceil => k = ⌈v⌉
  | .round => |v - k| ≤ 1 / 2 ∧ (|v - k| = 1 / 2 → k % 2 = 0)

/-- `r` is what a rounding command leaves for a valid operand (spec/44_quad_round_convert.md R190). -/
def IsRounded (p : Params) (mode : RoundMode) (a r : Quad) : Prop :=
  match a.cls p with
  | .nan => r = theNaN p a.sig
  | .inf => r = a
  | .zero => r = a
  | .finite => r.valid p = true ∧ r.sig = a.sig ∧ (r.cls p = .zero ∨ (r.cls p = .finite ∧ r.neg = a.neg)) ∧
      ∃ k : Int, r.value p = k ∧ RoundsTo mode (a.value p) k

/-- `r` is the Quad of an integer, with budget 128 (spec/44_quad_round_convert.md R195, R196). -/
def IsInteger (p : Params) (k : Int) (r : Quad) : Prop :=
  if k = 0 then r = theZero p 128#8
  else r.cls p = .finite ∧ r.valid p = true ∧ r.sig = 128#8 ∧ r.neg = decide (k < 0) ∧ r.value p = k ∧
    1 ≤ r.exp.toInt ∧ r.exp.toInt ≤ 128

/-! ## Faults and destinations -/

/-- The fault a command raises on an unhalted unit, none if it completes (spec/60_exceptions.md R220, R222): QSETSIG
with an illegal count, then an invalid Q operand, then NORM of 0. -/
def faultOf (i : Instr) (s : State) : Cause :=
  let bad (j : QReg) : Bool := !(s.q[j.val]).valid s.params
  match i with
  | .nop | .add _ _ _ | .sub _ _ _ | .and _ _ _ | .or _ _ _ | .xor _ _ _ | .not _ _ | .mov _ _ | .ldi _ _
  | .zext64 _ _ | .mul64 _ _ _ | .mulw _ _ _ | .mul128 _ _ _ | .mulhi _ _ _ | .shl _ _ _ | .shr _ _ _
  | .shrmsb _ _ | .qfromu _ _ | .qfroms _ _ => .none
  | .norm _ a => if s.x[a.val] = BitVec.ofNat 128 0 then .normZero else .none
  | .qadd _ a b | .qsub _ a b | .qmul _ a b => if bad a || bad b then .badQuadOperand else .none
  | .qneg _ a | .qabs _ a | .qtrunc _ a | .qfloor _ a | .qceil _ a | .qround _ a =>
    if bad a then .badQuadOperand else .none
  | .qsetsig _ a n => if 128 < n.toNat then .illegalCmd else if bad a then .badQuadOperand else .none

/-- The X register a command writes, if any. -/
def xDest : Instr → Option XReg
  | .add d _ _ | .sub d _ _ | .and d _ _ | .or d _ _ | .xor d _ _ | .not d _ | .mov d _ | .ldi d _ | .zext64 d _
  | .mul64 d _ _ | .mulw d _ _ | .mul128 d _ _ | .mulhi d _ _ | .shl d _ _ | .shr d _ _ | .shrmsb d _
  | .norm d _ => some d
  | .nop | .qadd _ _ _ | .qsub _ _ _ | .qmul _ _ _ | .qneg _ _ | .qabs _ _ | .qtrunc _ _ | .qfloor _ _
  | .qceil _ _ | .qround _ _ | .qfromu _ _ | .qfroms _ _ | .qsetsig _ _ _ => none

/-- The Q register a command writes, if any. -/
def qDest : Instr → Option QReg
  | .qadd d _ _ | .qsub d _ _ | .qmul d _ _ | .qneg d _ | .qabs d _ | .qtrunc d _ | .qfloor d _ | .qceil d _
  | .qround d _ | .qfromu d _ | .qfroms d _ | .qsetsig d _ _ => some d
  | .nop | .add _ _ _ | .sub _ _ _ | .and _ _ _ | .or _ _ _ | .xor _ _ _ | .not _ _ | .mov _ _ | .ldi _ _
  | .zext64 _ _ | .mul64 _ _ _ | .mulw _ _ _ | .mul128 _ _ _ | .mulhi _ _ _ | .shl _ _ _ | .shr _ _ _
  | .shrmsb _ _ | .norm _ _ => none

/-- OVF after a command (spec/10_state.md R24): the carry of ADD, the borrow of SUB, the overflow of MULW and MUL128,
0 for MUL64 and MULHI, unchanged for every other command. -/
def ovfAfter (i : Instr) (s : State) : Bool :=
  match i with
  | .add _ a b => decide (2 ^ 128 ≤ s.x[a.val].toNat + s.x[b.val].toNat)
  | .sub _ a b => decide (s.x[a.val].toNat < s.x[b.val].toNat)
  | .mul64 _ _ _ => false
  | .mulw _ a b => decide (2 ^ 128 ≤ s.x[a.val].toNat * (s.x[b.val].toNat % 2 ^ 64))
  | .mul128 _ a b => decide (2 ^ 128 ≤ s.x[a.val].toNat * s.x[b.val].toNat)
  | .mulhi _ a b => (highProduct s.params.crossCarry s.x[a.val].toNat s.x[b.val].toNat).testBit 128
  | .nop | .and _ _ _ | .or _ _ _ | .xor _ _ _ | .not _ _ | .mov _ _ | .ldi _ _ | .zext64 _ _ | .shl _ _ _
  | .shr _ _ _ | .shrmsb _ _ | .norm _ _ | .qadd _ _ _ | .qsub _ _ _ | .qmul _ _ _ | .qneg _ _ | .qabs _ _
  | .qtrunc _ _ | .qfloor _ _ | .qceil _ _ | .qround _ _ | .qfromu _ _ | .qfroms _ _ | .qsetsig _ _ _ => s.status.ovf

/-- NORM, the one command that writes CNT (spec/10_state.md R26). -/
def isNorm : Instr → Bool
  | .norm _ _ => true
  | .nop | .add _ _ _ | .sub _ _ _ | .and _ _ _ | .or _ _ _ | .xor _ _ _ | .not _ _ | .mov _ _ | .ldi _ _
  | .zext64 _ _ | .mul64 _ _ _ | .mulw _ _ _ | .mul128 _ _ _ | .mulhi _ _ _ | .shl _ _ _ | .shr _ _ _
  | .shrmsb _ _ | .qadd _ _ _ | .qsub _ _ _ | .qmul _ _ _ | .qneg _ _ | .qabs _ _ | .qtrunc _ _ | .qfloor _ _
  | .qceil _ _ | .qround _ _ | .qfromu _ _ | .qfroms _ _ | .qsetsig _ _ _ => false

/-- The second operand of QADD as it stands, of QSUB negated; none for any other command. -/
def addends : Instr → State → Option (Quad × Quad)
  | .qadd _ a b, s => some (s.q[a.val], s.q[b.val])
  | .qsub _ a b, s => some (s.q[a.val], negated s.params s.q[b.val])
  | .nop, _ | .add _ _ _, _ | .sub _ _ _, _ | .and _ _ _, _ | .or _ _ _, _ | .xor _ _ _, _ | .not _ _, _
  | .mov _ _, _ | .ldi _ _, _ | .zext64 _ _, _ | .mul64 _ _ _, _ | .mulw _ _ _, _ | .mul128 _ _ _, _
  | .mulhi _ _ _, _ | .shl _ _ _, _ | .shr _ _ _, _ | .shrmsb _ _, _ | .norm _ _, _ | .qmul _ _ _, _
  | .qneg _ _, _ | .qabs _ _, _ | .qtrunc _ _, _ | .qfloor _ _, _ | .qceil _ _, _ | .qround _ _, _
  | .qfromu _ _, _ | .qfroms _ _, _ | .qsetsig _ _ _, _ => none

/-- The budget of a Q command's result (spec/43_quad_arith.md R163): the minimum of two operands' budgets, the one
operand's budget, 128 for a constructed value, the count of QSETSIG; none for a U128 command. -/
def sigOf : Instr → State → Option (BitVec 8)
  | .qadd _ a b, s | .qsub _ a b, s | .qmul _ a b, s => some (leastSig s.q[a.val] s.q[b.val])
  | .qneg _ a, s | .qabs _ a, s | .qtrunc _ a, s | .qfloor _ a, s | .qceil _ a, s | .qround _ a, s =>
    some (s.q[a.val]).sig
  | .qfromu _ _, _ | .qfroms _ _, _ => some 128#8
  | .qsetsig _ _ n, _ => some n
  | .nop, _ | .add _ _ _, _ | .sub _ _ _, _ | .and _ _ _, _ | .or _ _ _, _ | .xor _ _ _, _ | .not _ _, _
  | .mov _ _, _ | .ldi _ _, _ | .zext64 _ _, _ | .mul64 _ _ _, _ | .mulw _ _ _, _ | .mul128 _ _ _, _
  | .mulhi _ _ _, _ | .shl _ _ _, _ | .shr _ _ _, _ | .shrmsb _ _, _ | .norm _ _, _ => none

/-- The byte of the window belongs to X[d] (spec/20_memory.md R52). -/
def XBytes (d : XReg) (off : Nat) : Prop := 0x100 + 16 * d.val ≤ off ∧ off < 0x100 + 16 * d.val + 16

/-- The byte of the window belongs to Q[d]'s mantissa or meta word (spec/20_memory.md R52). -/
def QBytes (d : QReg) (off : Nat) : Prop := 0x200 + 32 * d.val ≤ off ∧ off < 0x200 + 32 * d.val + 24

/-! ## What the host delivers -/

/-- The port request that writes `w` at the word index. -/
def hostWrite (addr : WordIndex) (w : Word64) : HostEvent := .port { addr := addr, wr := true, rd := false, wdata := w }

/-- The port request that reads the word index. -/
def hostRead (addr : WordIndex) (w : Word64) : HostEvent := .port { addr := addr, wr := false, rd := true, wdata := w }

/-- A read of the word index gives `v` and changes nothing but the port's output. -/
def Reads (s : State) (addr : Nat) (v : Word64) : Prop :=
  ∀ (wd : Word64) (rest : List HostEvent),
    step { s with inbox := hostRead (BitVec.ofNat 7 addr) wd :: rest } =
      .next { s with inbox := rest, response := .readData v }

/-- A write of `w` at the word index leaves `t`, the port's output apart. -/
def Writes (s : State) (addr : Nat) (w : Word64) (t : State) : Prop :=
  ∀ rest : List HostEvent,
    step { s with inbox := hostWrite (BitVec.ofNat 7 addr) w :: rest } =
      .next { t with inbox := rest, response := .written }

/-- `s` when the write of a command word to CMD has taken the event and left `rest`, before the command's own effect. -/
def State.delivered (s : State) (rest : List HostEvent) : State :=
  { s with inbox := rest, cmdIndex := s.cmdIndex + 1, response := .written }

/-- Every register holds the reset value of spec/10_state.md R33 for the parameters. -/
def HasResetValues (p : Params) (t : State) : Prop :=
  (∀ i : XReg, t.x[i.val] = BitVec.ofNat 128 0) ∧ (∀ j : QReg, t.q[j.val] = theZero p 128#8) ∧
    t.status = { ovf := false, qof := false, quf := false, qnv := false, qcut := false, fault := false,
                 cause := .none, cnt := 0#8 } ∧
    t.fcmd = 0#64 ∧ t.lastcmd = 0#64 ∧ t.readWindow 3 = 0x0000000155313238#64

/-- The event delivers a command: a port request that writes CMD, or a bus access that makes one. -/
def DeliversCommand : HostEvent → Prop
  | .rst => False
  | .port r => r.addr = 0 ∧ r.wr = true ∧ r.rd = false
  | .bus a => a.addr = Config.base ∧ ∃ bytes, a.op = .write bytes ∧ bytes.length = 8

/-- The event resets the unit: the rst pin, or a write of CTRL with bit 0 = 1 at the port or through the bus. -/
def ResetsUnit : HostEvent → Prop
  | .rst => True
  | .port r => r.addr = 4 ∧ r.wr = true ∧ r.rd = false ∧ r.wdata.getLsbD 0 = true
  | .bus a => a.addr = Config.base + 32 ∧
      ∃ bytes, a.op = .write bytes ∧ bytes.length = 8 ∧ (wordOfBytes bytes).getLsbD 0 = true

/-! ## Assembly text (spec/30_encoding.md R80) -/

/-- The operands of a line, separated by a comma and a space. -/
def joinOperands : List (List Char) → List Char
  | [] => []
  | [t] => t
  | t :: ts => t ++ ',' :: ' ' :: joinOperands ts

/-- A mnemonic and its operands. -/
def asmLine (m : String) (ops : List (List Char)) : List Char := m.toList ++ ' ' :: joinOperands ops

/-- A command as R80 writes it, its numbers in decimal. -/
def asmText : Instr → List Char
  | .nop => "NOP".toList
  | .add d a b => asmLine "ADD" [xName d, xName a, xName b]
  | .sub d a b => asmLine "SUB" [xName d, xName a, xName b]
  | .and d a b => asmLine "AND" [xName d, xName a, xName b]
  | .or d a b => asmLine "OR" [xName d, xName a, xName b]
  | .xor d a b => asmLine "XOR" [xName d, xName a, xName b]
  | .not d a => asmLine "NOT" [xName d, xName a]
  | .mov d a => asmLine "MOV" [xName d, xName a]
  | .ldi d imm => asmLine "LDI" [xName d, decimal imm.toNat]
  | .zext64 d a => asmLine "ZEXT64" [xName d, xName a]
  | .mul64 d a b => asmLine "MUL64" [xName d, xName a, xName b]
  | .mulw d a b => asmLine "MULW" [xName d, xName a, xName b]
  | .mul128 d a b => asmLine "MUL128" [xName d, xName a, xName b]
  | .mulhi d a b => asmLine "MULHI" [xName d, xName a, xName b]
  | .shl d a n => asmLine "SHL" [xName d, xName a, decimal n.toNat]
  | .shr d a n => asmLine "SHR" [xName d, xName a, decimal n.toNat]
  | .shrmsb d a => asmLine "SHRMSB" [xName d, xName a]
  | .norm d a => asmLine "NORM" [xName d, xName a]
  | .qadd d a b => asmLine "QADD" [qName d, qName a, qName b]
  | .qsub d a b => asmLine "QSUB" [qName d, qName a, qName b]
  | .qmul d a b => asmLine "QMUL" [qName d, qName a, qName b]
  | .qneg d a => asmLine "QNEG" [qName d, qName a]
  | .qabs d a => asmLine "QABS" [qName d, qName a]
  | .qtrunc d a => asmLine "QTRUNC" [qName d, qName a]
  | .qfloor d a => asmLine "QFLOOR" [qName d, qName a]
  | .qceil d a => asmLine "QCEIL" [qName d, qName a]
  | .qround d a => asmLine "QROUND" [qName d, qName a]
  | .qfromu d a => asmLine "QFROMU" [qName d, xName a]
  | .qfroms d a => asmLine "QFROMS" [qName d, xName a]
  | .qsetsig d a n => asmLine "QSETSIG" [qName d, qName a, decimal n.toNat]

/-! ## The invariant and the end of a run -/

/-- What holds of the unit in every state a run reaches, and is kept by every step: the parameters meet R7's
constraints, CNT is a legal count (spec/10_state.md R23, R26), FAULT is set exactly when CAUSE is not NONE (R25), FCMD is
0 while there is no fault (R28), FCMD and LASTCMD read 0 in bits 63:32 (R28, R29), and LASTCMD holds the word of a
command (R29). -/
def State.Inv (s : State) : Prop :=
  s.params.wf ∧ s.status.cnt.toNat ≤ 127 ∧ (s.status.fault = true ↔ s.status.cause ≠ .none) ∧
    (s.status.fault = false → s.fcmd = 0) ∧ s.fcmd.toNat < 2 ^ 32 ∧ s.lastcmd.toNat < 2 ^ 32 ∧
    ∃ i : Instr, i.wellFormed = true ∧ Decodes s.lastcmd.toNat i

/-- Every Q register holds a valid Quad (spec/43_quad_arith.md R161). -/
def State.QuadsValid (s : State) : Prop := ∀ j : QReg, (s.q[j.val]).valid s.params = true

/-- Run commands one after another. -/
def runCommands : List Instr → State → Host.Outcome State Fault Refusal
  | [], s => .next s
  | i :: is, s =>
    match exec i s with
    | .next t => runCommands is t
    | .fault r => .fault r
    | .refused r => .refused r

/-- A run of the host accesses a state holds, up to its end (spec/70_reset_and_hazards.md R247): its observation is
the state after the last access. -/
def State.endOfRun (s : State) : Host.Outcome State Fault Refusal := Sys2Proof.core.run s.inbox.length s

/-- The run faulted: its last state has FAULT = 1 (spec/70_reset_and_hazards.md R247). -/
def State.runFaulted (s : State) : Prop := ∃ t, s.endOfRun = .next t ∧ t.status.fault = true

end Sys2Proof.Machine
end

