-- ==== Sys2Proof/Certificates/Slice0/Obligations.lean ====
section
/-! DEFINITION. The statements for the provers, in the order of OBLIGATIONS.json: encoding, the machine around a command,
the register window, the U128 commands, the Quad commands, whole-machine rules, the assembler. -/

open Sys2Proof Sys2Proof.Machine

/-! ## Encoding -/

/-- Decoding the encoding of a legal command gives the command back, with every operand at every value. -/
def Obligations.EncodeThenDecodeGivesTheCommand : Prop :=
  ∀ i : Instr, i.wellFormed = true → decode (encode i) = .ok i

/-- A word that decodes is the encoding of what it decodes to, which is legal: no bit of a word is dropped, and no two
words are one command. -/
def Obligations.DecodedWordIsItsCommandsEncoding : Prop :=
  ∀ (w : CmdWord) (i : Instr), decode w = .ok i → encode i = w ∧ i.wellFormed = true

/-- R76: the listed opcodes are exactly those of no command; a word with one raises ILLEGAL_CMD when delivered. -/
def Obligations.ReservedOpcodesRaiseIllegalCommand : Prop :=
  ∀ w : CmdWord,
    (ReservedOpcode (w.toNat / 2 ^ 24) ↔ w.toNat / 2 ^ 24 ∉ definedOpcodes) ∧
    (ReservedOpcode (w.toNat / 2 ^ 24) →
      decode w = .error .reservedOpcode ∧
      ∀ (s : State) (rest : List HostEvent), s.inbox = hostWrite 0 (w.setWidth 64) :: rest →
        s.status.fault = false → step s = .next ((s.delivered rest).faulted .illegalCmd w.toNat))

/-- R77: a word of a defined opcode is illegal exactly when its fields are, in R77's words, and equivalently when no row
of the table matches it or its QSETSIG count is above 128; delivered, it raises ILLEGAL_CMD. -/
def Obligations.IllegalFieldsRaiseIllegalCommand : Prop :=
  ∀ w : CmdWord, w.toNat / 2 ^ 24 ∈ definedOpcodes →
    ((∃ e, decode w = .error e) ↔ IllegalFields w.toNat) ∧
    ((∃ i, decode w = .ok i) ↔
      ∃ r ∈ opRows, w &&& r.mask = r.pattern ∧ (r.mnemonic = "QSETSIG" → w.toNat % 2 ^ 8 ≤ 128)) ∧
    (IllegalFields w.toNat → ∀ (s : State) (rest : List HostEvent),
      s.inbox = hostWrite 0 (w.setWidth 64) :: rest → s.status.fault = false →
        step s = .next ((s.delivered rest).faulted .illegalCmd w.toNat))

/-- Words of the encoding vectors of spec/95_test_vectors.md section 2, and what they decode as. -/
def Obligations.SpecWordsDecodeAsTheSpecSays : Prop :=
  decode 0x00000000#32 = .ok .nop ∧ decode 0x0840FFFF#32 = .ok (.ldi 4 0xFFFF#16) ∧
  decode 0x01312000#32 = .ok (.add 3 1 2) ∧ decode 0x1A210001#32 = .ok (.shrmsb 2 1) ∧
  decode 0x18110070#32 = .ok (.shl 1 1 112#8) ∧ decode 0x30090000#32 = .ok (.qfromu 0 9) ∧
  decode 0x34210080#32 = .ok (.qsetsig 2 1 128#8) ∧ decode 0x34210081#32 = .error .illegalCount ∧
  decode 0x20800000#32 = .error .illegalField ∧ decode 0x0A000000#32 = .error .reservedOpcode

/-! ## The machine around a command -/

/-- When the host's next event is a write to CMD whose bits 31:0 decode to `i`, the step is `exec i` on the state that
has taken the event, whatever bits 63:32 are. -/
def Obligations.StepRunsTheDecodedCommand : Prop :=
  ∀ (s : State) (wd : Word64) (rest : List HostEvent) (i : Instr),
    s.inbox = hostWrite 0 wd :: rest → decode (BitVec.ofNat 32 wd.toNat) = .ok i →
      step s = exec i (s.delivered rest)

/-- The state `withFetchWord` makes runs the word it is given as its next step. -/
def Obligations.WithFetchWordRunsTheWordNext : Prop :=
  ∀ (s : State) (w : Nat) (i : Instr), decodeTableWord 32 w = some i →
    step (s.withFetchWord 32 w) = exec i (s.delivered s.inbox)

/-- A halted unit discards every command word, legal or not, with no effect but the count of delivered commands. -/
def Obligations.HaltedUnitDiscardsEveryCommand : Prop :=
  ∀ s : State, s.status.fault = true →
    (∀ i : Instr, exec i s = .next s) ∧
    ∀ (wd : Word64) (rest : List HostEvent), s.inbox = hostWrite 0 wd :: rest →
      step s = .next (s.delivered rest)

/-- R221: a command that faults leaves FAULT, CAUSE and FCMD, which holds the word as delivered, and nothing else; the
CMD write completes. -/
def Obligations.FaultWritesOnlyFaultCauseAndFcmd : Prop :=
  ∀ (s : State) (w : CmdWord) (rest : List HostEvent),
    s.inbox = hostWrite 0 (w.setWidth 64) :: rest → s.status.fault = false →
      (∀ i : Instr, decode w = .ok i → faultOf i (s.delivered rest) ≠ .none →
        step s = .next ((s.delivered rest).faulted (faultOf i (s.delivered rest)) w.toNat)) ∧
      (∀ e : DecodeError, decode w = .error e →
        step s = .next ((s.delivered rest).faulted .illegalCmd w.toNat))

/-- Every command answers a next state on an unhalted unit: it raises the fault that R220 and R222 give it, or completes
with no fault, LASTCMD holding its word and FCMD unchanged. -/
def Obligations.CommandsFaultExactlyAsListed : Prop :=
  ∀ (i : Instr) (s : State), s.status.fault = false →
    (faultOf i s ≠ .none → exec i s = .next (s.faulted (faultOf i s) (encode i).toNat)) ∧
    (faultOf i s = .none → ∃ t, exec i s = .next t ∧ t.status.fault = false ∧ t.status.cause = s.status.cause ∧
      t.fcmd = s.fcmd ∧ t.lastcmd = BitVec.ofNat 64 (encode i).toNat)

/-- R33: after a hardware reset, after a soft reset and in the model's reset state, every piece of state holds the value
of the table, and the Q meta words read 0x80008000 with the default EMIN. -/
def Obligations.ResetGivesTheTableOfResetValues : Prop :=
  HasResetValues Config.defaultParams State.reset ∧
  (∀ j : QReg, State.reset.readWindow (BitVec.ofNat 7 (66 + 4 * j.val)) = 0x0000000080008000#64) ∧
  ∀ (s : State) (rest : List HostEvent),
    (s.inbox = .rst :: rest → ∃ t, step s = .next t ∧ HasResetValues s.params t) ∧
    (∀ wd : Word64, s.inbox = hostWrite 4 wd :: rest → wd.toNat % 2 = 1 →
      ∃ t, step s = .next t ∧ HasResetValues s.params t)

/-- R31: a CTRL write with bit 0 = 1 is a soft reset and one with bit 0 = 0 has no effect, bits 63:1 ignored; CTRL reads
as 0; all of it halted or not. -/
def Obligations.CtrlWriteResetsOnlyWhenBitZeroIsOne : Prop :=
  ∀ (s : State) (wd : Word64) (rest : List HostEvent),
    (s.inbox = hostWrite 4 wd :: rest →
      (wd.toNat % 2 = 1 → ∃ t, step s = .next t ∧ HasResetValues s.params t) ∧
      (wd.toNat % 2 = 0 → step s = .next { s with inbox := rest, response := .written })) ∧
    Reads s 4 0#64

/-- The invariant is kept by every step, whatever the host delivers. -/
def Obligations.EveryStepKeepsTheUnitInvariant : Prop :=
  ∀ s t : State, s.Inv → step s = .next t → t.Inv

/-- The invariant holds at reset. -/
def Obligations.ResetStateMeetsTheUnitInvariant : Prop :=
  State.reset.Inv

/-- FAULT, CAUSE and FCMD, once a fault is raised, stay as they are through every event but a reset, which clears them. -/
def Obligations.OnlyAResetLeavesTheHaltedCondition : Prop :=
  ∀ (s t : State) (e : HostEvent) (rest : List HostEvent),
    s.inbox = e :: rest → s.status.fault = true → step s = .next t →
      (¬ ResetsUnit e → t.status.fault = true ∧ t.status.cause = s.status.cause ∧ t.fcmd = s.fcmd) ∧
      (ResetsUnit e → t.status.fault = false ∧ t.status.cause = .none ∧ t.fcmd = 0#64)

/-- The command index advances by one for every command delivered, executed, faulting or ignored (R20), and for nothing
else. That the rst pin and a CTRL reset keep it, which is part of "nothing else", is the model's choice, not the spec's
(notes/assumptions/2.md and 14.md). -/
def Obligations.CommandIndexCountsDeliveredCommands : Prop :=
  ∀ (s t : State) (e : HostEvent) (rest : List HostEvent),
    s.inbox = e :: rest → step s = .next t →
      (DeliversCommand e → t.cmdIndex = s.cmdIndex + 1) ∧ (¬ DeliversCommand e → t.cmdIndex = s.cmdIndex)

/-- Every step that answers a next state removes the host's first event, and no other, and changes no parameter. All of
it is in the model's own terms: the inbox that stands for the host is the model's choice (notes/assumptions/1.md), so is
that a reset keeps the events not yet served (notes/assumptions/14.md), and the parameters as data that no step changes
are the model's inference (notes/assumptions/3.md). What serving an event does is in other statements. -/
def Obligations.StepsRemoveTheFirstEventAndKeepTheParameters : Prop :=
  ∀ s t : State, step s = .next t → t.inbox = s.inbox.tail ∧ t.params = s.params

/-! ## The register window -/

/-- R52: what a host read and a host write of each word of the window do. -/
def Obligations.RegisterWindowFollowsTheMap : Prop :=
  ∀ (s : State) (w : Word64),
    Reads s 0 s.lastcmd ∧
    (∀ (rest : List HostEvent) (i : Instr), decode (BitVec.ofNat 32 (w.toNat % 2 ^ 32)) = .ok i →
      step { s with inbox := hostWrite 0 w :: rest } = exec i (s.delivered rest)) ∧
    (∀ (rest : List HostEvent) (e : DecodeError), decode (BitVec.ofNat 32 (w.toNat % 2 ^ 32)) = .error e →
      step { s with inbox := hostWrite 0 w :: rest } =
        .next (if s.status.fault then s.delivered rest
          else (s.delivered rest).faulted .illegalCmd (w.toNat % 2 ^ 32))) ∧
    Reads s 1 s.status.word ∧ Writes s 1 w s ∧
    Reads s 2 s.fcmd ∧ Writes s 2 w s ∧
    Reads s 3 0x0000000155313238#64 ∧ Writes s 3 w s ∧
    Reads s 4 0#64 ∧ (w.toNat % 2 = 0 → Writes s 4 w s) ∧
    (w.toNat % 2 = 1 → ∃ t, Writes s 4 w t ∧ HasResetValues s.params t) ∧
    (∀ k : Nat, 5 ≤ k → k < 32 → Reads s k 0#64 ∧ Writes s k w s) ∧
    (∀ i : XReg,
      Reads s (32 + 2 * i.val) (BitVec.ofNat 64 (s.x[i.val].toNat % 2 ^ 64)) ∧
      Writes s (32 + 2 * i.val) w
        { s with x := s.x.set i.val (BitVec.ofNat 128 (s.x[i.val].toNat / 2 ^ 64 * 2 ^ 64 + w.toNat)) } ∧
      Reads s (33 + 2 * i.val) (BitVec.ofNat 64 (s.x[i.val].toNat / 2 ^ 64)) ∧
      Writes s (33 + 2 * i.val) w
        { s with x := s.x.set i.val (BitVec.ofNat 128 (w.toNat * 2 ^ 64 + s.x[i.val].toNat % 2 ^ 64)) }) ∧
    (∀ j : QReg,
      Reads s (64 + 4 * j.val) (BitVec.ofNat 64 (s.q[j.val].man.toNat % 2 ^ 64)) ∧
      Writes s (64 + 4 * j.val) w
        { s with q := s.q.set j.val { s.q[j.val] with
            man := BitVec.ofNat 128 (s.q[j.val].man.toNat / 2 ^ 64 * 2 ^ 64 + w.toNat) } } ∧
      Reads s (65 + 4 * j.val) (BitVec.ofNat 64 (s.q[j.val].man.toNat / 2 ^ 64)) ∧
      Writes s (65 + 4 * j.val) w
        { s with q := s.q.set j.val { s.q[j.val] with
            man := BitVec.ofNat 128 (w.toNat * 2 ^ 64 + s.q[j.val].man.toNat % 2 ^ 64) } } ∧
      Reads s (66 + 4 * j.val) (s.q[j.val]).metaWord ∧
      Writes s (66 + 4 * j.val) w { s with q := s.q.set j.val ((s.q[j.val]).withMeta w) } ∧
      Reads s (67 + 4 * j.val) 0#64 ∧ Writes s (67 + 4 * j.val) w s) ∧
    (∀ k : Nat, 96 ≤ k → k < 128 → Reads s k 0#64 ∧ Writes s k w s)

/-- R53: the meta word's fields, read and written; a write stores any pattern, the mantissa apart. -/
def Obligations.MetaWordHoldsExpNegAndSig : Prop :=
  ∀ (s : State) (j : QReg) (w : Word64),
    Reads s (66 + 4 * j.val) (BitVec.ofNat 64
      (s.q[j.val].exp.toNat + s.q[j.val].neg.toNat * 2 ^ 16 + s.q[j.val].sig.toNat * 2 ^ 24)) ∧
    Writes s (66 + 4 * j.val) w
      { s with
        q := s.q.set j.val
          { neg := decide (w.toNat / 2 ^ 16 % 2 = 1), exp := BitVec.ofNat 16 (w.toNat % 2 ^ 16),
            man := s.q[j.val].man, sig := BitVec.ofNat 8 (w.toNat / 2 ^ 24 % 2 ^ 8) } }

/-- The STATUS word: every field at its bits, every reserved bit 0; and the four cause codes of R220. -/
def Obligations.StatusWordHoldsEachFieldAtItsBits : Prop :=
  (Cause.code .none = 0#4 ∧ Cause.code .illegalCmd = 1#4 ∧ Cause.code .badQuadOperand = 2#4 ∧
    Cause.code .normZero = 3#4) ∧
  ∀ st : Status,
    st.word.toNat = st.ovf.toNat + st.qof.toNat * 2 + st.quf.toNat * 2 ^ 2 + st.qnv.toNat * 2 ^ 3 +
      st.qcut.toNat * 2 ^ 4 + st.fault.toNat * 2 ^ 7 + st.cause.code.toNat * 2 ^ 8 + st.cnt.toNat * 2 ^ 16

/-- R54: byte k of a word is its bits 8k+7:8k, so the 16 bytes at an X register's offset, and at a Q mantissa's, are the
U128 in little-endian order. -/
def Obligations.WindowBytesAreLittleEndian : Prop :=
  ∀ s : State,
    (∀ (addr : WordIndex) (k : Nat), k < 8 →
      (s.windowByte (8 * addr.toNat + k)).toNat = (s.readWindow addr).toNat / 2 ^ (8 * k) % 2 ^ 8) ∧
    (∀ i : XReg, natOfBytes ((List.range 16).map fun k => s.windowByte (0x100 + 16 * i.val + k)) =
      s.x[i.val].toNat) ∧
    (∀ j : QReg, natOfBytes ((List.range 16).map fun k => s.windowByte (0x200 + 32 * j.val + k)) =
      s.q[j.val].man.toNat)

/-- A 128-bit value is written by two accesses: after the first, the register holds one new and one old half; after
both, `high*2^64 + low`. -/
def Obligations.HalvesAreWrittenOneAtATime : Prop :=
  ∀ (s : State) (i : XReg) (hi lo : Word64) (rest : List HostEvent),
    s.inbox = hostWrite (BitVec.ofNat 7 (32 + 2 * i.val)) lo ::
      hostWrite (BitVec.ofNat 7 (33 + 2 * i.val)) hi :: rest →
    ∃ t u, step s = .next t ∧ step t = .next u ∧
      t.x[i.val].toNat = s.x[i.val].toNat / 2 ^ 64 * 2 ^ 64 + lo.toNat ∧
      u.x[i.val].toNat = hi.toNat * 2 ^ 64 + lo.toNat

/-- A bus access acts only as one whole aligned 64-bit word of the window, as the port request of that word with its
bytes in little-endian order; one that is not one aligned word is refused wherever it lies, so also where it overlaps an
end of the window. On an aligned word outside the window the model faults, which is the model's choice
(notes/assumptions/10.md). -/
def Obligations.BusAccessIsOneAlignedWordOrRefused : Prop :=
  ∀ (s : State) (a : BusAccess) (rest : List HostEvent), s.inbox = .bus a :: rest →
    (∀ (addr : WordIndex) (bytes : List Byte), bytes.length = 8 → a.addr = Config.base + 8 * addr.toNat →
      a.op = .write bytes →
      step s = step { s with inbox := hostWrite addr (BitVec.ofNat 64 (natOfBytes bytes)) :: rest }) ∧
    (∀ addr : WordIndex, a.addr = Config.base + 8 * addr.toNat → a.op = .read 8 →
      step s = step { s with inbox := hostRead addr 0#64 :: rest }) ∧
    ((busSize a.op ≠ 8 ∨ a.addr % 8 ≠ 0) → step s = .refused .notOneAlignedWord) ∧
    (busSize a.op = 8 → a.addr % 8 = 0 → (a.addr < Config.base ∨ Config.base + 1024 ≤ a.addr) →
      step s = .fault .outsideWindow)

/-- A request with both wr and rd is refused; a request with neither, or no event at all, leaves an idle unit that keeps
all its state. The idle step and its response are the model's choice (notes/assumptions 9 and 11). -/
def Obligations.PortRefusesBothAndIdlesOnNeither : Prop :=
  ∀ (s : State) (r : PortRequest) (rest : List HostEvent),
    (s.inbox = .port r :: rest → r.wr = true → r.rd = true → step s = .refused .readAndWrite) ∧
    (s.inbox = .port r :: rest → r.wr = false → r.rd = false →
      step s = .next { s with inbox := rest, response := .idle }) ∧
    (s.inbox = [] → step s = .next { s with response := .idle })

/-! ## The U128 commands -/

/-- R111: NOP is the word 0; it writes nothing but LASTCMD. -/
def Obligations.NopWritesOnlyLastcmd : Prop :=
  Decodes 0 .nop ∧
  ∀ s : State, s.status.fault = false → exec .nop s = .next { s with lastcmd := 0#64 }

/-- R100: the sum modulo 2^128 and the carry out. -/
def Obligations.AddGivesTheSumAndTheCarry : Prop :=
  ∀ (d a b : XReg) (s : State),
    Decodes (numR3 0x01 d a b) (.add d a b) ∧
    (s.status.fault = false → exec (.add d a b) s = .next (s.doneXOvf d
      (BitVec.ofNat 128 (s.x[a.val].toNat + s.x[b.val].toNat))
      (decide (2 ^ 128 ≤ s.x[a.val].toNat + s.x[b.val].toNat)) (numR3 0x01 d a b)))

/-- R101: the difference modulo 2^128 and the borrow out. -/
def Obligations.SubGivesTheDifferenceAndTheBorrow : Prop :=
  ∀ (d a b : XReg) (s : State),
    Decodes (numR3 0x02 d a b) (.sub d a b) ∧
    (s.status.fault = false → exec (.sub d a b) s = .next (s.doneXOvf d
      (BitVec.ofInt 128 ((s.x[a.val].toNat : Int) - s.x[b.val].toNat))
      (decide (s.x[a.val].toNat < s.x[b.val].toNat)) (numR3 0x02 d a b)))

/-- SUB's OVF is the unsigned order of its operands (R110). -/
def Obligations.SubOverflowIsTheUnsignedOrder : Prop :=
  ∀ (d a b : XReg) (s : State), s.status.fault = false →
    ∃ t, exec (.sub d a b) s = .next t ∧ (t.status.ovf = true ↔ s.x[a.val].toNat < s.x[b.val].toNat)

/-- R102 to R105: each result bit is the operation on the operands' bits, NOT is 2^128 - 1 less the operand, and no flag
is written. -/
def Obligations.LogicCommandsWorkBitByBit : Prop :=
  ∀ (d a b : XReg) (s : State),
    Decodes (numR3 0x03 d a b) (.and d a b) ∧ Decodes (numR3 0x04 d a b) (.or d a b) ∧
    Decodes (numR3 0x05 d a b) (.xor d a b) ∧ Decodes (numR2 0x06 d a) (.not d a) ∧
    (s.status.fault = false →
      (∃ v : U128, exec (.and d a b) s = .next (s.doneX d v (numR3 0x03 d a b)) ∧
        ∀ k < 128, v.getLsbD k = (s.x[a.val].getLsbD k && s.x[b.val].getLsbD k)) ∧
      (∃ v : U128, exec (.or d a b) s = .next (s.doneX d v (numR3 0x04 d a b)) ∧
        ∀ k < 128, v.getLsbD k = (s.x[a.val].getLsbD k || s.x[b.val].getLsbD k)) ∧
      (∃ v : U128, exec (.xor d a b) s = .next (s.doneX d v (numR3 0x05 d a b)) ∧
        ∀ k < 128, v.getLsbD k = (s.x[a.val].getLsbD k != s.x[b.val].getLsbD k)) ∧
      exec (.not d a) s = .next (s.doneX d (BitVec.ofNat 128 (2 ^ 128 - 1 - s.x[a.val].toNat)) (numR2 0x06 d a)))

/-- R106 to R108: MOV copies, LDI zero-extends its immediate, ZEXT64 keeps the low half; no flag is written. -/
def Obligations.MovesCopyAndZeroExtend : Prop :=
  ∀ (d a : XReg) (imm : BitVec 16) (s : State),
    Decodes (numR2 0x07 d a) (.mov d a) ∧ Decodes (numRI 0x08 d imm.toNat) (.ldi d imm) ∧
    Decodes (numR2 0x09 d a) (.zext64 d a) ∧
    (s.status.fault = false →
      exec (.mov d a) s = .next (s.doneX d s.x[a.val] (numR2 0x07 d a)) ∧
      exec (.ldi d imm) s = .next (s.doneX d (BitVec.ofNat 128 imm.toNat) (numRI 0x08 d imm.toNat)) ∧
      exec (.zext64 d a) s = .next (s.doneX d (BitVec.ofNat 128 (s.x[a.val].toNat % 2 ^ 64)) (numR2 0x09 d a)))

/-- R120: the exact product of the low halves; it fits 128 bits and OVF is written 0. -/
def Obligations.Mul64GivesTheExactProduct : Prop :=
  ∀ (d a b : XReg) (s : State),
    Decodes (numR3 0x10 d a b) (.mul64 d a b) ∧
    (s.status.fault = false → ∃ v : U128,
      exec (.mul64 d a b) s = .next (s.doneXOvf d v false (numR3 0x10 d a b)) ∧
      v.toNat = (s.x[a.val].toNat % 2 ^ 64) * (s.x[b.val].toNat % 2 ^ 64))

/-- R121, R122: the low 128 bits of the 128 by 64 and the 128 by 128 product, OVF when the product is 2^128 or more. -/
def Obligations.WideMultipliesKeepTheLowBits : Prop :=
  ∀ (d a b : XReg) (s : State),
    Decodes (numR3 0x11 d a b) (.mulw d a b) ∧ Decodes (numR3 0x12 d a b) (.mul128 d a b) ∧
    (s.status.fault = false →
      exec (.mulw d a b) s = .next (s.doneXOvf d
        (BitVec.ofNat 128 (s.x[a.val].toNat * (s.x[b.val].toNat % 2 ^ 64)))
        (decide (2 ^ 128 ≤ s.x[a.val].toNat * (s.x[b.val].toNat % 2 ^ 64))) (numR3 0x11 d a b)) ∧
      exec (.mul128 d a b) s = .next (s.doneXOvf d
        (BitVec.ofNat 128 (s.x[a.val].toNat * s.x[b.val].toNat))
        (decide (2 ^ 128 ≤ s.x[a.val].toNat * s.x[b.val].toNat)) (numR3 0x12 d a b)))

/-- R123: the three-partial-product high half, with OVF always 0. It is the exact high half H or H - 1 with the cross
carry; without it H, H - 1 or H - 2. -/
def Obligations.MulhiIsTheHighHalfOrSlightlyLess : Prop :=
  ∀ (d a b : XReg) (s : State),
    Decodes (numR3 0x13 d a b) (.mulhi d a b) ∧
    (s.status.fault = false → ∃ v : U128,
      exec (.mulhi d a b) s = .next (s.doneXOvf d v false (numR3 0x13 d a b)) ∧
      v.toNat = highProduct s.params.crossCarry s.x[a.val].toNat s.x[b.val].toNat ∧
      v.toNat ≤ s.x[a.val].toNat * s.x[b.val].toNat / 2 ^ 128 ∧
      s.x[a.val].toNat * s.x[b.val].toNat / 2 ^ 128 ≤ v.toNat + (if s.params.crossCarry then 1 else 2))

/-- R140, R141: SHL multiplies by 2^n modulo 2^128, SHR divides by 2^n, for every count 0 to 255; no flag is written. -/
def Obligations.ShiftsMultiplyAndDivideByPowersOfTwo : Prop :=
  ∀ (d a : XReg) (n : BitVec 8) (s : State),
    Decodes (numRS 0x18 d a n.toNat) (.shl d a n) ∧ Decodes (numRS 0x19 d a n.toNat) (.shr d a n) ∧
    (s.status.fault = false →
      exec (.shl d a n) s =
        .next (s.doneX d (BitVec.ofNat 128 (s.x[a.val].toNat * 2 ^ n.toNat)) (numRS 0x18 d a n.toNat)) ∧
      exec (.shr d a n) s =
        .next (s.doneX d (BitVec.ofNat 128 (s.x[a.val].toNat / 2 ^ n.toNat)) (numRS 0x19 d a n.toNat)))

/-- R142: the 129-bit value {1, X[a]} shifted right by one; no flag is written. -/
def Obligations.ShrmsbFoldsTheCarryIn : Prop :=
  ∀ (d a : XReg) (s : State),
    Decodes (numRS 0x1A d a 1) (.shrmsb d a) ∧
    (s.status.fault = false → exec (.shrmsb d a) s =
      .next (s.doneX d (BitVec.ofNat 128 ((2 ^ 128 + s.x[a.val].toNat) / 2)) (numRS 0x1A d a 1)))

/-- R143: NORM shifts left until bit 127 is set, no set bit lost, and leaves the count in CNT, OVF unchanged; NORM of 0
raises NORM_ZERO and writes nothing else. -/
def Obligations.NormShiftsUntilTheTopBitIsSet : Prop :=
  ∀ (d a : XReg) (s : State),
    Decodes (numR2 0x1C d a) (.norm d a) ∧
    (s.status.fault = false →
      (s.x[a.val].toNat = 0 → exec (.norm d a) s = .next (s.faulted .normZero (numR2 0x1C d a))) ∧
      (s.x[a.val].toNat ≠ 0 → ∃ k : Nat, k ≤ 127 ∧
        2 ^ 127 ≤ s.x[a.val].toNat * 2 ^ k ∧ s.x[a.val].toNat * 2 ^ k < 2 ^ 128 ∧
        exec (.norm d a) s = .next
          { s with
            x := s.x.set d.val (BitVec.ofNat 128 (s.x[a.val].toNat * 2 ^ k))
            status := { s.status with cnt := BitVec.ofNat 8 k }
            lastcmd := BitVec.ofNat 64 (numR2 0x1C d a) }))

/-! ## The Quad commands -/

/-- R160: every valid Quad is in exactly one class, told by its exponent and mantissa; a finite one has its top mantissa
bit set and a magnitude in [2^(exp-1), 2^exp). -/
def Obligations.ValidQuadsAreInExactlyOneClass : Prop :=
  ∀ (p : Params) (q : Quad), p.wf → q.valid p = true →
    (q.isZero p = true ↔ q.cls p = .zero) ∧ (q.isInf p = true ↔ q.cls p = .inf) ∧
    (q.isNaN p = true ↔ q.cls p = .nan) ∧ (q.isFinite p = true ↔ q.cls p = .finite) ∧
    (q.cls p = .finite → (2 : ℚ) ^ (q.exp.toInt - 1) ≤ q.mag ∧ q.mag < (2 : ℚ) ^ q.exp.toInt)

/-- R169: QADD leaves the sum of two valid operands, in every class; an invalid operand raises BAD_QUAD_OPERAND. -/
def Obligations.QaddGivesTheSum : Prop :=
  ∀ (d a b : QReg) (s : State),
    Decodes (numR3 0x20 d a b) (.qadd d a b) ∧
    (s.status.fault = false →
      (((s.q[a.val]).valid s.params = false ∨ (s.q[b.val]).valid s.params = false) →
        exec (.qadd d a b) s = .next (s.faulted .badQuadOperand (numR3 0x20 d a b))) ∧
      (s.params.wf → (s.q[a.val]).valid s.params = true → (s.q[b.val]).valid s.params = true →
        ∃ r : QResult, exec (.qadd d a b) s = .next (s.doneQ d r (numR3 0x20 d a b)) ∧
          IsSum s.params s.q[a.val] s.q[b.val] r))

/-- R170: QSUB leaves the sum of the first operand and the negated second; an invalid operand raises
BAD_QUAD_OPERAND. -/
def Obligations.QsubGivesTheDifference : Prop :=
  ∀ (d a b : QReg) (s : State),
    Decodes (numR3 0x21 d a b) (.qsub d a b) ∧
    (s.status.fault = false →
      (((s.q[a.val]).valid s.params = false ∨ (s.q[b.val]).valid s.params = false) →
        exec (.qsub d a b) s = .next (s.faulted .badQuadOperand (numR3 0x21 d a b))) ∧
      (s.params.wf → (s.q[a.val]).valid s.params = true → (s.q[b.val]).valid s.params = true →
        ∃ r : QResult, exec (.qsub d a b) s = .next (s.doneQ d r (numR3 0x21 d a b)) ∧
          IsSum s.params s.q[a.val] (negated s.params s.q[b.val]) r))

/-- A finite Quad less itself is zero with sign 0 and its own budget, and no Q status bit (R170's corner case). -/
def Obligations.SubtractingAFiniteQuadFromItselfGivesZero : Prop :=
  ∀ (d a : QReg) (s : State), s.params.wf → s.status.fault = false → (s.q[a.val]).valid s.params = true →
    (s.q[a.val]).cls s.params = .finite →
      exec (.qsub d a a) s =
        .next (s.doneQ d (.quiet (theZero s.params (s.q[a.val]).sig)) (numR3 0x21 d a a))

/-- R171: QMUL leaves the product of two valid operands, in every class; an invalid operand raises BAD_QUAD_OPERAND. The
bound of 2 units is R171's, for the default cross carry; the bound of 3 without it is the model's inference from R123's
property 2 (notes/assumptions/16.md). -/
def Obligations.QmulGivesTheProduct : Prop :=
  ∀ (d a b : QReg) (s : State),
    Decodes (numR3 0x22 d a b) (.qmul d a b) ∧
    (s.status.fault = false →
      (((s.q[a.val]).valid s.params = false ∨ (s.q[b.val]).valid s.params = false) →
        exec (.qmul d a b) s = .next (s.faulted .badQuadOperand (numR3 0x22 d a b))) ∧
      (s.params.wf → (s.q[a.val]).valid s.params = true → (s.q[b.val]).valid s.params = true →
        ∃ r : QResult, exec (.qmul d a b) s = .next (s.doneQ d r (numR3 0x22 d a b)) ∧
          IsProduct s.params s.q[a.val] s.q[b.val] r))

/-- A finite Quad times 1 is itself with mantissa bit 0 cleared (R171's properties, 90_conflicts.md C5). -/
def Obligations.MultiplyingByOneClearsMantissaBitZero : Prop :=
  ∀ (d a b : QReg) (s : State), s.params.wf → s.status.fault = false →
    (s.q[a.val]).valid s.params = true → (s.q[a.val]).cls s.params = .finite →
    (s.q[b.val]).sig.toNat ≤ 128 → (s.q[b.val]).neg = false → (s.q[b.val]).exp = 1#16 →
    (s.q[b.val]).man.toNat = 2 ^ 127 →
      exec (.qmul d a b) s = .next (s.doneQ d
        (.quiet { neg := (s.q[a.val]).neg, exp := (s.q[a.val]).exp,
                  man := BitVec.ofNat 128 ((s.q[a.val]).man.toNat / 2 * 2),
                  sig := leastSig s.q[a.val] s.q[b.val] }) (numR3 0x22 d a b))

/-- R172: QNEG flips the sign of a finite or infinite Quad, leaves zero, makes a NaN canonical, and clears the four Q
bits; an invalid operand raises BAD_QUAD_OPERAND. -/
def Obligations.QnegFlipsTheSign : Prop :=
  ∀ (d a : QReg) (s : State),
    Decodes (numR2 0x23 d a) (.qneg d a) ∧
    (s.status.fault = false →
      ((s.q[a.val]).valid s.params = false →
        exec (.qneg d a) s = .next (s.faulted .badQuadOperand (numR2 0x23 d a))) ∧
      (s.params.wf → (s.q[a.val]).valid s.params = true →
        exec (.qneg d a) s = .next (s.doneQ d
          (.quiet (match (s.q[a.val]).cls s.params with
            | .nan => theNaN s.params (s.q[a.val]).sig
            | .zero => s.q[a.val]
            | .finite | .inf => { s.q[a.val] with neg := !(s.q[a.val]).neg })) (numR2 0x23 d a))))

/-- R173: QABS clears the sign, makes a NaN canonical, and clears the four Q bits; an invalid operand raises
BAD_QUAD_OPERAND. -/
def Obligations.QabsClearsTheSign : Prop :=
  ∀ (d a : QReg) (s : State),
    Decodes (numR2 0x24 d a) (.qabs d a) ∧
    (s.status.fault = false →
      ((s.q[a.val]).valid s.params = false →
        exec (.qabs d a) s = .next (s.faulted .badQuadOperand (numR2 0x24 d a))) ∧
      (s.params.wf → (s.q[a.val]).valid s.params = true →
        exec (.qabs d a) s = .next (s.doneQ d
          (.quiet (match (s.q[a.val]).cls s.params with
            | .nan => theNaN s.params (s.q[a.val]).sig
            | .zero | .finite | .inf => { s.q[a.val] with neg := false })) (numR2 0x24 d a))))

/-- QTRUNC and QFLOOR leave the operand rounded toward zero and down: the result's value is the integer (R190 to R192);
an invalid operand raises BAD_QUAD_OPERAND. -/
def Obligations.QtruncAndQfloorRoundTheValue : Prop :=
  ∀ (d a : QReg) (s : State),
    Decodes (numR2 0x28 d a) (.qtrunc d a) ∧ Decodes (numR2 0x29 d a) (.qfloor d a) ∧
    (s.status.fault = false →
      ((s.q[a.val]).valid s.params = false →
        exec (.qtrunc d a) s = .next (s.faulted .badQuadOperand (numR2 0x28 d a)) ∧
        exec (.qfloor d a) s = .next (s.faulted .badQuadOperand (numR2 0x29 d a))) ∧
      (s.params.wf → (s.q[a.val]).valid s.params = true →
        (∃ r : Quad, exec (.qtrunc d a) s = .next (s.doneQ d (.quiet r) (numR2 0x28 d a)) ∧
          IsRounded s.params .trunc s.q[a.val] r) ∧
        (∃ r : Quad, exec (.qfloor d a) s = .next (s.doneQ d (.quiet r) (numR2 0x29 d a)) ∧
          IsRounded s.params .floor s.q[a.val] r)))

/-- QCEIL and QROUND leave the operand rounded up and to the nearest integer with ties to even (R190, R193, R194); an
invalid operand raises BAD_QUAD_OPERAND. -/
def Obligations.QceilAndQroundRoundTheValue : Prop :=
  ∀ (d a : QReg) (s : State),
    Decodes (numR2 0x2A d a) (.qceil d a) ∧ Decodes (numR2 0x2B d a) (.qround d a) ∧
    (s.status.fault = false →
      ((s.q[a.val]).valid s.params = false →
        exec (.qceil d a) s = .next (s.faulted .badQuadOperand (numR2 0x2A d a)) ∧
        exec (.qround d a) s = .next (s.faulted .badQuadOperand (numR2 0x2B d a))) ∧
      (s.params.wf → (s.q[a.val]).valid s.params = true →
        (∃ r : Quad, exec (.qceil d a) s = .next (s.doneQ d (.quiet r) (numR2 0x2A d a)) ∧
          IsRounded s.params .ceil s.q[a.val] r) ∧
        (∃ r : Quad, exec (.qround d a) s = .next (s.doneQ d (.quiet r) (numR2 0x2B d a)) ∧
          IsRounded s.params .round s.q[a.val] r)))

/-- R195: QFROMU leaves the Quad whose value is exactly the 128-bit operand, with budget 128, and clears the four Q
bits. -/
def Obligations.QfromuIsExact : Prop :=
  ∀ (d : QReg) (a : XReg) (s : State),
    Decodes (numR2 0x30 d a) (.qfromu d a) ∧
    (s.params.wf → s.status.fault = false →
      ∃ r : Quad, exec (.qfromu d a) s = .next (s.doneQ d (.quiet r) (numR2 0x30 d a)) ∧
        IsInteger s.params s.x[a.val].toNat r)

/-- R196: QFROMS leaves the Quad whose value is exactly the low half as a signed 64-bit integer, with budget 128 and an
exponent of at most 64, and clears the four Q bits. -/
def Obligations.QfromsIsExact : Prop :=
  ∀ (d : QReg) (a : XReg) (s : State),
    Decodes (numR2 0x31 d a) (.qfroms d a) ∧
    (s.params.wf → s.status.fault = false →
      ∃ r : Quad, exec (.qfroms d a) s = .next (s.doneQ d (.quiet r) (numR2 0x31 d a)) ∧
        IsInteger s.params (BitVec.ofNat 64 s.x[a.val].toNat).toInt r ∧ r.exp.toInt ≤ 64)

/-- R197: QSETSIG replaces the budget, a NaN becoming canonical, and clears the four Q bits; an invalid operand raises
BAD_QUAD_OPERAND; the counts above 128 are no command. -/
def Obligations.QsetsigReplacesTheBudget : Prop :=
  ∀ (d a : QReg) (n : BitVec 8) (s : State),
    (n.toNat ≤ 128 → Decodes (numRS 0x34 d a n.toNat) (.qsetsig d a n)) ∧
    (128 < n.toNat → decode (BitVec.ofNat 32 (numRS 0x34 d a n.toNat)) = .error .illegalCount) ∧
    (s.status.fault = false → n.toNat ≤ 128 →
      ((s.q[a.val]).valid s.params = false →
        exec (.qsetsig d a n) s = .next (s.faulted .badQuadOperand (numRS 0x34 d a n.toNat))) ∧
      (s.params.wf → (s.q[a.val]).valid s.params = true →
        exec (.qsetsig d a n) s = .next (s.doneQ d
          (.quiet (match (s.q[a.val]).cls s.params with
            | .nan => theNaN s.params n
            | .zero | .finite | .inf => { s.q[a.val] with sig := n })) (numRS 0x34 d a n.toNat))))

/-- R163: the budget of every Q command's result. -/
def Obligations.ResultBudgetsAreTheLeastOperandBudget : Prop :=
  ∀ (i : Instr) (s : State) (d : QReg) (g : BitVec 8),
    s.status.fault = false → faultOf i s = .none → qDest i = some d → sigOf i s = some g →
      ∃ t, exec i s = .next t ∧ (t.q[d.val]).sig = g

/-! ## Whole-machine rules -/

/-- A command leaves a valid Quad in the Q register it writes, and keeps every valid Quad valid: the normalisation
invariant of every result. -/
def Obligations.CommandsLeaveValidQuads : Prop :=
  ∀ (i : Instr) (s t : State), s.params.wf → s.status.fault = false → exec i s = .next t →
    (∀ j : QReg, (s.q[j.val]).valid s.params = true → (t.q[j.val]).valid t.params = true) ∧
    (∀ d : QReg, qDest i = some d → t.status.fault = false → (t.q[d.val]).valid t.params = true)

/-- R24: what every command leaves in OVF, on an unhalted unit. -/
def Obligations.OverflowFlagIsWrittenAsListed : Prop :=
  ∀ (i : Instr) (s : State), s.status.fault = false →
    ∃ t, exec i s = .next t ∧ t.status.ovf = ovfAfter i s

/-- R26: no command but NORM writes CNT, a NORM that faults leaves it, and a NORM that completes leaves the number of
positions shifted, at most 127. -/
def Obligations.CountIsWrittenOnlyByNorm : Prop :=
  ∀ (i : Instr) (s t : State), s.status.fault = false → exec i s = .next t →
    (isNorm i = false → t.status.cnt = s.status.cnt) ∧
    (∀ d a : XReg, i = .norm d a →
      (t.status.fault = true → t.status.cnt = s.status.cnt) ∧
      (t.status.fault = false → t.status.cnt.toNat ≤ 127 ∧
        t.x[d.val].toNat = s.x[a.val].toNat * 2 ^ t.status.cnt.toNat ∧ 2 ^ 127 ≤ t.x[d.val].toNat))

/-- R27: when each of the four Q status bits is set, for every command: QOF for an infinity from operands that are not,
QUF for a zero from a nonzero finite result, QNV for a NaN from operands that are not, QCUT for finite operands whose
exponents differ by more than 128; all 0 for the other Q commands; unchanged by a fault and by U128 commands. -/
def Obligations.QuadStatusBitsReportTheOutcome : Prop :=
  ∀ (i : Instr) (s t : State), s.params.wf → s.status.fault = false → exec i s = .next t →
    ((qDest i = none ∨ t.status.fault = true) →
      t.status.qof = s.status.qof ∧ t.status.quf = s.status.quf ∧ t.status.qnv = s.status.qnv ∧
        t.status.qcut = s.status.qcut) ∧
    (∀ (d : QReg) (a b : Quad), qDest i = some d → t.status.fault = false → addends i s = some (a, b) →
      (t.status.qof = true ↔ (t.q[d.val]).cls t.params = .inf ∧ a.cls s.params ≠ .inf ∧ b.cls s.params ≠ .inf) ∧
      (t.status.quf = true ↔ (t.q[d.val]).cls t.params = .zero ∧ a.cls s.params = .finite ∧
        b.cls s.params = .finite ∧ a.value s.params + b.value s.params ≠ 0) ∧
      (t.status.qnv = true ↔ (t.q[d.val]).cls t.params = .nan ∧ a.cls s.params ≠ .nan ∧ b.cls s.params ≠ .nan) ∧
      (t.status.qcut = true ↔ a.cls s.params = .finite ∧ b.cls s.params = .finite ∧
        128 < |a.exp.toInt - b.exp.toInt|)) ∧
    (∀ d a b : QReg, i = .qmul d a b → t.status.fault = false →
      (t.status.qof = true ↔ (t.q[d.val]).cls t.params = .inf ∧ (s.q[a.val]).cls s.params ≠ .inf ∧
        (s.q[b.val]).cls s.params ≠ .inf) ∧
      (t.status.quf = true ↔ (t.q[d.val]).cls t.params = .zero ∧ (s.q[a.val]).cls s.params = .finite ∧
        (s.q[b.val]).cls s.params = .finite) ∧
      (t.status.qnv = true ↔ (t.q[d.val]).cls t.params = .nan ∧ (s.q[a.val]).cls s.params ≠ .nan ∧
        (s.q[b.val]).cls s.params ≠ .nan) ∧
      t.status.qcut = false) ∧
    (∀ d : QReg, qDest i = some d → t.status.fault = false → addends i s = none →
      (∀ d' a b : QReg, i ≠ .qmul d' a b) →
      t.status.qof = false ∧ t.status.quf = false ∧ t.status.qnv = false ∧ t.status.qcut = false)

/-- Every command leaves every X and Q register but its destination, and every byte of the window from 0x018 on but
those of its destination. The bytes below 0x018 are LASTCMD, STATUS and FCMD, which commands do change: other statements
say how. That the command index, the inbox, the port's response and the parameters, which are the model's own fields
(notes/assumptions 1, 2, 3 and 9), are not touched by `exec` is a statement about the model. -/
def Obligations.CommandsKeepOtherXQRegistersAndWindowBytesFrom0x18 : Prop :=
  ∀ (i : Instr) (s t : State), exec i s = .next t →
    (∀ k : XReg, xDest i ≠ some k → t.x[k.val] = s.x[k.val]) ∧
    (∀ k : QReg, qDest i ≠ some k → t.q[k.val] = s.q[k.val]) ∧
    t.cmdIndex = s.cmdIndex ∧ t.inbox = s.inbox ∧ t.response = s.response ∧ t.params = s.params ∧
    ∀ off : Nat, 0x18 ≤ off → off < 1024 → (∀ k : XReg, xDest i = some k → ¬ XBytes k off) →
      (∀ k : QReg, qDest i = some k → ¬ QBytes k off) → t.windowByte off = s.windowByte off

/-! ## The assembler -/

/-- A line that writes a legal command in the syntax of R80 assembles to that command. -/
def Obligations.AssemblyTextReadsBackAsItsCommand : Prop :=
  ∀ (i : Instr) (z : XReg), i.wellFormed = true → readLine z (asmText i) = some [i]

/-- The expansions of R81 have their effects on an unhalted unit: CLR clears, LDI32 loads its 32-bit value and leaves
its low 16 bits in x15, QCLR makes a zero from a register that holds 0. -/
def Obligations.PseudoInstructionsHaveTheirEffects : Prop :=
  ∀ s : State, s.status.fault = false →
    (∀ d : XReg, ∃ t, runCommands (expand (.clr d)) s = .next t ∧ t.x[d.val] = 0#128) ∧
    (∀ (d : XReg) (v : BitVec 32), d ≠ 15 → ∃ t, runCommands (expand (.ldi32 d v)) s = .next t ∧
      t.x[d.val].toNat = v.toNat ∧ t.x[15].toNat = v.toNat % 2 ^ 16 ∧
      ∀ k : XReg, k ≠ d → k ≠ 15 → t.x[k.val] = s.x[k.val]) ∧
    (∀ (d : QReg) (z : XReg), s.x[z.val].toNat = 0 → ∃ t, runCommands (expand (.qclr d z)) s = .next t ∧
      t.q[d.val] = theZero s.params 128#8)
end

