-- ==== Sys2Proof/Laws/Encoding.lean ====
section
/-! SUPPORT. The bits of the command formats (spec/30_encoding.md R72): each format's must-be-zero bits under its mask,
and each field read back. -/

namespace Sys2Proof

/-! ## Masks of the formats -/

theorem wordR3_mask (op : BitVec 8) (d a b : BitVec 4) :
    wordR3 op d a b &&& 0xFF000FFF#32 = op.setWidth 32 <<< 24 := by
  unfold wordR3
  ext i hi
  interval_cases i <;> simp

theorem wordR2_mask (op : BitVec 8) (d a : BitVec 4) :
    wordR2 op d a &&& 0xFF00FFFF#32 = op.setWidth 32 <<< 24 := by
  unfold wordR2
  ext i hi
  interval_cases i <;> simp

theorem wordRI_mask (op : BitVec 8) (d : BitVec 4) (imm : BitVec 16) :
    wordRI op d imm &&& 0xFF0F0000#32 = op.setWidth 32 <<< 24 := by
  unfold wordRI
  ext i hi
  interval_cases i <;> simp

theorem wordRS_mask (op : BitVec 8) (d a : BitVec 4) (n : BitVec 8) :
    wordRS op d a n &&& 0xFF00FF00#32 = op.setWidth 32 <<< 24 := by
  unfold wordRS
  ext i hi
  interval_cases i <;> simp

theorem wordRS_one_mask (op : BitVec 8) (d a : BitVec 4) :
    wordRS op d a 1 &&& 0xFF00FFFF#32 = op.setWidth 32 <<< 24 ||| 1#32 := by
  unfold wordRS
  ext i hi
  interval_cases i <;> simp

/-- A Q-class field has bit 3 clear (spec/30_encoding.md R73). -/
theorem qBits_top (r : QReg) : (qBits r)[3] = false := by simp [qBits]

theorem wordR3_qMask (op : BitVec 8) (d a b : QReg) :
    wordR3 op (qBits d) (qBits a) (qBits b) &&& 0xFF888FFF#32 = op.setWidth 32 <<< 24 := by
  have hd := qBits_top d
  have ha := qBits_top a
  have hb := qBits_top b
  generalize qBits d = d' at *
  generalize qBits a = a' at *
  generalize qBits b = b' at *
  unfold wordR3
  ext i hi
  interval_cases i <;> simp [hd, ha, hb]

theorem wordR2_qMask (op : BitVec 8) (d a : QReg) :
    wordR2 op (qBits d) (qBits a) &&& 0xFF88FFFF#32 = op.setWidth 32 <<< 24 := by
  have hd := qBits_top d
  have ha := qBits_top a
  generalize qBits d = d' at *
  generalize qBits a = a' at *
  unfold wordR2
  ext i hi
  interval_cases i <;> simp [hd, ha]

theorem wordR2_qxMask (op : BitVec 8) (d : QReg) (a : XReg) :
    wordR2 op (qBits d) (xBits a) &&& 0xFF80FFFF#32 = op.setWidth 32 <<< 24 := by
  have hd := qBits_top d
  generalize qBits d = d' at *
  generalize xBits a = a' at *
  unfold wordR2
  ext i hi
  interval_cases i <;> simp [hd]

theorem wordRS_qMask (op : BitVec 8) (d a : QReg) (n : BitVec 8) :
    wordRS op (qBits d) (qBits a) n &&& 0xFF88FF00#32 = op.setWidth 32 <<< 24 := by
  have hd := qBits_top d
  have ha := qBits_top a
  generalize qBits d = d' at *
  generalize qBits a = a' at *
  unfold wordRS
  ext i hi
  interval_cases i <;> simp [hd, ha]

/-! ## Fields read back -/

@[simp] theorem opField_wordR3 (op : BitVec 8) (d a b : BitVec 4) : opField (wordR3 op d a b) = op := by
  unfold opField wordR3
  ext i hi
  interval_cases i <;> simp

@[simp] theorem opField_wordR2 (op : BitVec 8) (d a : BitVec 4) : opField (wordR2 op d a) = op := by
  unfold opField wordR2
  ext i hi
  interval_cases i <;> simp

@[simp] theorem opField_wordRI (op : BitVec 8) (d : BitVec 4) (imm : BitVec 16) :
    opField (wordRI op d imm) = op := by
  unfold opField wordRI
  ext i hi
  interval_cases i <;> simp

@[simp] theorem opField_wordRS (op : BitVec 8) (d a : BitVec 4) (n : BitVec 8) :
    opField (wordRS op d a n) = op := by
  unfold opField wordRS
  ext i hi
  interval_cases i <;> simp

@[simp] theorem n8Field_wordRS (op : BitVec 8) (d a : BitVec 4) (n : BitVec 8) :
    n8Field (wordRS op d a n) = n := by
  unfold n8Field wordRS
  ext i hi
  interval_cases i <;> simp

@[simp] theorem immField_wordRI (op : BitVec 8) (d : BitVec 4) (imm : BitVec 16) :
    immField (wordRI op d imm) = imm := by
  unfold immField wordRI
  ext i hi
  interval_cases i <;> simp

end Sys2Proof
end

