-- ==== Sys2Proof/Laws/State.lean ====
section
/-! SUPPORT. The small lemmas of the state: one per field per update, and reading a register after a write. -/

namespace Sys2Proof.Machine

/-! ### writeX -/

@[simp] theorem State.writeX_x (s : State) (i : XReg) (v : U128) : (s.writeX i v).x = s.x.set i.val v := rfl

@[simp] theorem State.writeX_q (s : State) (i : XReg) (v : U128) : (s.writeX i v).q = s.q := rfl

@[simp] theorem State.writeX_status (s : State) (i : XReg) (v : U128) : (s.writeX i v).status = s.status := rfl

@[simp] theorem State.writeX_fcmd (s : State) (i : XReg) (v : U128) : (s.writeX i v).fcmd = s.fcmd := rfl

@[simp] theorem State.writeX_lastcmd (s : State) (i : XReg) (v : U128) : (s.writeX i v).lastcmd = s.lastcmd := rfl

@[simp] theorem State.writeX_cmdIndex (s : State) (i : XReg) (v : U128) : (s.writeX i v).cmdIndex = s.cmdIndex := rfl

@[simp] theorem State.writeX_inbox (s : State) (i : XReg) (v : U128) : (s.writeX i v).inbox = s.inbox := rfl

@[simp] theorem State.writeX_response (s : State) (i : XReg) (v : U128) : (s.writeX i v).response = s.response := rfl

@[simp] theorem State.writeX_params (s : State) (i : XReg) (v : U128) : (s.writeX i v).params = s.params := rfl

/-! ### writeQ -/

@[simp] theorem State.writeQ_x (s : State) (j : QReg) (v : Quad) : (s.writeQ j v).x = s.x := rfl

@[simp] theorem State.writeQ_q (s : State) (j : QReg) (v : Quad) : (s.writeQ j v).q = s.q.set j.val v := rfl

@[simp] theorem State.writeQ_status (s : State) (j : QReg) (v : Quad) : (s.writeQ j v).status = s.status := rfl

@[simp] theorem State.writeQ_fcmd (s : State) (j : QReg) (v : Quad) : (s.writeQ j v).fcmd = s.fcmd := rfl

@[simp] theorem State.writeQ_lastcmd (s : State) (j : QReg) (v : Quad) : (s.writeQ j v).lastcmd = s.lastcmd := rfl

@[simp] theorem State.writeQ_cmdIndex (s : State) (j : QReg) (v : Quad) : (s.writeQ j v).cmdIndex = s.cmdIndex := rfl

@[simp] theorem State.writeQ_inbox (s : State) (j : QReg) (v : Quad) : (s.writeQ j v).inbox = s.inbox := rfl

@[simp] theorem State.writeQ_response (s : State) (j : QReg) (v : Quad) : (s.writeQ j v).response = s.response := rfl

@[simp] theorem State.writeQ_params (s : State) (j : QReg) (v : Quad) : (s.writeQ j v).params = s.params := rfl

/-! ### setStatus -/

@[simp] theorem State.setStatus_x (s : State) (st : Status) : (s.setStatus st).x = s.x := rfl

@[simp] theorem State.setStatus_q (s : State) (st : Status) : (s.setStatus st).q = s.q := rfl

@[simp] theorem State.setStatus_status (s : State) (st : Status) : (s.setStatus st).status = st := rfl

@[simp] theorem State.setStatus_fcmd (s : State) (st : Status) : (s.setStatus st).fcmd = s.fcmd := rfl

@[simp] theorem State.setStatus_lastcmd (s : State) (st : Status) : (s.setStatus st).lastcmd = s.lastcmd := rfl

@[simp] theorem State.setStatus_cmdIndex (s : State) (st : Status) : (s.setStatus st).cmdIndex = s.cmdIndex := rfl

@[simp] theorem State.setStatus_inbox (s : State) (st : Status) : (s.setStatus st).inbox = s.inbox := rfl

@[simp] theorem State.setStatus_response (s : State) (st : Status) : (s.setStatus st).response = s.response := rfl

@[simp] theorem State.setStatus_params (s : State) (st : Status) : (s.setStatus st).params = s.params := rfl

/-! ### writeXOvf -/

@[simp] theorem State.writeXOvf_x (s : State) (d : XReg) (r : U128 × Bool) : (s.writeXOvf d r).x = s.x.set d.val r.1 := rfl

@[simp] theorem State.writeXOvf_q (s : State) (d : XReg) (r : U128 × Bool) : (s.writeXOvf d r).q = s.q := rfl

@[simp] theorem State.writeXOvf_status (s : State) (d : XReg) (r : U128 × Bool) : (s.writeXOvf d r).status = s.status.withOvf r.2 := rfl

@[simp] theorem State.writeXOvf_fcmd (s : State) (d : XReg) (r : U128 × Bool) : (s.writeXOvf d r).fcmd = s.fcmd := rfl

@[simp] theorem State.writeXOvf_lastcmd (s : State) (d : XReg) (r : U128 × Bool) : (s.writeXOvf d r).lastcmd = s.lastcmd := rfl

@[simp] theorem State.writeXOvf_cmdIndex (s : State) (d : XReg) (r : U128 × Bool) : (s.writeXOvf d r).cmdIndex = s.cmdIndex := rfl

@[simp] theorem State.writeXOvf_inbox (s : State) (d : XReg) (r : U128 × Bool) : (s.writeXOvf d r).inbox = s.inbox := rfl

@[simp] theorem State.writeXOvf_response (s : State) (d : XReg) (r : U128 × Bool) : (s.writeXOvf d r).response = s.response := rfl

@[simp] theorem State.writeXOvf_params (s : State) (d : XReg) (r : U128 × Bool) : (s.writeXOvf d r).params = s.params := rfl

/-! ### writeXCnt -/

@[simp] theorem State.writeXCnt_x (s : State) (d : XReg) (r : U128 × Nat) : (s.writeXCnt d r).x = s.x.set d.val r.1 := rfl

@[simp] theorem State.writeXCnt_q (s : State) (d : XReg) (r : U128 × Nat) : (s.writeXCnt d r).q = s.q := rfl

@[simp] theorem State.writeXCnt_status (s : State) (d : XReg) (r : U128 × Nat) : (s.writeXCnt d r).status = s.status.withCnt (BitVec.ofNat 8 r.2) := rfl

@[simp] theorem State.writeXCnt_fcmd (s : State) (d : XReg) (r : U128 × Nat) : (s.writeXCnt d r).fcmd = s.fcmd := rfl

@[simp] theorem State.writeXCnt_lastcmd (s : State) (d : XReg) (r : U128 × Nat) : (s.writeXCnt d r).lastcmd = s.lastcmd := rfl

@[simp] theorem State.writeXCnt_cmdIndex (s : State) (d : XReg) (r : U128 × Nat) : (s.writeXCnt d r).cmdIndex = s.cmdIndex := rfl

@[simp] theorem State.writeXCnt_inbox (s : State) (d : XReg) (r : U128 × Nat) : (s.writeXCnt d r).inbox = s.inbox := rfl

@[simp] theorem State.writeXCnt_response (s : State) (d : XReg) (r : U128 × Nat) : (s.writeXCnt d r).response = s.response := rfl

@[simp] theorem State.writeXCnt_params (s : State) (d : XReg) (r : U128 × Nat) : (s.writeXCnt d r).params = s.params := rfl

/-! ### writeQResult -/

@[simp] theorem State.writeQResult_x (s : State) (d : QReg) (r : QResult) : (s.writeQResult d r).x = s.x := rfl

@[simp] theorem State.writeQResult_q (s : State) (d : QReg) (r : QResult) : (s.writeQResult d r).q = s.q.set d.val r.val := rfl

@[simp] theorem State.writeQResult_status (s : State) (d : QReg) (r : QResult) : (s.writeQResult d r).status = s.status.withQFlags r.flags := rfl

@[simp] theorem State.writeQResult_fcmd (s : State) (d : QReg) (r : QResult) : (s.writeQResult d r).fcmd = s.fcmd := rfl

@[simp] theorem State.writeQResult_lastcmd (s : State) (d : QReg) (r : QResult) : (s.writeQResult d r).lastcmd = s.lastcmd := rfl

@[simp] theorem State.writeQResult_cmdIndex (s : State) (d : QReg) (r : QResult) : (s.writeQResult d r).cmdIndex = s.cmdIndex := rfl

@[simp] theorem State.writeQResult_inbox (s : State) (d : QReg) (r : QResult) : (s.writeQResult d r).inbox = s.inbox := rfl

@[simp] theorem State.writeQResult_response (s : State) (d : QReg) (r : QResult) : (s.writeQResult d r).response = s.response := rfl

@[simp] theorem State.writeQResult_params (s : State) (d : QReg) (r : QResult) : (s.writeQResult d r).params = s.params := rfl

/-! ### raiseFault -/

@[simp] theorem State.raiseFault_x (s : State) (c : Cause) (w : CmdWord) : (s.raiseFault c w).x = s.x := rfl

@[simp] theorem State.raiseFault_q (s : State) (c : Cause) (w : CmdWord) : (s.raiseFault c w).q = s.q := rfl

@[simp] theorem State.raiseFault_status (s : State) (c : Cause) (w : CmdWord) : (s.raiseFault c w).status = s.status.withFault c := rfl

@[simp] theorem State.raiseFault_fcmd (s : State) (c : Cause) (w : CmdWord) : (s.raiseFault c w).fcmd = w.setWidth 64 := rfl

@[simp] theorem State.raiseFault_lastcmd (s : State) (c : Cause) (w : CmdWord) : (s.raiseFault c w).lastcmd = s.lastcmd := rfl

@[simp] theorem State.raiseFault_cmdIndex (s : State) (c : Cause) (w : CmdWord) : (s.raiseFault c w).cmdIndex = s.cmdIndex := rfl

@[simp] theorem State.raiseFault_inbox (s : State) (c : Cause) (w : CmdWord) : (s.raiseFault c w).inbox = s.inbox := rfl

@[simp] theorem State.raiseFault_response (s : State) (c : Cause) (w : CmdWord) : (s.raiseFault c w).response = s.response := rfl

@[simp] theorem State.raiseFault_params (s : State) (c : Cause) (w : CmdWord) : (s.raiseFault c w).params = s.params := rfl

/-! ### resetUnit -/

@[simp] theorem State.resetUnit_x (s : State) : (s.resetUnit).x = Vector.replicate 16 0#128 := rfl

@[simp] theorem State.resetUnit_q (s : State) : (s.resetUnit).q = Vector.replicate 8 (Quad.zero s.params 128#8) := rfl

@[simp] theorem State.resetUnit_status (s : State) : (s.resetUnit).status = Status.clear := rfl

@[simp] theorem State.resetUnit_fcmd (s : State) : (s.resetUnit).fcmd = 0 := rfl

@[simp] theorem State.resetUnit_lastcmd (s : State) : (s.resetUnit).lastcmd = 0 := rfl

@[simp] theorem State.resetUnit_cmdIndex (s : State) : (s.resetUnit).cmdIndex = s.cmdIndex := rfl

@[simp] theorem State.resetUnit_inbox (s : State) : (s.resetUnit).inbox = s.inbox := rfl

@[simp] theorem State.resetUnit_response (s : State) : (s.resetUnit).response = s.response := rfl

@[simp] theorem State.resetUnit_params (s : State) : (s.resetUnit).params = s.params := rfl

/-! ### complete -/

@[simp] theorem State.complete_x (s : State) (i : Instr) : (s.complete i).x = s.x := rfl

@[simp] theorem State.complete_q (s : State) (i : Instr) : (s.complete i).q = s.q := rfl

@[simp] theorem State.complete_status (s : State) (i : Instr) : (s.complete i).status = s.status := rfl

@[simp] theorem State.complete_fcmd (s : State) (i : Instr) : (s.complete i).fcmd = s.fcmd := rfl

@[simp] theorem State.complete_lastcmd (s : State) (i : Instr) : (s.complete i).lastcmd = (encode i).setWidth 64 := rfl

@[simp] theorem State.complete_cmdIndex (s : State) (i : Instr) : (s.complete i).cmdIndex = s.cmdIndex := rfl

@[simp] theorem State.complete_inbox (s : State) (i : Instr) : (s.complete i).inbox = s.inbox := rfl

@[simp] theorem State.complete_response (s : State) (i : Instr) : (s.complete i).response = s.response := rfl

@[simp] theorem State.complete_params (s : State) (i : Instr) : (s.complete i).params = s.params := rfl

/-! ### countCommand -/

@[simp] theorem State.countCommand_x (s : State) : (s.countCommand).x = s.x := rfl

@[simp] theorem State.countCommand_q (s : State) : (s.countCommand).q = s.q := rfl

@[simp] theorem State.countCommand_status (s : State) : (s.countCommand).status = s.status := rfl

@[simp] theorem State.countCommand_fcmd (s : State) : (s.countCommand).fcmd = s.fcmd := rfl

@[simp] theorem State.countCommand_lastcmd (s : State) : (s.countCommand).lastcmd = s.lastcmd := rfl

@[simp] theorem State.countCommand_cmdIndex (s : State) : (s.countCommand).cmdIndex = s.cmdIndex + 1 := rfl

@[simp] theorem State.countCommand_inbox (s : State) : (s.countCommand).inbox = s.inbox := rfl

@[simp] theorem State.countCommand_response (s : State) : (s.countCommand).response = s.response := rfl

@[simp] theorem State.countCommand_params (s : State) : (s.countCommand).params = s.params := rfl

/-! ### respond -/

@[simp] theorem State.respond_x (s : State) (r : Response) : (s.respond r).x = s.x := rfl

@[simp] theorem State.respond_q (s : State) (r : Response) : (s.respond r).q = s.q := rfl

@[simp] theorem State.respond_status (s : State) (r : Response) : (s.respond r).status = s.status := rfl

@[simp] theorem State.respond_fcmd (s : State) (r : Response) : (s.respond r).fcmd = s.fcmd := rfl

@[simp] theorem State.respond_lastcmd (s : State) (r : Response) : (s.respond r).lastcmd = s.lastcmd := rfl

@[simp] theorem State.respond_cmdIndex (s : State) (r : Response) : (s.respond r).cmdIndex = s.cmdIndex := rfl

@[simp] theorem State.respond_inbox (s : State) (r : Response) : (s.respond r).inbox = s.inbox := rfl

@[simp] theorem State.respond_response (s : State) (r : Response) : (s.respond r).response = r := rfl

@[simp] theorem State.respond_params (s : State) (r : Response) : (s.respond r).params = s.params := rfl

/-! ### push -/

@[simp] theorem State.push_x (s : State) (e : HostEvent) : (s.push e).x = s.x := rfl

@[simp] theorem State.push_q (s : State) (e : HostEvent) : (s.push e).q = s.q := rfl

@[simp] theorem State.push_status (s : State) (e : HostEvent) : (s.push e).status = s.status := rfl

@[simp] theorem State.push_fcmd (s : State) (e : HostEvent) : (s.push e).fcmd = s.fcmd := rfl

@[simp] theorem State.push_lastcmd (s : State) (e : HostEvent) : (s.push e).lastcmd = s.lastcmd := rfl

@[simp] theorem State.push_cmdIndex (s : State) (e : HostEvent) : (s.push e).cmdIndex = s.cmdIndex := rfl

@[simp] theorem State.push_inbox (s : State) (e : HostEvent) : (s.push e).inbox = e :: s.inbox := rfl

@[simp] theorem State.push_response (s : State) (e : HostEvent) : (s.push e).response = s.response := rfl

@[simp] theorem State.push_params (s : State) (e : HostEvent) : (s.push e).params = s.params := rfl

/-! ### Status.withOvf -/

@[simp] theorem Status.withOvf_ovf (st : Status) (c : Bool) : (st.withOvf c).ovf = c := rfl

@[simp] theorem Status.withOvf_qof (st : Status) (c : Bool) : (st.withOvf c).qof = st.qof := rfl

@[simp] theorem Status.withOvf_quf (st : Status) (c : Bool) : (st.withOvf c).quf = st.quf := rfl

@[simp] theorem Status.withOvf_qnv (st : Status) (c : Bool) : (st.withOvf c).qnv = st.qnv := rfl

@[simp] theorem Status.withOvf_qcut (st : Status) (c : Bool) : (st.withOvf c).qcut = st.qcut := rfl

@[simp] theorem Status.withOvf_fault (st : Status) (c : Bool) : (st.withOvf c).fault = st.fault := rfl

@[simp] theorem Status.withOvf_cause (st : Status) (c : Bool) : (st.withOvf c).cause = st.cause := rfl

@[simp] theorem Status.withOvf_cnt (st : Status) (c : Bool) : (st.withOvf c).cnt = st.cnt := rfl

/-! ### Status.withQFlags -/

@[simp] theorem Status.withQFlags_ovf (st : Status) (f : QFlags) : (st.withQFlags f).ovf = st.ovf := rfl

@[simp] theorem Status.withQFlags_qof (st : Status) (f : QFlags) : (st.withQFlags f).qof = f.qof := rfl

@[simp] theorem Status.withQFlags_quf (st : Status) (f : QFlags) : (st.withQFlags f).quf = f.quf := rfl

@[simp] theorem Status.withQFlags_qnv (st : Status) (f : QFlags) : (st.withQFlags f).qnv = f.qnv := rfl

@[simp] theorem Status.withQFlags_qcut (st : Status) (f : QFlags) : (st.withQFlags f).qcut = f.qcut := rfl

@[simp] theorem Status.withQFlags_fault (st : Status) (f : QFlags) : (st.withQFlags f).fault = st.fault := rfl

@[simp] theorem Status.withQFlags_cause (st : Status) (f : QFlags) : (st.withQFlags f).cause = st.cause := rfl

@[simp] theorem Status.withQFlags_cnt (st : Status) (f : QFlags) : (st.withQFlags f).cnt = st.cnt := rfl

/-! ### Status.withCnt -/

@[simp] theorem Status.withCnt_ovf (st : Status) (n : BitVec 8) : (st.withCnt n).ovf = st.ovf := rfl

@[simp] theorem Status.withCnt_qof (st : Status) (n : BitVec 8) : (st.withCnt n).qof = st.qof := rfl

@[simp] theorem Status.withCnt_quf (st : Status) (n : BitVec 8) : (st.withCnt n).quf = st.quf := rfl

@[simp] theorem Status.withCnt_qnv (st : Status) (n : BitVec 8) : (st.withCnt n).qnv = st.qnv := rfl

@[simp] theorem Status.withCnt_qcut (st : Status) (n : BitVec 8) : (st.withCnt n).qcut = st.qcut := rfl

@[simp] theorem Status.withCnt_fault (st : Status) (n : BitVec 8) : (st.withCnt n).fault = st.fault := rfl

@[simp] theorem Status.withCnt_cause (st : Status) (n : BitVec 8) : (st.withCnt n).cause = st.cause := rfl

@[simp] theorem Status.withCnt_cnt (st : Status) (n : BitVec 8) : (st.withCnt n).cnt = n := rfl

/-! ### Status.withFault -/

@[simp] theorem Status.withFault_ovf (st : Status) (c : Cause) : (st.withFault c).ovf = st.ovf := rfl

@[simp] theorem Status.withFault_qof (st : Status) (c : Cause) : (st.withFault c).qof = st.qof := rfl

@[simp] theorem Status.withFault_quf (st : Status) (c : Cause) : (st.withFault c).quf = st.quf := rfl

@[simp] theorem Status.withFault_qnv (st : Status) (c : Cause) : (st.withFault c).qnv = st.qnv := rfl

@[simp] theorem Status.withFault_qcut (st : Status) (c : Cause) : (st.withFault c).qcut = st.qcut := rfl

@[simp] theorem Status.withFault_fault (st : Status) (c : Cause) : (st.withFault c).fault = true := rfl

@[simp] theorem Status.withFault_cause (st : Status) (c : Cause) : (st.withFault c).cause = c := rfl

@[simp] theorem Status.withFault_cnt (st : Status) (c : Cause) : (st.withFault c).cnt = st.cnt := rfl

/-! ### Status.clear and State.reset -/

@[simp] theorem Status.clear_ovf : Status.clear.ovf = false := rfl

@[simp] theorem Status.clear_qof : Status.clear.qof = false := rfl

@[simp] theorem Status.clear_quf : Status.clear.quf = false := rfl

@[simp] theorem Status.clear_qnv : Status.clear.qnv = false := rfl

@[simp] theorem Status.clear_qcut : Status.clear.qcut = false := rfl

@[simp] theorem Status.clear_fault : Status.clear.fault = false := rfl

@[simp] theorem Status.clear_cause : Status.clear.cause = .none := rfl

@[simp] theorem Status.clear_cnt : Status.clear.cnt = 0 := rfl

@[simp] theorem State.reset_status : State.reset.status = Status.clear := rfl

@[simp] theorem State.reset_params : State.reset.params = Config.defaultParams := rfl

/-! ### Register reads after writes -/

@[simp] theorem State.readX_writeX_same (s : State) (i : XReg) (v : U128) : (s.writeX i v).readX i = v := by
  simp [State.readX, State.writeX]

theorem State.readX_writeX_ne (s : State) {i k : XReg} (v : U128) (h : k ≠ i) :
    (s.writeX i v).readX k = s.readX k := by
  have h' : i.val ≠ k.val := fun e => h (Fin.ext e.symm)
  simp [State.readX, State.writeX, h']

@[simp] theorem State.readQ_writeQ_same (s : State) (j : QReg) (v : Quad) : (s.writeQ j v).readQ j = v := by
  simp [State.readQ, State.writeQ]

theorem State.readQ_writeQ_ne (s : State) {j k : QReg} (v : Quad) (h : k ≠ j) :
    (s.writeQ j v).readQ k = s.readQ k := by
  have h' : j.val ≠ k.val := fun e => h (Fin.ext e.symm)
  simp [State.readQ, State.writeQ, h']

@[simp] theorem State.readQ_writeX (s : State) (i : XReg) (v : U128) (j : QReg) :
    (s.writeX i v).readQ j = s.readQ j := rfl

@[simp] theorem State.readX_writeQ (s : State) (j : QReg) (v : Quad) (i : XReg) :
    (s.writeQ j v).readX i = s.readX i := rfl

@[simp] theorem State.readX_complete (s : State) (i : Instr) (k : XReg) : (s.complete i).readX k = s.readX k := rfl

@[simp] theorem State.readQ_complete (s : State) (i : Instr) (k : QReg) : (s.complete i).readQ k = s.readQ k := rfl

@[simp] theorem State.readX_raiseFault (s : State) (c : Cause) (w : CmdWord) (k : XReg) :
    (s.raiseFault c w).readX k = s.readX k := rfl

@[simp] theorem State.readQ_raiseFault (s : State) (c : Cause) (w : CmdWord) (k : QReg) :
    (s.raiseFault c w).readQ k = s.readQ k := rfl

@[simp] theorem State.halted_eq (s : State) : s.halted = s.status.fault := rfl

end Sys2Proof.Machine
end

