-- ==== Sys2Proof/Laws/U128.lean ====
section
/-! SUPPORT. One lemma per shared U128 operation, saying once what it computes, so that later proofs need not unfold
it. -/

namespace Sys2Proof.Machine

/-! ## Halves -/

theorem lowHalf_toNat (v : U128) : (lowHalf v).toNat = v.toNat % 2 ^ 64 := by
  simp [lowHalf, BitVec.extractLsb'_toNat]

theorem highHalf_toNat (v : U128) : (highHalf v).toNat = v.toNat / 2 ^ 64 := by
  have h := v.isLt
  simp only [highHalf, BitVec.extractLsb'_toNat, Nat.shiftRight_eq_div_pow]
  omega

theorem joinHalves_toNat (hi lo : Word64) : (joinHalves hi lo).toNat = hi.toNat * 2 ^ 64 + lo.toNat := by
  have h1 := hi.isLt
  have h2 := lo.isLt
  have e : (hi.setWidth 128 <<< 64).toNat = hi.toNat <<< 64 := by
    rw [BitVec.toNat_shiftLeft, BitVec.toNat_setWidth, Nat.shiftLeft_eq, Nat.shiftLeft_eq]
    omega
  rw [joinHalves, BitVec.toNat_or, e, BitVec.toNat_setWidth, Nat.mod_eq_of_lt (by omega : lo.toNat < 2 ^ 128),
    ← Nat.shiftLeft_add_eq_or_of_lt h2, Nat.shiftLeft_eq]

/-- Every U128 is the join of its halves (spec/00_scope.md R8). -/
theorem toNat_eq_halves (v : U128) : v.toNat = (highHalf v).toNat * 2 ^ 64 + (lowHalf v).toNat := by
  rw [highHalf_toNat, lowHalf_toNat]
  omega

@[simp] theorem lowHalf_joinHalves (hi lo : Word64) : lowHalf (joinHalves hi lo) = lo := by
  apply BitVec.eq_of_toNat_eq
  have := lo.isLt
  rw [lowHalf_toNat, joinHalves_toNat]
  omega

@[simp] theorem highHalf_joinHalves (hi lo : Word64) : highHalf (joinHalves hi lo) = hi := by
  apply BitVec.eq_of_toNat_eq
  have := lo.isLt
  rw [highHalf_toNat, joinHalves_toNat]
  omega

@[simp] theorem joinHalves_halves (v : U128) : joinHalves (highHalf v) (lowHalf v) = v := by
  apply BitVec.eq_of_toNat_eq
  rw [joinHalves_toNat, ← toNat_eq_halves]

theorem msbOnly_toNat : msbOnly.toNat = 2 ^ 127 := by decide

theorem msbSet_iff (v : U128) : msbSet v = true ↔ 2 ^ 127 ≤ v.toNat := by
  rw [msbSet, BitVec.getLsbD, Nat.testBit_eq_decide_div_mod_eq]
  have := v.isLt
  simp only [decide_eq_true_eq]
  omega

/-! ## Add and subtract -/

/-- The half-word sum is the sum modulo 2^128, and its flag the carry out. -/
theorem addHalves_eq (a b : U128) :
    addHalves a b = (BitVec.ofNat 128 (a.toNat + b.toNat), decide (2 ^ 128 ≤ a.toNat + b.toNat)) := by
  have ha := toNat_eq_halves a
  have hb := toNat_eq_halves b
  have h1 := (lowHalf a).isLt
  have h2 := (lowHalf b).isLt
  have h3 := (highHalf a).isLt
  have h4 := (highHalf b).isLt
  simp only [addHalves]
  refine Prod.ext (BitVec.eq_of_toNat_eq ?_) ?_
  · simp only [joinHalves_toNat, BitVec.toNat_ofNat]
    omega
  · rw [← Bool.decide_or]
    apply decide_eq_decide.mpr
    omega

/-- The half-word difference is the difference modulo 2^128, and its flag the borrow. -/
theorem subHalves_eq (a b : U128) : subHalves a b = (a - b, decide (a.toNat < b.toNat)) := by
  have ha := toNat_eq_halves a
  have hb := toNat_eq_halves b
  have h1 := (lowHalf a).isLt
  have h2 := (lowHalf b).isLt
  have h3 := (highHalf a).isLt
  have h4 := (highHalf b).isLt
  simp only [subHalves]
  refine Prod.ext (BitVec.eq_of_toNat_eq ?_) (decide_eq_decide.mpr ?_)
  · simp only [joinHalves_toNat, BitVec.toNat_sub, BitVec.toNat_ofInt]
    split <;> omega
  · split <;> omega

/-! ## Multiply -/

/-- The four partial products make the exact product. -/
theorem mul64Exact_eq (u v : Word64) : mul64Exact u v = u.toNat * v.toNat := by
  simp only [mul64Exact]
  conv_rhs => rw [← Nat.div_add_mod u.toNat (2 ^ 32), ← Nat.div_add_mod v.toNat (2 ^ 32)]
  ring

/-- The arithmetic of the three partial products, in plain numbers. -/
theorem three_products_bounds (ah al bh bl : Nat) (h1 : al < 2 ^ 64) (h2 : bl < 2 ^ 64) :
    (ah * bh * 2 ^ 64 + ah * bl + al * bh) / 2 ^ 64 ≤ (ah * 2 ^ 64 + al) * (bh * 2 ^ 64 + bl) / 2 ^ 128 ∧
    (ah * 2 ^ 64 + al) * (bh * 2 ^ 64 + bl) / 2 ^ 128 ≤ (ah * bh * 2 ^ 64 + ah * bl + al * bh) / 2 ^ 64 + 1 ∧
    ah * bh + ah * bl / 2 ^ 64 + al * bh / 2 ^ 64 ≤ (ah * 2 ^ 64 + al) * (bh * 2 ^ 64 + bl) / 2 ^ 128 ∧
    (ah * 2 ^ 64 + al) * (bh * 2 ^ 64 + bl) / 2 ^ 128 ≤
      ah * bh + ah * bl / 2 ^ 64 + al * bh / 2 ^ 64 + 2 := by
  have hp : (ah * 2 ^ 64 + al) * (bh * 2 ^ 64 + bl) =
      ah * bh * 2 ^ 128 + (ah * bl + al * bh) * 2 ^ 64 + al * bl := by ring
  have hl : al * bl ≤ (2 ^ 64 - 1) * (2 ^ 64 - 1) := Nat.mul_le_mul (by omega) (by omega)
  rw [hp]
  have key : ∀ hh m1 m2 ll : Nat, ll ≤ (2 ^ 64 - 1) * (2 ^ 64 - 1) →
      (hh * 2 ^ 64 + m1 + m2) / 2 ^ 64 ≤ (hh * 2 ^ 128 + (m1 + m2) * 2 ^ 64 + ll) / 2 ^ 128 ∧
      (hh * 2 ^ 128 + (m1 + m2) * 2 ^ 64 + ll) / 2 ^ 128 ≤ (hh * 2 ^ 64 + m1 + m2) / 2 ^ 64 + 1 ∧
      hh + m1 / 2 ^ 64 + m2 / 2 ^ 64 ≤ (hh * 2 ^ 128 + (m1 + m2) * 2 ^ 64 + ll) / 2 ^ 128 ∧
      (hh * 2 ^ 128 + (m1 + m2) * 2 ^ 64 + ll) / 2 ^ 128 ≤ hh + m1 / 2 ^ 64 + m2 / 2 ^ 64 + 2 := by
    intro hh m1 m2 ll h
    omega
  exact key _ _ _ _ hl

/-- The accumulation of MULHI is at most the exact high half and less than it by at most 1, or by at most 2 without the
cross carry (spec/41_u128_multiply.md R123, properties 1 and 2). -/
theorem mulHiAcc_bounds (c : Bool) (a b : U128) :
    mulHiAcc c a b ≤ a.toNat * b.toNat / 2 ^ 128 ∧
      a.toNat * b.toNat / 2 ^ 128 ≤ mulHiAcc c a b + (if c then 1 else 2) := by
  obtain ⟨h1, h2, h3, h4⟩ := three_products_bounds (highHalf a).toNat (lowHalf a).toNat (highHalf b).toNat
    (lowHalf b).toNat (lowHalf a).isLt (lowHalf b).isLt
  rw [toNat_eq_halves a, toNat_eq_halves b]
  cases c
  · simp only [mulHiAcc, mul64Exact_eq, Bool.false_eq_true, if_false]
    exact ⟨h3, h4⟩
  · simp only [mulHiAcc, mul64Exact_eq, if_true]
    exact ⟨h1, h2⟩

/-- The accumulation of MULHI fits 128 bits: there is never a carry out (spec/41_u128_multiply.md R123, property 1). -/
theorem mulHiAcc_lt (c : Bool) (a b : U128) : mulHiAcc c a b < 2 ^ 128 := by
  have h := (mulHiAcc_bounds c a b).1
  have hm : a.toNat * b.toNat < 2 ^ 128 * 2 ^ 128 := Nat.mul_lt_mul'' a.isLt b.isLt
  have : a.toNat * b.toNat / 2 ^ 128 < 2 ^ 128 := Nat.div_lt_of_lt_mul hm
  omega

theorem mulHi_carry (c : Bool) (a b : U128) : (mulHi c a b).2 = false :=
  Nat.testBit_lt_two_pow (mulHiAcc_lt c a b)

theorem mulHi_toNat (c : Bool) (a b : U128) : (mulHi c a b).1.toNat = mulHiAcc c a b := by
  rw [mulHi, BitVec.toNat_ofNat]
  exact Nat.mod_eq_of_lt (mulHiAcc_lt c a b)

/-! ## Shift and normalise -/

theorem shiftLeft_toNat (v : U128) (n : Nat) : (shiftLeft v n).toNat = v.toNat * 2 ^ n % 2 ^ 128 := by
  unfold shiftLeft
  split
  · simp [BitVec.toNat_shiftLeft, Nat.shiftLeft_eq]
  · rename_i h
    have : 2 ^ 128 ∣ v.toNat * 2 ^ n := Dvd.dvd.mul_left (Nat.pow_dvd_pow 2 (by omega)) _
    rw [Nat.mod_eq_zero_of_dvd this]
    rfl

theorem shiftRight_toNat (v : U128) (n : Nat) : (shiftRight v n).toNat = v.toNat / 2 ^ n := by
  unfold shiftRight
  split
  · simp [Nat.shiftRight_eq_div_pow]
  · rename_i h
    have : v.toNat < 2 ^ n := lt_of_lt_of_le v.isLt (Nat.pow_le_pow_right (by norm_num) (by omega))
    simp [Nat.div_eq_of_lt this]

theorem shiftRightMsb_toNat (v : U128) : (shiftRightMsb v).toNat = v.toNat / 2 + 2 ^ 127 := by
  have := v.isLt
  rw [shiftRightMsb, BitVec.toNat_add, BitVec.toNat_ushiftRight, Nat.shiftRight_eq_div_pow, msbOnly_toNat, pow_one]
  exact Nat.mod_eq_of_lt (by omega)

/-- The top bit of a value that is not 0: it is set, and no higher bit is. -/
theorem topBit_spec (v : U128) (h : v ≠ 0) :
    topBit v ≤ 127 ∧ 2 ^ topBit v ≤ v.toNat ∧ v.toNat < 2 ^ (topBit v + 1) := by
  have hv := toNat_eq_halves v
  have h1 := (lowHalf v).isLt
  have h2 := (highHalf v).isLt
  unfold topBit msbIndex
  split
  · rename_i hh
    have hn : (highHalf v).toNat ≠ 0 := fun e => hh (BitVec.eq_of_toNat_eq (by simpa using e))
    have a1 := Nat.log2_self_le hn
    have a2 := Nat.lt_log2_self (n := (highHalf v).toNat)
    have a3 : Nat.log2 (highHalf v).toNat < 64 := (Nat.log2_lt hn).mpr h2
    rw [show 64 + Nat.log2 (highHalf v).toNat + 1 = 64 + (Nat.log2 (highHalf v).toNat + 1) by omega, Nat.pow_add,
      Nat.pow_add]
    have key : ∀ n l p q : Nat, n = (highHalf v).toNat * 2 ^ 64 + l → l < 2 ^ 64 → p ≤ (highHalf v).toNat →
        (highHalf v).toNat < q → 2 ^ 64 * p ≤ n ∧ n < 2 ^ 64 * q := by
      intro n l p q
      omega
    exact ⟨by omega, key _ _ _ _ hv h1 a1 a2⟩
  · rename_i hh
    have hz : (highHalf v).toNat = 0 := by
      have : highHalf v = 0 := by simpa using hh
      simp [this]
    have hn : (lowHalf v).toNat ≠ 0 := by
      intro e
      exact h (BitVec.eq_of_toNat_eq (by simp [hv, e, hz]))
    have a1 := Nat.log2_self_le hn
    have a2 := Nat.lt_log2_self (n := (lowHalf v).toNat)
    have a3 : Nat.log2 (lowHalf v).toNat < 64 := (Nat.log2_lt hn).mpr h1
    have e : v.toNat = (lowHalf v).toNat := by omega
    rw [e]
    exact ⟨by omega, a1, a2⟩

/-- What `normalize` answers for a value that is not 0: a mantissa with bit 127 set, which is the value shifted by the
count, no set bit lost (spec/42_u128_shift_normalize.md R143). -/
theorem normalize_spec (v : U128) (h : v ≠ 0) :
    (normalize v).2 ≤ 127 ∧ (normalize v).1.toNat = v.toNat * 2 ^ (normalize v).2 ∧
      2 ^ 127 ≤ (normalize v).1.toNat := by
  obtain ⟨h1, h2, h3⟩ := topBit_spec v h
  have hk : topBit v + (127 - topBit v) = 127 := by omega
  have hlo : 2 ^ 127 ≤ v.toNat * 2 ^ (127 - topBit v) := by
    calc 2 ^ 127 = 2 ^ topBit v * 2 ^ (127 - topBit v) := by rw [← Nat.pow_add, hk]
      _ ≤ _ := Nat.mul_le_mul_right _ h2
  have hhi : v.toNat * 2 ^ (127 - topBit v) < 2 ^ 128 := by
    calc v.toNat * 2 ^ (127 - topBit v) < 2 ^ (topBit v + 1) * 2 ^ (127 - topBit v) :=
          Nat.mul_lt_mul_of_pos_right h3 (Nat.two_pow_pos _)
      _ = 2 ^ 128 := by rw [← Nat.pow_add, show topBit v + 1 + (127 - topBit v) = 128 by omega]
  have e : (normalize v).1.toNat = v.toNat * 2 ^ (127 - topBit v) := by
    simp only [normalize, BitVec.toNat_shiftLeft, Nat.shiftLeft_eq]
    exact Nat.mod_eq_of_lt hhi
  exact ⟨by simp [normalize], e, by rw [e]; exact hlo⟩

end Sys2Proof.Machine
end

