-- ==== Sys2Proof/Laws/Ops.lean ====
section
/-! SUPPORT. One lemma per shared operation of Machine/Ops.lean and Machine/QuadPath.lean, saying once what it can
answer. -/

namespace Sys2Proof.Machine

/-! ## The frame of a command -/

/-- Every command answers a next state (spec/60_exceptions.md R221): the state itself when halted, the completed effect,
or the raised fault. -/
theorem State.command_cases (s : State) (i : Instr) (effect : Except Cause State) :
    (s.halted = true ∧ s.command i effect = .next s) ∨
      (s.halted = false ∧ ∃ t, effect = .ok t ∧ s.command i effect = .next (t.complete i)) ∨
      (s.halted = false ∧ ∃ c, effect = .error c ∧ s.command i effect = .next (s.raiseFault c (encode i))) := by
  unfold State.command
  cases h : s.halted
  · cases effect with
    | ok t => exact .inr (.inl ⟨rfl, t, rfl, by simp⟩)
    | error c => exact .inr (.inr ⟨rfl, c, rfl, by simp⟩)
  · exact .inl ⟨rfl, by simp⟩

theorem State.command_halted {s : State} (h : s.status.fault = true) (i : Instr) (effect : Except Cause State) :
    s.command i effect = .next s := by
  simp [State.command, State.halted, h]

theorem State.command_ok {s : State} (h : s.status.fault = false) (i : Instr) (t : State) :
    s.command i (.ok t) = .next (t.complete i) := by
  simp [State.command, State.halted, h]

theorem State.command_error {s : State} (h : s.status.fault = false) (i : Instr) (c : Cause) :
    s.command i (.error c) = .next (s.raiseFault c (encode i)) := by
  simp [State.command, State.halted, h]

/-- What a Q command with one Q operand does (spec/43_quad_arith.md R161). -/
theorem State.unaryQ_cases (s : State) (d a : QReg) (f : Quad → QResult) :
    ((s.readQ a).valid s.params = true ∧ s.unaryQ d a f = .ok (s.writeQResult d (f (s.readQ a)))) ∨
      ((s.readQ a).valid s.params = false ∧ s.unaryQ d a f = .error .badQuadOperand) := by
  unfold State.unaryQ
  cases h : (s.readQ a).valid s.params <;> simp

/-- What a Q command with two Q operands does (spec/43_quad_arith.md R161, spec/60_exceptions.md R222). -/
theorem State.binaryQ_cases (s : State) (d a b : QReg) (f : Quad → Quad → QResult) :
    ((s.readQ a).valid s.params = true ∧ (s.readQ b).valid s.params = true ∧
        s.binaryQ d a b f = .ok (s.writeQResult d (f (s.readQ a) (s.readQ b)))) ∨
      (((s.readQ a).valid s.params = false ∨ (s.readQ b).valid s.params = false) ∧
        s.binaryQ d a b f = .error .badQuadOperand) := by
  unfold State.binaryQ
  cases h : (s.readQ a).valid s.params <;> cases h' : (s.readQ b).valid s.params <;> simp

/-! ## The Quad datapath -/

/-- The exponent clamp's three arms (spec/43_quad_arith.md R165). -/
theorem finish_cases (p : Params) (n : Bool) (e : Int) (m : U128) (s : BitVec 8) :
    (p.emaxInt ≤ e ∧ finish p n e m s = { val := Quad.inf p n s, flags := QFlags.overflow }) ∨
      (e < p.emaxInt ∧ e ≤ p.eminInt ∧ finish p n e m s = { val := Quad.zero p s, flags := QFlags.underflow }) ∨
      (e < p.emaxInt ∧ p.eminInt < e ∧
        finish p n e m s = QResult.plain { neg := n, exp := BitVec.ofInt 16 e, man := m, sig := s }) := by
  unfold finish
  split
  · exact .inl ⟨by assumption, rfl⟩
  · split
    · exact .inr (.inl ⟨by omega, by assumption, rfl⟩)
    · exact .inr (.inr ⟨by omega, by omega, rfl⟩)

/-- The aligner discards the bits shifted out (spec/43_quad_arith.md R164). -/
theorem align_cases (m : U128) (d : Nat) :
    (128 < d ∧ align m d = none) ∨ (d ≤ 128 ∧ ∃ t, align m d = some t ∧ t.toNat = m.toNat / 2 ^ d) := by
  unfold align
  split
  · exact .inl ⟨by assumption, rfl⟩
  · exact .inr ⟨by omega, _, rfl, shiftRight_toNat m d⟩

/-- The sum with its carry fold (spec/43_quad_arith.md R166): the mantissa is the sum, halved when it carries. -/
theorem addAligned_cases (p : Params) (n : Bool) (hi : Quad) (t : U128) (s : BitVec 8) :
    (hi.man.toNat + t.toNat < 2 ^ 128 ∧ ∃ m : U128, m.toNat = hi.man.toNat + t.toNat ∧
        addAligned p n hi t s = finish p n hi.expInt m s) ∨
      (2 ^ 128 ≤ hi.man.toNat + t.toNat ∧ ∃ m : U128, m.toNat = (hi.man.toNat + t.toNat) / 2 ∧
        addAligned p n hi t s = finish p n (hi.expInt + 1) m s) := by
  have h1 := hi.man.isLt
  have h2 := t.isLt
  simp only [addAligned, addHalves_eq]
  by_cases h : 2 ^ 128 ≤ hi.man.toNat + t.toNat
  · refine .inr ⟨h, shiftRightMsb (BitVec.ofNat 128 (hi.man.toNat + t.toNat)), ?_, if_pos (decide_eq_true h)⟩
    rw [shiftRightMsb_toNat, BitVec.toNat_ofNat]
    omega
  · refine .inl ⟨by omega, BitVec.ofNat 128 (hi.man.toNat + t.toNat), ?_, if_neg (by simpa using h)⟩
    rw [BitVec.toNat_ofNat]
    omega

/-- The difference and its renormalisation (spec/43_quad_arith.md R167). -/
theorem subAligned_cases (p : Params) (n : Bool) (big : Quad) (t : U128) (s : BitVec 8)
    (h : t.toNat ≤ big.man.toNat) :
    (big.man.toNat = t.toNat ∧ subAligned p n big t s = QResult.plain (Quad.zero p s)) ∨
      (t.toNat < big.man.toNat ∧ ∃ (k : Nat) (m : U128), k ≤ 127 ∧
        m.toNat = (big.man.toNat - t.toNat) * 2 ^ k ∧ 2 ^ 127 ≤ m.toNat ∧
        subAligned p n big t s = finish p n (big.expInt - k) m s) := by
  have e : (big.man - t).toNat = big.man.toNat - t.toNat := BitVec.toNat_sub_of_le h
  simp only [subAligned, subHalves_eq]
  by_cases hz : big.man - t = 0
  · have hz' : (big.man - t).toNat = 0 := by rw [hz]; rfl
    exact .inl ⟨by omega, if_pos hz⟩
  · have hz' : (big.man - t).toNat ≠ 0 := fun c => hz (BitVec.eq_of_toNat_eq c)
    obtain ⟨h1, h2, h3⟩ := normalize_spec _ hz
    exact .inr ⟨by omega, _, _, h1, by rw [h2, e], h3, if_neg hz⟩

/-- The finite product before the clamp (spec/43_quad_arith.md R171): the accumulation of MULHI, normalised by 0 or 1
position. -/
theorem mulFinite_cases (p : Params) (n : Bool) (a b : Quad) (s : BitVec 8)
    (ha : 2 ^ 127 ≤ a.man.toNat) (hb : 2 ^ 127 ≤ b.man.toNat) :
    ∃ (k : Nat) (m : U128), k ≤ 1 ∧ m.toNat = mulHiAcc p.crossCarry a.man b.man * 2 ^ k ∧ 2 ^ 127 ≤ m.toNat ∧
      mulFinite p n a b s = finish p n (a.expInt + b.expInt - k) m s := by
  have hacc : 2 ^ 126 ≤ mulHiAcc p.crossCarry a.man b.man := by
    have h1 : 2 ^ 63 ≤ (highHalf a.man).toNat := by rw [highHalf_toNat]; omega
    have h2 : 2 ^ 63 ≤ (highHalf b.man).toNat := by rw [highHalf_toNat]; omega
    have h3 : 2 ^ 63 * 2 ^ 63 ≤ (highHalf a.man).toNat * (highHalf b.man).toNat := Nat.mul_le_mul h1 h2
    have key : ∀ x y z : Nat, 2 ^ 63 * 2 ^ 63 ≤ x →
        2 ^ 126 ≤ (x * 2 ^ 64 + y + z) / 2 ^ 64 ∧ 2 ^ 126 ≤ x + y / 2 ^ 64 + z / 2 ^ 64 := by
      intro x y z
      omega
    simp only [mulHiAcc, mul64Exact_eq]
    split
    · exact (key _ _ _ h3).1
    · exact (key _ _ _ h3).2
  have hm := mulHi_toNat p.crossCarry a.man b.man
  have hz : (mulHi p.crossCarry a.man b.man).1 ≠ 0 := by
    intro c
    have : (mulHi p.crossCarry a.man b.man).1.toNat = 0 := by rw [c]; rfl
    omega
  obtain ⟨h1, h2, h3⟩ := normalize_spec _ hz
  refine ⟨_, _, ?_, by rw [h2, hm], h3, by simp [mulFinite, mulHi_carry]⟩
  by_contra hk
  have h4 := (normalize (mulHi p.crossCarry a.man b.man).1).1.isLt
  have h5 : 2 ^ 126 * 2 ^ 2 ≤ mulHiAcc p.crossCarry a.man b.man *
      2 ^ (normalize (mulHi p.crossCarry a.man b.man).1).2 :=
    Nat.mul_le_mul hacc (Nat.pow_le_pow_right (by norm_num) (by omega))
  rw [h2, hm] at h4
  omega

/-- Construction from a magnitude that is not 0 (spec/44_quad_round_convert.md R195): the mantissa is the value,
normalised by `k` positions, and the exponent is 128 - k. -/
theorem fromMagnitude_cases (p : Params) (n : Bool) (v : U128) :
    (v = 0 ∧ fromMagnitude p n v = Quad.zero p 128#8) ∨
      (v ≠ 0 ∧ ∃ (k : Nat) (m : U128), k ≤ 127 ∧ m.toNat = v.toNat * 2 ^ k ∧ 2 ^ 127 ≤ m.toNat ∧
        fromMagnitude p n v = { neg := n, exp := BitVec.ofInt 16 (128 - k), man := m, sig := 128#8 }) := by
  unfold fromMagnitude
  by_cases h : v = 0
  · exact .inl ⟨h, if_pos h⟩
  · obtain ⟨h1, h2, h3⟩ := normalize_spec v h
    exact .inr ⟨h, _, _, h1, h2, h3, if_neg h⟩

end Sys2Proof.Machine
end

