-- ==== Sys2Proof/Laws/PerInstr.lean ====
section
/-! SUPPORT. The statements proved constructor by constructor. `TableRow`: the encoding of a command matches the
pattern of its own row of spec/opcode_table.json under that row's mask (spec/30_encoding.md R77). -/

namespace Sys2Proof.Laws

/-- The row of the opcode table a command belongs to, by its place in `opRows`. -/
def rowNumber : Instr → Nat
  | .nop => 0
  | .add _ _ _ => 1
  | .sub _ _ _ => 2
  | .and _ _ _ => 3
  | .or _ _ _ => 4
  | .xor _ _ _ => 5
  | .not _ _ => 6
  | .mov _ _ => 7
  | .ldi _ _ => 8
  | .zext64 _ _ => 9
  | .mul64 _ _ _ => 10
  | .mulw _ _ _ => 11
  | .mul128 _ _ _ => 12
  | .mulhi _ _ _ => 13
  | .shl _ _ _ => 14
  | .shr _ _ _ => 15
  | .shrmsb _ _ => 16
  | .norm _ _ => 17
  | .qadd _ _ _ => 18
  | .qsub _ _ _ => 19
  | .qmul _ _ _ => 20
  | .qneg _ _ => 21
  | .qabs _ _ => 22
  | .qtrunc _ _ => 23
  | .qfloor _ _ => 24
  | .qceil _ _ => 25
  | .qround _ _ => 26
  | .qfromu _ _ => 27
  | .qfroms _ _ => 28
  | .qsetsig _ _ _ => 29

/-- The command's encoding is of its row: a row stands at its number, and the masked word is the row's pattern. -/
def TableRow.Statement (i : Instr) : Prop :=
  ∃ r, opRows[rowNumber i]? = some r ∧ encode i &&& r.mask = r.pattern

theorem TableRow.nop : TableRow.Statement .nop :=
  ⟨_, rfl, rfl⟩

theorem TableRow.add (d a b : XReg) : TableRow.Statement (.add d a b) :=
  ⟨_, rfl, wordR3_mask _ _ _ _⟩

theorem TableRow.sub (d a b : XReg) : TableRow.Statement (.sub d a b) :=
  ⟨_, rfl, wordR3_mask _ _ _ _⟩

theorem TableRow.and (d a b : XReg) : TableRow.Statement (.and d a b) :=
  ⟨_, rfl, wordR3_mask _ _ _ _⟩

theorem TableRow.or (d a b : XReg) : TableRow.Statement (.or d a b) :=
  ⟨_, rfl, wordR3_mask _ _ _ _⟩

theorem TableRow.xor (d a b : XReg) : TableRow.Statement (.xor d a b) :=
  ⟨_, rfl, wordR3_mask _ _ _ _⟩

theorem TableRow.not (d a : XReg) : TableRow.Statement (.not d a) :=
  ⟨_, rfl, wordR2_mask _ _ _⟩

theorem TableRow.mov (d a : XReg) : TableRow.Statement (.mov d a) :=
  ⟨_, rfl, wordR2_mask _ _ _⟩

theorem TableRow.ldi (d : XReg) (imm : BitVec 16) : TableRow.Statement (.ldi d imm) :=
  ⟨_, rfl, wordRI_mask _ _ _⟩

theorem TableRow.zext64 (d a : XReg) : TableRow.Statement (.zext64 d a) :=
  ⟨_, rfl, wordR2_mask _ _ _⟩

theorem TableRow.mul64 (d a b : XReg) : TableRow.Statement (.mul64 d a b) :=
  ⟨_, rfl, wordR3_mask _ _ _ _⟩

theorem TableRow.mulw (d a b : XReg) : TableRow.Statement (.mulw d a b) :=
  ⟨_, rfl, wordR3_mask _ _ _ _⟩

theorem TableRow.mul128 (d a b : XReg) : TableRow.Statement (.mul128 d a b) :=
  ⟨_, rfl, wordR3_mask _ _ _ _⟩

theorem TableRow.mulhi (d a b : XReg) : TableRow.Statement (.mulhi d a b) :=
  ⟨_, rfl, wordR3_mask _ _ _ _⟩

theorem TableRow.shl (d a : XReg) (n : BitVec 8) : TableRow.Statement (.shl d a n) :=
  ⟨_, rfl, wordRS_mask _ _ _ _⟩

theorem TableRow.shr (d a : XReg) (n : BitVec 8) : TableRow.Statement (.shr d a n) :=
  ⟨_, rfl, wordRS_mask _ _ _ _⟩

theorem TableRow.shrmsb (d a : XReg) : TableRow.Statement (.shrmsb d a) :=
  ⟨_, rfl, wordRS_one_mask _ _ _⟩

theorem TableRow.norm (d a : XReg) : TableRow.Statement (.norm d a) :=
  ⟨_, rfl, wordR2_mask _ _ _⟩

theorem TableRow.qadd (d a b : QReg) : TableRow.Statement (.qadd d a b) :=
  ⟨_, rfl, wordR3_qMask _ _ _ _⟩

theorem TableRow.qsub (d a b : QReg) : TableRow.Statement (.qsub d a b) :=
  ⟨_, rfl, wordR3_qMask _ _ _ _⟩

theorem TableRow.qmul (d a b : QReg) : TableRow.Statement (.qmul d a b) :=
  ⟨_, rfl, wordR3_qMask _ _ _ _⟩

theorem TableRow.qneg (d a : QReg) : TableRow.Statement (.qneg d a) :=
  ⟨_, rfl, wordR2_qMask _ _ _⟩

theorem TableRow.qabs (d a : QReg) : TableRow.Statement (.qabs d a) :=
  ⟨_, rfl, wordR2_qMask _ _ _⟩

theorem TableRow.qtrunc (d a : QReg) : TableRow.Statement (.qtrunc d a) :=
  ⟨_, rfl, wordR2_qMask _ _ _⟩

theorem TableRow.qfloor (d a : QReg) : TableRow.Statement (.qfloor d a) :=
  ⟨_, rfl, wordR2_qMask _ _ _⟩

theorem TableRow.qceil (d a : QReg) : TableRow.Statement (.qceil d a) :=
  ⟨_, rfl, wordR2_qMask _ _ _⟩

theorem TableRow.qround (d a : QReg) : TableRow.Statement (.qround d a) :=
  ⟨_, rfl, wordR2_qMask _ _ _⟩

theorem TableRow.qfromu (d : QReg) (a : XReg) : TableRow.Statement (.qfromu d a) :=
  ⟨_, rfl, wordR2_qxMask _ _ _⟩

theorem TableRow.qfroms (d : QReg) (a : XReg) : TableRow.Statement (.qfroms d a) :=
  ⟨_, rfl, wordR2_qxMask _ _ _⟩

theorem TableRow.qsetsig (d a : QReg) (n : BitVec 8) : TableRow.Statement (.qsetsig d a n) :=
  ⟨_, rfl, wordRS_qMask _ _ _ _⟩

end Sys2Proof.Laws
end

