-- ==== Sys2Proof/Laws/Port.lean ====
section
/-! SUPPORT. What a step and a bus access can answer, said once, so that later proofs need not unfold them. -/

namespace Sys2Proof.Machine

/-- A step with an event serves it. -/
theorem step_of_inbox_cons {s : State} {e : HostEvent} {rest : List HostEvent} (h : s.inbox = e :: rest) :
    step s = State.serve { s with inbox := rest } e := by
  simp [step, State.serveNext, h]

/-- A step without an event is idle. -/
theorem step_of_inbox_nil {s : State} (h : s.inbox = []) : step s = s.idle := by
  simp [step, State.serveNext, h]

/-- A bus access is refused when it is not one aligned word, faults when it is one outside the window, and otherwise is
the port request of its word (spec/00_scope.md R7, spec/20_memory.md R51, R55). -/
theorem State.serveBusAt_cases (s : State) (base : Nat) (a : BusAccess) :
    (busOneWord a = false ∧ s.serveBusAt base a = .refused .notOneAlignedWord) ∨
      (busOneWord a = true ∧ busInside base a = false ∧ s.serveBusAt base a = .fault .outsideWindow) ∨
      (busOneWord a = true ∧ busInside base a = true ∧
        s.serveBusAt base a = s.servePort (busRequest (busIndex base a) a.op)) := by
  unfold State.serveBusAt
  cases busOneWord a <;> cases busInside base a <;> simp

/-- One aligned word, in numbers. -/
theorem busOneWord_iff (a : BusAccess) : busOneWord a = true ↔ busSize a.op = 8 ∧ a.addr % 8 = 0 := by
  simp [busOneWord]

/-- Inside the window, in numbers. -/
theorem busInside_iff (base : Nat) (a : BusAccess) :
    busInside base a = true ↔ base ≤ a.addr ∧ a.addr + busSize a.op ≤ base + Config.windowBytes := by
  simp [busInside]

end Sys2Proof.Machine
end

