-- ==== Sys2Proof/Tests/Slice0.lean ====
section
/-! SUPPORT. The model's own tests. Every expected result comes from spec/, named in the comment: the encoding vectors
and programs of spec/95_test_vectors.md, the examples of the command rules, or a word written out from the format table
of spec/30_encoding.md R72. -/

namespace Sys2Proof.Tests

open Sys2Proof.Machine

/-! ## WellFormed: each check refuses an ill-formed term (R77, R81) -/

theorem test_wellFormed_refuses_qsetsig_129 : Instr.wellFormed (.qsetsig 2 1 129#8) = false := by decide

theorem test_wellFormed_accepts_qsetsig_128 : Instr.wellFormed (.qsetsig 2 1 128#8) = true := by decide

theorem test_pseudo_refuses_ldi32_x15 : Pseudo.wellFormed (.ldi32 15 7#32) = false := by decide

/-! ## Decoding: one word per command, written out from its encoding (R72, R75) -/

/-- R111. -/
theorem test_decode_nop : decode 0x00000000#32 = .ok .nop := by decide

/-- 95 section 2. -/
theorem test_decode_add : decode 0x01312000#32 = .ok (.add 3 1 2) := by decide

/-- R72. -/
theorem test_decode_sub : decode 0x02F1E000#32 = .ok (.sub 15 1 14) := by decide

/-- R72. -/
theorem test_decode_and : decode 0x03312000#32 = .ok (.and 3 1 2) := by decide

/-- R72. -/
theorem test_decode_or : decode 0x0444F000#32 = .ok (.or 4 4 15) := by decide

/-- R72. -/
theorem test_decode_xor : decode 0x05111000#32 = .ok (.xor 1 1 1) := by decide

/-- P2 step 8. -/
theorem test_decode_not : decode 0x06330000#32 = .ok (.not 3 3) := by decide

/-- P1 step 3. -/
theorem test_decode_mov : decode 0x07210000#32 = .ok (.mov 2 1) := by decide

/-- 95 section 2. -/
theorem test_decode_ldi : decode 0x08F0FFFF#32 = .ok (.ldi 15 0xFFFF#16) := by decide

/-- R72. -/
theorem test_decode_zext64 : decode 0x092A0000#32 = .ok (.zext64 2 10) := by decide

/-- P4 step 3. -/
theorem test_decode_mul64 : decode 0x10512000#32 = .ok (.mul64 5 1 2) := by decide

/-- P4 step 4. -/
theorem test_decode_mulw : decode 0x11612000#32 = .ok (.mulw 6 1 2) := by decide

/-- P4 step 1. -/
theorem test_decode_mul128 : decode 0x12312000#32 = .ok (.mul128 3 1 2) := by decide

/-- P4 step 2. -/
theorem test_decode_mulhi : decode 0x13412000#32 = .ok (.mulhi 4 1 2) := by decide

/-- P1 step 2. -/
theorem test_decode_shl : decode 0x18110070#32 = .ok (.shl 1 1 112#8) := by decide

/-- P1 step 6. -/
theorem test_decode_shr : decode 0x19540064#32 = .ok (.shr 5 4 100#8) := by decide

/-- P1 step 5. -/
theorem test_decode_shrmsb : decode 0x1A430001#32 = .ok (.shrmsb 4 3) := by decide

/-- P1 step 7. -/
theorem test_decode_norm : decode 0x1C650000#32 = .ok (.norm 6 5) := by decide

/-- P3 step 7. -/
theorem test_decode_qadd : decode 0x20320000#32 = .ok (.qadd 3 2 0) := by decide

/-- P2 step 12. -/
theorem test_decode_qsub : decode 0x21534000#32 = .ok (.qsub 5 3 4) := by decide

/-- P3 step 8. -/
theorem test_decode_qmul : decode 0x22625000#32 = .ok (.qmul 6 2 5) := by decide

/-- P2 step 6. -/
theorem test_decode_qneg : decode 0x23320000#32 = .ok (.qneg 3 2) := by decide

/-- R72. -/
theorem test_decode_qabs : decode 0x24760000#32 = .ok (.qabs 7 6) := by decide

/-- P3 step 10. -/
theorem test_decode_qtrunc : decode 0x28460000#32 = .ok (.qtrunc 4 6) := by decide

/-- R72. -/
theorem test_decode_qfloor : decode 0x29170000#32 = .ok (.qfloor 1 7) := by decide

/-- R72. -/
theorem test_decode_qceil : decode 0x2A200000#32 = .ok (.qceil 2 0) := by decide

/-- P3 step 9. -/
theorem test_decode_qround : decode 0x2B760000#32 = .ok (.qround 7 6) := by decide

/-- 95 section 2. -/
theorem test_decode_qfromu : decode 0x30090000#32 = .ok (.qfromu 0 9) := by decide

/-- P2 step 11. -/
theorem test_decode_qfroms : decode 0x31430000#32 = .ok (.qfroms 4 3) := by decide

/-- P3 step 11. -/
theorem test_decode_qsetsig : decode 0x34330064#32 = .ok (.qsetsig 3 3 100#8) := by decide

/-- The illegal words of spec/95_test_vectors.md section 2. -/
theorem test_decode_illegal :
    decode 0x08F1FFFF#32 = .error .illegalField ∧ decode 0x01312001#32 = .error .illegalField ∧
    decode 0x0A000000#32 = .error .reservedOpcode ∧ decode 0xFF000000#32 = .error .reservedOpcode ∧
    decode 0x1A210002#32 = .error .illegalField ∧ decode 0x20800000#32 = .error .illegalField ∧
    decode 0x30800000#32 = .error .illegalField ∧ decode 0x34210081#32 = .error .illegalCount := by decide

/-- No two rows of the opcode table share an opcode (R75). -/
theorem test_rows_have_distinct_opcodes : (opRows.map fun r => opField r.pattern).Nodup := by decide

/-- R70: a table word is one word of 32 bits. -/
theorem test_decodeTableWord_qsetsig : decodeTableWord 32 0x34210064 = some (.qsetsig 2 1 100#8) := by decide

/-! ## One step per command -/

/-- The reset state with X1 and X2, or Q1 and Q2, set, and every U128 flag and Q bit at `true` or 77, so that a flag a
command leaves shows. -/
def withX (a b : U128) : State :=
  { State.reset with
    x := (State.reset.x.set 1 a).set 2 b
    status := { Status.clear with ovf := true, qof := true, quf := true, qnv := true, qcut := true, cnt := 77 } }

def withQ (a b : Quad) : State :=
  { withX 0 0 with q := (State.reset.q.set 1 a).set 2 b }

/-- The state after one command word. -/
def after (s : State) (w : CmdWord) : Option State :=
  match step (s.push (cmdWrite w)) with
  | .next t => some t
  | .fault _ => none
  | .refused _ => none

/-- X[i], OVF and CNT after one command word. -/
def xAfter (s : State) (w : CmdWord) (i : XReg) : Option (U128 × Bool × BitVec 8) :=
  (after s w).map fun t => (t.readX i, t.status.ovf, t.status.cnt)

/-- Q[j] and the four Q bits after one command word. -/
def qAfter (s : State) (w : CmdWord) (j : QReg) : Option (Quad × QFlags) :=
  (after s w).map fun t =>
    (t.readQ j, { qof := t.status.qof, quf := t.status.quf, qnv := t.status.qnv, qcut := t.status.qcut })

/-- A Quad whose mantissa has the leading byte `top`, then zeros. -/
def quad (n : Bool) (e : Int) (top : Nat) (s : Nat) : Quad :=
  { neg := n, exp := BitVec.ofInt 16 e, man := BitVec.ofNat 128 (top * 2 ^ 120), sig := BitVec.ofNat 8 s }

def allOnes : U128 := BitVec.allOnes 128

/-- ADD-1. -/
theorem test_add_wraps : xAfter (withX allOnes 1) 0x01312000#32 3 = some (0, true, 77) := by decide

/-- ADD-3. -/
theorem test_add_carries_across_halves : xAfter (withX 0xffffffffffffffff 1) 0x01312000#32 3 = some (0x10000000000000000, false, 77) := by decide

/-- SUB-1. -/
theorem test_sub_borrows : xAfter (withX 0 1) 0x02312000#32 3 = some (allOnes, true, 77) := by decide

/-- SUB-2. -/
theorem test_sub_borrows_across_halves : xAfter (withX 0x10000000000000000 1) 0x02312000#32 3 = some (0xFFFFFFFFFFFFFFFF, false, 77) := by decide

/-- AND-1. -/
theorem test_and : xAfter (withX 0xFF00 0x0FF0) 0x03312000#32 3 = some (0x0F00, true, 77) := by decide

/-- OR-1. -/
theorem test_or : xAfter (withX 0xFF00 0x0FF0) 0x04312000#32 3 = some (0xFFF0, true, 77) := by decide

/-- XOR-1. -/
theorem test_xor : xAfter (withX 0xFF00 0x0FF0) 0x05312000#32 3 = some (0xF0F0, true, 77) := by decide

/-- NOT-1. -/
theorem test_not : xAfter (withX 0 0) 0x06310000#32 3 = some (allOnes, true, 77) := by decide

/-- MOV-1. -/
theorem test_mov : xAfter (withX 5 0) 0x07310000#32 3 = some (5, true, 77) := by decide

/-- LDI-1. -/
theorem test_ldi : xAfter (withX 0 0) 0x0840FFFF#32 4 = some (0xFFFF, true, 77) := by decide

/-- ZEXT-1. -/
theorem test_zext64 : xAfter (withX allOnes 0) 0x09310000#32 3 = some (0xFFFFFFFFFFFFFFFF, true, 77) := by decide

/-- MUL64-2. -/
theorem test_mul64 : xAfter (withX allOnes 2) 0x10312000#32 3 = some (0x1FFFFFFFFFFFFFFFE, false, 77) := by decide

/-- MULW-3. -/
theorem test_mulw_ignores_high_half : xAfter (withX 3 0x10000000000000007) 0x11312000#32 3 = some (21, false, 77) := by decide

/-- MULW-2. -/
theorem test_mulw_overflows : xAfter (withX allOnes allOnes) 0x11312000#32 3 = some (0xFFFFFFFFFFFFFFFF0000000000000001, true, 77) := by decide

/-- MUL128-2. -/
theorem test_mul128 : xAfter (withX allOnes allOnes) 0x12312000#32 3 = some (1, true, 77) := by decide

/-- MULHI-2. -/
theorem test_mulhi : xAfter (withX allOnes allOnes) 0x13312000#32 3 = some (0xFFFFFFFFFFFFFFFFFFFFFFFFFFFFFFFD, false, 77) := by decide

/-- MULHI-3. -/
theorem test_mulhi_cross_carry : xAfter (withX 0x8000000000000000ffffffffffffffff 0x8000000000000000ffffffffffffffff) 0x13312000#32 3 = some (0x4000000000000000FFFFFFFFFFFFFFFF, false, 77) := by decide

/-- SHL-4. -/
theorem test_shl_64 : xAfter (withX 0xffffffffffffffff 0) 0x18310040#32 3 = some (0xFFFFFFFFFFFFFFFF0000000000000000, true, 77) := by decide

/-- SHL-2. -/
theorem test_shl_128 : xAfter (withX 1 0) 0x18310080#32 3 = some (0, true, 77) := by decide

/-- SHR-3. -/
theorem test_shr_127 : xAfter (withX 0x80000000000000000000000000000000 0) 0x1931007F#32 3 = some (1, true, 77) := by decide

/-- SHRMSB-3. -/
theorem test_shrmsb : xAfter (withX 6 0) 0x1A310001#32 3 = some (0x80000000000000000000000000000003, true, 77) := by decide

/-- NORM-3. -/
theorem test_norm : xAfter (withX 0x48d000000000000000000 0) 0x1C310000#32 3 = some (0x91A00000000000000000000000000000, true, 45) := by decide

/-- NORM-5. -/
theorem test_norm_low_half : xAfter (withX 0xffffffffffffffff 0) 0x1C310000#32 3 = some (0xFFFFFFFFFFFFFFFF0000000000000000, true, 64) := by decide

/-- MULHI-3 with MULHI_CROSS_CARRY = false. -/
theorem test_mulhi_without_cross_carry :
    (mulHi false 0x8000000000000000ffffffffffffffff 0x8000000000000000ffffffffffffffff).1 = 0x4000000000000000FFFFFFFFFFFFFFFE := by decide

/-- R111: NOP writes nothing but LASTCMD, here over a LASTCMD that is not 0. -/
theorem test_nop :
    (after { State.reset with lastcmd := 0x0810C000 } 0).map (fun t => (t.lastcmd, t.status)) =
      some (0, Status.clear) := by decide

/-- QADD-2. -/
theorem test_qadd_carry_fold :
    qAfter (withQ (quad false 1 0xC0 128) (quad false 1 0xC0 128)) 0x20312000#32 3 = some (quad false 2 0xC0 128, QFlags.clear) := by decide

/-- QADD-15. -/
theorem test_qadd_cutoff :
    qAfter (withQ (quad false 10 0x80 128) (quad false (-119) 0x80 60)) 0x20312000#32 3 = some (quad false 10 0x80 60, QFlags.cutoff) := by decide

/-- QSUB-2. -/
theorem test_qsub_swaps :
    qAfter (withQ (quad false 0 0xC0 128) (quad false 1 0x80 128)) 0x21312000#32 3 = some (quad true (-1) 0x80 128, QFlags.clear) := by decide

/-- QSUB-10. -/
theorem test_qsub_underflows :
    qAfter (withQ (quad false (-32767) 0xC0 128) (quad false (-32767) 0x80 128)) 0x21312000#32 3 = some (quad false (-32768) 0 128, QFlags.underflow) := by decide

/-- QMUL-1. -/
theorem test_qmul :
    qAfter (withQ (quad true 2 0x80 128) (quad false 2 0xC0 128)) 0x22312000#32 3 = some (quad true 3 0xC0 128, QFlags.clear) := by decide

/-- QMUL-10. -/
theorem test_qmul_zero_times_infinity :
    qAfter (withQ (quad false (-32768) 0 128) (quad false 32767 0x80 128)) 0x22312000#32 3 = some (quad false 32767 0 128, QFlags.invalid) := by decide

/-- QNEG-1. -/
theorem test_qneg_zero :
    qAfter (withQ (quad false (-32768) 0 50) (quad false 1 0x80 128)) 0x23310000#32 3 = some (quad false (-32768) 0 50, QFlags.clear) := by decide

/-- QNEG-4. -/
theorem test_qneg :
    qAfter (withQ (quad false 3 0xA0 128) (quad false 1 0x80 128)) 0x23310000#32 3 = some (quad true 3 0xA0 128, QFlags.clear) := by decide

/-- QABS-1. -/
theorem test_qabs_infinity :
    qAfter (withQ (quad true 32767 0x80 128) (quad false 1 0x80 128)) 0x24310000#32 3 = some (quad false 32767 0x80 128, QFlags.clear) := by decide

/-- QABS-2. -/
theorem test_qabs_nan :
    qAfter (withQ (quad true 32767 0x05 77) (quad false 1 0x80 128)) 0x24310000#32 3 = some (quad false 32767 0 77, QFlags.clear) := by decide

/-- RND-4. -/
theorem test_qtrunc :
    qAfter (withQ (quad true 2 0xE0 128) (quad false 1 0x80 128)) 0x28310000#32 3 = some (quad true 2 0xC0 128, QFlags.clear) := by decide

/-- RND-7. -/
theorem test_qtrunc_small :
    qAfter (withQ (quad true 0 0xC0 128) (quad false 1 0x80 128)) 0x28310000#32 3 = some (quad false (-32768) 0 128, QFlags.clear) := by decide

/-- RND-4. -/
theorem test_qfloor_carries :
    qAfter (withQ (quad true 2 0xE0 128) (quad false 1 0x80 128)) 0x29310000#32 3 = some (quad true 3 0x80 128, QFlags.clear) := by decide

/-- RND-11. -/
theorem test_qfloor_small :
    qAfter (withQ (quad true (-199) 0x80 128) (quad false 1 0x80 128)) 0x29310000#32 3 = some (quad true 1 0x80 128, QFlags.clear) := by decide

/-- RND-13. -/
theorem test_qceil :
    qAfter (withQ (quad false 1 0xC0 128) (quad false 1 0x80 128)) 0x2A310000#32 3 = some (quad false 2 0x80 128, QFlags.clear) := by decide

/-- RND-9. -/
theorem test_qceil_small :
    qAfter (withQ (quad true (-1) 0x80 128) (quad false 1 0x80 128)) 0x2A310000#32 3 = some (quad false (-32768) 0 128, QFlags.clear) := by decide

/-- RND-1. -/
theorem test_qround_tie_to_even :
    qAfter (withQ (quad false 2 0xA0 128) (quad false 1 0x80 128)) 0x2B310000#32 3 = some (quad false 2 0x80 128, QFlags.clear) := by decide

/-- RND-5. -/
theorem test_qround_tie_of_one_half :
    qAfter (withQ (quad false 0 0x80 128) (quad false 1 0x80 128)) 0x2B310000#32 3 = some (quad false (-32768) 0 128, QFlags.clear) := by decide

/-- QSETSIG-3. -/
theorem test_qsetsig_raises_budget :
    qAfter (withQ (quad true 32767 0x05 77) (quad false 1 0x80 128)) 0x34310080#32 3 = some (quad false 32767 0 128, QFlags.clear) := by decide

/-- QSETSIG-1. -/
theorem test_qsetsig :
    qAfter (withQ (quad false 3 0xA0 128) (quad false 1 0x80 128)) 0x34310064#32 3 = some (quad false 3 0xA0 100, QFlags.clear) := by decide

/-- QFROMU-3. -/
theorem test_qfromu : qAfter (withX 5 0) 0x30310000#32 3 = some (quad false 3 0xA0 128, QFlags.clear) := by decide

/-- QFROMS-3: the source's -672. -/
theorem test_qfroms :
    qAfter (withX 0xFFFFFFFFFFFFFD60 0) 0x31310000#32 3 = some (quad true 10 0xA8 128, QFlags.clear) := by decide

/-- QFROMS-4: the high half is ignored. -/
theorem test_qfroms_ignores_high_half :
    qAfter (withX 0x10000000000000003 0) 0x31310000#32 3 = some (quad false 2 0xC0 128, QFlags.clear) := by decide

/-! ## Faults, the halted unit and reset (F-1 to F-7) -/

/-- F-1, P6 steps 2 and 5: NORM of 0. -/
theorem test_norm_zero_faults :
    (after { State.reset with lastcmd := 0x08100009 } 0x1C200000).map
      (fun t => (t.status.word, t.fcmd, t.lastcmd)) = some (0x380, 0x1C200000, 0x08100009) := by decide

/-- P6 step 10: an illegal command. -/
theorem test_illegal_command_faults :
    (after State.reset 0x20800000).map (fun t => (t.status.word, t.fcmd)) = some (0x180, 0x20800000) := by decide

/-- F-3: an operand that is not normalised; FAULT with CAUSE 2 (R220) beside the flags and CNT as they stood. -/
theorem test_bad_quad_operand_faults :
    (after (withQ (quad false 5 0x40 128) (quad false 1 0x80 128)) 0x20012000).map
      (fun t => (t.status.word, t.fcmd, t.readQ 0 == State.reset.readQ 0)) =
      some (0x4D029F, 0x20012000, true) := by decide

/-- A halted unit for the tests: F-1's. -/
def haltedState : State :=
  { State.reset with status := { Status.clear with fault := true, cause := .normZero }, fcmd := 0x1C200000 }

/-- F-6: a command to a halted unit. -/
theorem test_halted_ignores_command : after haltedState 0x08300007 = some { haltedState with
    cmdIndex := 1, response := .written } := by decide

/-- F-7: the soft reset out of the halted condition. -/
theorem test_soft_reset : step (haltedState.push (hostWrite 4 1)) = .next { State.reset with
    response := .written } := rfl

/-! ## The register window (spec/95_test_vectors.md section 2, meta words) -/

theorem test_metaWord_of_one_and_a_half : (quad false 1 0xC0 128).metaWord = 0x80000001 := by decide

theorem test_metaWord_of_minus_672 : (quad true 10 0xA8 128).metaWord = 0x8001000A := by decide

/-- R52: 0x2A8 is Q5.man.hi and 0x1F8 is X15.hi. -/
theorem test_window_map : windowReg 85 = .manHi 5 ∧ windowReg 63 = .xHi 15 ∧ windowReg 95 = .reserved := by decide

/-- R7 (BRIDGE), R55, at base 1024: a read of 4 bytes is refused, so is one of 8 bytes at base + 1020, over the window's
end; one of 8 bytes at base + 24 reads ID, and one at base + 1024 is outside. -/
theorem test_bus_access :
    (match State.reset.serveBusAt 1024 ⟨1048, .read 4⟩ with | .refused r => r == .notOneAlignedWord | _ => false) =
      true ∧
    (match State.reset.serveBusAt 1024 ⟨2044, .read 8⟩ with | .refused r => r == .notOneAlignedWord | _ => false) =
      true ∧
    (match State.reset.serveBusAt 1024 ⟨1048, .read 8⟩ with
      | .next t => t.response == .readData 0x0000000155313238 | _ => false) = true ∧
    (match State.reset.serveBusAt 1024 ⟨2048, .read 8⟩ with | .fault r => r == .outsideWindow | _ => false) =
      true := by decide

/-! ## The assembler (R80, R81) -/

theorem test_assemble_qsetsig : assembleLine 0 "qsetsig q2, q1, 100" = some [0x34210064#32] := by decide

theorem test_assemble_ldi : assembleLine 0 "LDI x4, 0xFFFF" = some [0x0840FFFF#32] := by decide

theorem test_assemble_ldi32 : assembleLine 0 "LDI32 x4, 0xFFFF0001" =
    some [0x0840FFFF#32, 0x18440010#32, 0x08F00001#32, 0x0444F000#32] := by decide

theorem test_assemble_refuses_x16 : assembleLine 0 "MOV x16, x0" = none := by decide

/-! ## Witnesses: a concrete state and operands that meet the hypotheses of each statement that has some, each clause at
a boundary of its range -/

/-- A state whose next event is the given one. -/
def awaiting (s : State) (e : HostEvent) : State := { s with inbox := [e] }

/-- Unhalted, with NORM of 0 as its next command. -/
def normNext : State := awaiting State.reset (hostWrite 0 0x1C200000)

theorem test_witness_EncodeThenDecodeGivesTheCommand :
    Instr.wellFormed (.qsetsig 7 0 128#8) = true ∧ Instr.wellFormed (.ldi 15 0xFFFF#16) = true := by decide

theorem test_witness_DecodedWordIsItsCommandsEncoding : decode 0x34210080#32 = .ok (.qsetsig 2 1 128#8) := by decide

theorem test_witness_ReservedOpcodesRaiseIllegalCommand :
    ReservedOpcode ((0x0A000000#32).toNat / 2 ^ 24) ∧ ReservedOpcode ((0x35000000#32).toNat / 2 ^ 24) ∧
    ReservedOpcode ((0xFF000000#32).toNat / 2 ^ 24) ∧
    (awaiting State.reset (hostWrite 0 ((0x0A000000#32).setWidth 64))).inbox =
      hostWrite 0 ((0x0A000000#32).setWidth 64) :: [] ∧
    (awaiting State.reset (hostWrite 0 ((0x0A000000#32).setWidth 64))).status.fault = false := by
  unfold ReservedOpcode
  decide

theorem test_witness_IllegalFieldsRaiseIllegalCommand :
    (0x34210081#32).toNat / 2 ^ 24 ∈ definedOpcodes ∧ IllegalFields (0x34210081#32).toNat ∧
    ¬ IllegalFields (0x34210080#32).toNat ∧ IllegalFields (0x00000001#32).toNat ∧
    IllegalFields (0x1A210000#32).toNat ∧ IllegalFields (0x20080000#32).toNat ∧
    (awaiting State.reset (hostWrite 0 ((0x34210081#32).setWidth 64))).inbox =
      hostWrite 0 ((0x34210081#32).setWidth 64) :: [] ∧
    (awaiting State.reset (hostWrite 0 ((0x34210081#32).setWidth 64))).status.fault = false := by
  refine ⟨by decide, by norm_num [IllegalFields], by norm_num [IllegalFields], by norm_num [IllegalFields],
    by norm_num [IllegalFields], by norm_num [IllegalFields], rfl, rfl⟩

theorem test_witness_StepRunsTheDecodedCommand :
    normNext.inbox = hostWrite 0 0x1C200000 :: [] ∧
    decode (BitVec.ofNat 32 (0x1C200000#64).toNat) = .ok (.norm 2 0) := by decide

theorem test_witness_WithFetchWordRunsTheWordNext : decodeTableWord 32 0x01312000 = some (.add 3 1 2) := by decide

theorem test_witness_HaltedUnitDiscardsEveryCommand :
    (awaiting haltedState (hostWrite 0 0x08300007)).status.fault = true ∧
    (awaiting haltedState (hostWrite 0 0x08300007)).inbox = hostWrite 0 0x08300007 :: [] := by decide

theorem test_witness_FaultWritesOnlyFaultCauseAndFcmd :
    normNext.inbox = hostWrite 0 ((0x1C200000#32).setWidth 64) :: [] ∧ normNext.status.fault = false ∧
    decode 0x1C200000#32 = .ok (.norm 2 0) ∧ faultOf (.norm 2 0) (normNext.delivered []) ≠ .none ∧
    decode 0xFF000000#32 = .error .reservedOpcode := by decide

theorem test_witness_CommandsFaultExactlyAsListed :
    normNext.status.fault = false ∧ faultOf (.norm 2 0) normNext ≠ .none ∧ faultOf (.qneg 0 1) normNext = .none ∧
    faultOf (.qsetsig 0 1 129#8) normNext ≠ .none ∧ faultOf (.qsetsig 0 1 128#8) normNext = .none := by decide

theorem test_witness_ResetGivesTheTableOfResetValues :
    (awaiting haltedState .rst).inbox = .rst :: [] ∧
    (awaiting haltedState (hostWrite 4 1)).inbox = hostWrite 4 1 :: [] ∧ (1#64).toNat % 2 = 1 := by decide

theorem test_witness_CtrlWriteResetsOnlyWhenBitZeroIsOne :
    (awaiting haltedState (hostWrite 4 0xFFFFFFFFFFFFFFFF)).inbox = hostWrite 4 0xFFFFFFFFFFFFFFFF :: [] ∧
    (0xFFFFFFFFFFFFFFFF#64).toNat % 2 = 1 ∧ (0xFFFFFFFFFFFFFFFE#64).toNat % 2 = 0 := by decide

theorem test_witness_EveryStepKeepsTheUnitInvariant :
    haltedState.Inv ∧ step haltedState = .next haltedState :=
  ⟨⟨by decide, by decide, by decide, by decide, by decide, by decide, .nop, by decide, rfl⟩, rfl⟩

theorem test_witness_OnlyAResetLeavesTheHaltedCondition :
    (awaiting haltedState (hostWrite 4 1)).inbox = hostWrite 4 1 :: [] ∧
    (awaiting haltedState (hostWrite 4 1)).status.fault = true ∧ ResetsUnit (hostWrite 4 1) ∧
    ¬ ResetsUnit (hostWrite 4 2) ∧ ResetsUnit .rst ∧
    (∃ t, step (awaiting haltedState (hostWrite 4 1)) = .next t) ∧
    (∃ t, step (awaiting haltedState (hostWrite 4 2)) = .next t) := by
  refine ⟨rfl, rfl, ⟨rfl, rfl, rfl, rfl⟩, fun h => ?_, trivial, ⟨_, rfl⟩, ⟨_, rfl⟩⟩
  exact absurd h.2.2.2 (by decide)

theorem test_witness_CommandIndexCountsDeliveredCommands :
    normNext.inbox = hostWrite 0 0x1C200000 :: [] ∧ DeliversCommand (hostWrite 0 0x1C200000) ∧
    ¬ DeliversCommand (hostRead 0 0) ∧ (∃ t, step normNext = .next t) ∧
    (∃ t, step (awaiting State.reset (hostRead 0 0)) = .next t) := by
  refine ⟨rfl, ⟨rfl, rfl, rfl⟩, fun h => ?_, ⟨_, rfl⟩, ⟨_, rfl⟩⟩
  exact absurd h.2.1 (by decide)

theorem test_witness_StepsRemoveTheFirstEventAndKeepTheParameters : ∃ t, step normNext = .next t := ⟨_, rfl⟩

theorem test_witness_RegisterWindowFollowsTheMap :
    decode (BitVec.ofNat 32 ((0xFFFFFFFF00000000#64).toNat % 2 ^ 32)) = .ok .nop ∧
    decode (BitVec.ofNat 32 ((0xFFFFFFFFFF000000#64).toNat % 2 ^ 32)) = .error .reservedOpcode ∧
    (0xFFFFFFFF00000000#64).toNat % 2 = 0 ∧ (1#64).toNat % 2 = 1 := by decide

theorem test_witness_HalvesAreWrittenOneAtATime :
    ({ State.reset with inbox := [hostWrite 62 5, hostWrite 63 6] } : State).inbox =
      hostWrite (BitVec.ofNat 7 (32 + 2 * (15 : XReg).val)) 5 ::
        hostWrite (BitVec.ofNat 7 (33 + 2 * (15 : XReg).val)) 6 :: [] := by decide

/-- An eight-byte write. -/
def eightBytes : BusOp := .write [1, 0, 0, 0, 0, 0, 0, 0]

/-- The last word of the window; an access over the window's end; the first aligned word after it. -/
theorem test_witness_BusAccessIsOneAlignedWordOrRefused :
    (awaiting State.reset (.bus ⟨Config.base + 8 * (127#7).toNat, eightBytes⟩)).inbox =
      .bus ⟨Config.base + 8 * (127#7).toNat, eightBytes⟩ :: [] ∧
    (awaiting State.reset (.bus ⟨Config.base + 1020, .read 8⟩)).inbox = .bus ⟨Config.base + 1020, .read 8⟩ :: [] ∧
    (awaiting State.reset (.bus ⟨Config.base + 1024, .read 8⟩)).inbox = .bus ⟨Config.base + 1024, .read 8⟩ :: [] ∧
    busSize eightBytes = 8 ∧ busSize (.read 7) ≠ 8 ∧ (Config.base + 1020) % 8 ≠ 0 ∧
    (busSize (.read 8) = 8 ∧ (Config.base + 1024) % 8 = 0 ∧ Config.base + 1024 ≤ Config.base + 1024) := by
  refine ⟨rfl, rfl, rfl, rfl, by decide, ?_, rfl, ?_, le_rfl⟩ <;> simp only [Config.base, Config.windowBytes] <;> omega

theorem test_witness_PortRefusesBothAndIdlesOnNeither :
    (awaiting State.reset (.port ⟨0, true, true, 0⟩)).inbox = .port ⟨0, true, true, 0⟩ :: [] ∧
    (awaiting State.reset (.port ⟨0, false, false, 0⟩)).inbox = .port ⟨0, false, false, 0⟩ :: [] ∧
    State.reset.inbox = [] := by decide

/-- The one hypothesis of the statements about U128 commands, and of QFROMU and QFROMS with `test_witness_params`. -/
theorem test_witness_unhalted : State.reset.status.fault = false ∧ (withX allOnes 1).status.fault = false := by decide

theorem test_witness_params : State.reset.params.wf := by decide

/-- NORM's two clauses: X0 = 0, and the least and the greatest value that is not 0. -/
theorem test_witness_NormShiftsUntilTheTopBitIsSet :
    (withX 1 allOnes).status.fault = false ∧ (withX 1 allOnes).x[0].toNat = 0 ∧
    (withX 1 allOnes).x[1].toNat ≠ 0 ∧ (withX 1 allOnes).x[2].toNat ≠ 0 := by decide

/-- A state with two finite Quads, 1.5 and 1. -/
def twoFinite : State := withQ (quad false 1 0xC0 128) (quad false 1 0x80 0)

theorem test_witness_ValidQuadsAreInExactlyOneClass :
    Config.defaultParams.wf ∧ (quad false 1 0xC0 128).valid Config.defaultParams = true ∧
    (quad false 1 0xC0 128).cls Config.defaultParams = .finite := by decide

/-- The valid operands of QADD, QSUB, QMUL and, for the first, of the Q commands with one operand. -/
theorem test_witness_valid_operands :
    twoFinite.status.fault = false ∧ twoFinite.params.wf ∧ (twoFinite.q[1]).valid twoFinite.params = true ∧
    (twoFinite.q[2]).valid twoFinite.params = true ∧ (twoFinite.q[1]).cls twoFinite.params = .finite ∧
    (twoFinite.q[2]).sig.toNat ≤ 128 ∧ (twoFinite.q[2]).neg = false ∧ (twoFinite.q[2]).exp = 1#16 ∧
    (twoFinite.q[2]).man.toNat = 2 ^ 127 := by decide

/-- An invalid operand beside a valid one: a mantissa that is not normalised, and a budget of 129. -/
theorem test_witness_invalid_operands :
    (withQ (quad false 5 0x40 128) (quad false 1 0x80 129)).status.fault = false ∧
    ((withQ (quad false 5 0x40 128) (quad false 1 0x80 129)).q[1]).valid Config.defaultParams = false ∧
    ((withQ (quad false 5 0x40 128) (quad false 1 0x80 129)).q[2]).valid Config.defaultParams = false := by decide

theorem test_witness_QsetsigReplacesTheBudget :
    (128#8).toNat ≤ 128 ∧ 128 < (129#8).toNat ∧ twoFinite.status.fault = false := by decide

theorem test_witness_ResultBudgetsAreTheLeastOperandBudget :
    twoFinite.status.fault = false ∧ faultOf (.qadd 3 1 2) twoFinite = .none ∧ qDest (.qadd 3 1 2) = some 3 ∧
    sigOf (.qadd 3 1 2) twoFinite = some 0#8 := by decide

/-- For the statements about every command and its next state: QADD of two finite operands, NORM of 0. -/
theorem test_witness_every_command :
    twoFinite.params.wf ∧ twoFinite.status.fault = false ∧ (∃ t, exec (.qadd 3 1 2) twoFinite = .next t) ∧
    qDest (.qadd 3 1 2) = some 3 ∧ (∃ ab, addends (.qadd 3 1 2) twoFinite = some ab) ∧
    addends (.qneg 3 1) twoFinite = none ∧ isNorm (.qadd 3 1 2) = false ∧
    (∃ t, exec (.norm 3 0) twoFinite = .next t ∧ t.status.fault = true) :=
  ⟨by decide, rfl, ⟨_, rfl⟩, rfl, ⟨_, rfl⟩, rfl, rfl, ⟨_, rfl, rfl⟩⟩

/-- Byte 0x1F0 is not of X3, byte 0x260 is of Q3. -/
theorem test_witness_CommandsKeepOtherXQRegistersAndWindowBytesFrom0x18 :
    ¬ XBytes 3 0x1F0 ∧ QBytes 3 0x260 ∧ ¬ QBytes 3 0x278 := by
  unfold XBytes QBytes
  decide

theorem test_witness_PseudoInstructionsHaveTheirEffects :
    State.reset.status.fault = false ∧ (4 : XReg) ≠ 15 ∧ State.reset.x[0].toNat = 0 := by decide

end Sys2Proof.Tests
end

section
/-! PROOF. The decoder on every word, and decoding the encoding of a command (spec/30_encoding.md R72, R79). -/

namespace Sys2Proof

/-! ## Operand fields read back from each format -/

theorem dBits_wordR3 (op : BitVec 8) (d a b : BitVec 4) : (wordR3 op d a b).extractLsb' 20 4 = d := by
  unfold wordR3
  ext i hi
  interval_cases i <;> simp

theorem aBits_wordR3 (op : BitVec 8) (d a b : BitVec 4) : (wordR3 op d a b).extractLsb' 16 4 = a := by
  unfold wordR3
  ext i hi
  interval_cases i <;> simp

theorem bBits_wordR3 (op : BitVec 8) (d a b : BitVec 4) : (wordR3 op d a b).extractLsb' 12 4 = b := by
  unfold wordR3
  ext i hi
  interval_cases i <;> simp

theorem dBits_wordR2 (op : BitVec 8) (d a : BitVec 4) : (wordR2 op d a).extractLsb' 20 4 = d := by
  unfold wordR2
  ext i hi
  interval_cases i <;> simp

theorem aBits_wordR2 (op : BitVec 8) (d a : BitVec 4) : (wordR2 op d a).extractLsb' 16 4 = a := by
  unfold wordR2
  ext i hi
  interval_cases i <;> simp

theorem dBits_wordRI (op : BitVec 8) (d : BitVec 4) (imm : BitVec 16) :
    (wordRI op d imm).extractLsb' 20 4 = d := by
  unfold wordRI
  ext i hi
  interval_cases i <;> simp

theorem dBits_wordRS (op : BitVec 8) (d a : BitVec 4) (n : BitVec 8) :
    (wordRS op d a n).extractLsb' 20 4 = d := by
  unfold wordRS
  ext i hi
  interval_cases i <;> simp

theorem aBits_wordRS (op : BitVec 8) (d a : BitVec 4) (n : BitVec 8) :
    (wordRS op d a n).extractLsb' 16 4 = a := by
  unfold wordRS
  ext i hi
  interval_cases i <;> simp

/-- A Q-class field is the low three bits of its four (spec/30_encoding.md R73). -/
theorem extractLsb'_three (w : CmdWord) (k : Nat) : w.extractLsb' k 3 = (w.extractLsb' k 4).setWidth 3 := by
  ext i hi
  have : i < 4 := by omega
  simp [this]

@[simp] theorem toFin_qBits (r : QReg) : ((qBits r).setWidth 3).toFin = r := by
  simp [qBits]

@[simp] theorem xdField_wordR3 (op : BitVec 8) (d : XReg) (a b : BitVec 4) :
    xdField (wordR3 op (xBits d) a b) = d := congrArg BitVec.toFin (dBits_wordR3 op _ _ _)

@[simp] theorem xdField_wordR2 (op : BitVec 8) (d : XReg) (a : BitVec 4) :
    xdField (wordR2 op (xBits d) a) = d := congrArg BitVec.toFin (dBits_wordR2 op _ _)

@[simp] theorem xdField_wordRI (op : BitVec 8) (d : XReg) (imm : BitVec 16) :
    xdField (wordRI op (xBits d) imm) = d := congrArg BitVec.toFin (dBits_wordRI op _ _)

@[simp] theorem xdField_wordRS (op : BitVec 8) (d : XReg) (a : BitVec 4) (n : BitVec 8) :
    xdField (wordRS op (xBits d) a n) = d := congrArg BitVec.toFin (dBits_wordRS op _ _ _)

@[simp] theorem xaField_wordR3 (op : BitVec 8) (a : XReg) (d b : BitVec 4) :
    xaField (wordR3 op d (xBits a) b) = a := congrArg BitVec.toFin (aBits_wordR3 op _ _ _)

@[simp] theorem xaField_wordR2 (op : BitVec 8) (a : XReg) (d : BitVec 4) :
    xaField (wordR2 op d (xBits a)) = a := congrArg BitVec.toFin (aBits_wordR2 op _ _)

@[simp] theorem xaField_wordRS (op : BitVec 8) (a : XReg) (d : BitVec 4) (n : BitVec 8) :
    xaField (wordRS op d (xBits a) n) = a := congrArg BitVec.toFin (aBits_wordRS op _ _ _)

@[simp] theorem xbField_wordR3 (op : BitVec 8) (b : XReg) (d a : BitVec 4) :
    xbField (wordR3 op d a (xBits b)) = b := congrArg BitVec.toFin (bBits_wordR3 op _ _ _)

@[simp] theorem qdField_wordR3 (op : BitVec 8) (d : QReg) (a b : BitVec 4) :
    qdField (wordR3 op (qBits d) a b) = d := by
  rw [qdField, extractLsb'_three, dBits_wordR3, toFin_qBits]

@[simp] theorem qdField_wordR2 (op : BitVec 8) (d : QReg) (a : BitVec 4) :
    qdField (wordR2 op (qBits d) a) = d := by
  rw [qdField, extractLsb'_three, dBits_wordR2, toFin_qBits]

@[simp] theorem qdField_wordRS (op : BitVec 8) (d : QReg) (a : BitVec 4) (n : BitVec 8) :
    qdField (wordRS op (qBits d) a n) = d := by
  rw [qdField, extractLsb'_three, dBits_wordRS, toFin_qBits]

@[simp] theorem qaField_wordR3 (op : BitVec 8) (a : QReg) (d b : BitVec 4) :
    qaField (wordR3 op d (qBits a) b) = a := by
  rw [qaField, extractLsb'_three, aBits_wordR3, toFin_qBits]

@[simp] theorem qaField_wordR2 (op : BitVec 8) (a : QReg) (d : BitVec 4) :
    qaField (wordR2 op d (qBits a)) = a := by
  rw [qaField, extractLsb'_three, aBits_wordR2, toFin_qBits]

@[simp] theorem qaField_wordRS (op : BitVec 8) (a : QReg) (d : BitVec 4) (n : BitVec 8) :
    qaField (wordRS op d (qBits a) n) = a := by
  rw [qaField, extractLsb'_three, aBits_wordRS, toFin_qBits]

@[simp] theorem qbField_wordR3 (op : BitVec 8) (b : QReg) (d a : BitVec 4) :
    qbField (wordR3 op d a (qBits b)) = b := by
  rw [qbField, extractLsb'_three, bBits_wordR3, toFin_qBits]

/-! ## The decoder's answer, row by row -/

/-- No two rows of the opcode map share an opcode (spec/30_encoding.md R75). -/
theorem opRows_opcodes_nodup : (opRows.map fun r => opField r.pattern).Nodup := by decide

/-- Every row's mask holds the whole opcode. -/
theorem opField_mask {r : OpRow} (hr : r ∈ opRows) : opField r.mask = 0xFF#8 := by
  revert r
  decide

theorem opField_and (v w : CmdWord) : opField (v &&& w) = opField v &&& opField w := by
  ext i hi
  simp [opField]

/-- A word that matches a row has the row's opcode. -/
theorem opField_of_match {r : OpRow} {w : CmdWord} (hr : r ∈ opRows) (hw : w &&& r.mask = r.pattern) :
    opField r.pattern = opField w := by
  rw [← hw, opField_and, opField_mask hr]
  exact BitVec.and_allOnes

theorem findRow_eq_some_iff {w : CmdWord} {r : OpRow} :
    findRow w = some r ↔ r ∈ opRows ∧ opField r.pattern = opField w := by
  constructor
  · intro h
    exact ⟨List.mem_of_find?_eq_some h, by simpa using List.find?_some h⟩
  · rintro ⟨hr, hop⟩
    cases h : findRow w with
    | none => exact absurd hop (by simpa using List.find?_eq_none.mp h r hr)
    | some r' =>
      have hop' : opField r'.pattern = opField w := by simpa using List.find?_some h
      rw [List.inj_on_of_nodup_map opRows_opcodes_nodup (List.mem_of_find?_eq_some h) hr (hop'.trans hop.symm)]

/-- What a word decodes to (spec/30_encoding.md R79): the command of the one row it matches, unless it is a QSETSIG word
with an illegal count. -/
theorem decode_eq_ok_iff {w : CmdWord} {i : Instr} :
    decode w = .ok i ↔
      ∃ r ∈ opRows, w &&& r.mask = r.pattern ∧ countIllegal w = false ∧ r.build w = i := by
  constructor
  · intro h
    unfold decode at h
    split at h
    · cases h
    · next r hr =>
      split_ifs at h with hmask hcount
      exact ⟨r, (findRow_eq_some_iff.mp hr).1, not_not.mp hmask, by simpa using hcount, Except.ok.inj h⟩
  · rintro ⟨r, hr, hmask, hcount, rfl⟩
    have hrow : findRow w = some r := findRow_eq_some_iff.mpr ⟨hr, opField_of_match hr hmask⟩
    simp [decode, hrow, hmask, hcount]

/-- A row builds legal commands, but for QSETSIG's row and a count above 128. -/
theorem wellFormed_build {r : OpRow} (hr : r ∈ opRows) {w : CmdWord}
    (h : opField r.pattern = 0x34#8 → (n8Field w).toNat ≤ 128) : (r.build w).wellFormed = true := by
  revert r
  simp [opRows, rowsLogic, rowsMulShift, rowsQuadArith, rowsQuadRound, Instr.wellFormed, opField]

/-- The decoder answers legal commands only (spec/30_encoding.md R77). -/
theorem wellFormed_of_decode {w : CmdWord} {i : Instr} (h : decode w = .ok i) : i.wellFormed = true := by
  obtain ⟨r, hr, hmask, hcount, rfl⟩ := decode_eq_ok_iff.mp h
  refine wellFormed_build hr fun hop => ?_
  rw [opField_of_match hr hmask] at hop
  simpa [countIllegal, hop] using hcount

/-! ## Decoding an encoding -/

/-- Every command's word matches the command's row. -/
theorem encode_matches_row (i : Instr) : Laws.TableRow.Statement i :=
  match i with
  | .nop => Laws.TableRow.nop
  | .add d a b => Laws.TableRow.add d a b
  | .sub d a b => Laws.TableRow.sub d a b
  | .and d a b => Laws.TableRow.and d a b
  | .or d a b => Laws.TableRow.or d a b
  | .xor d a b => Laws.TableRow.xor d a b
  | .not d a => Laws.TableRow.not d a
  | .mov d a => Laws.TableRow.mov d a
  | .ldi d imm => Laws.TableRow.ldi d imm
  | .zext64 d a => Laws.TableRow.zext64 d a
  | .mul64 d a b => Laws.TableRow.mul64 d a b
  | .mulw d a b => Laws.TableRow.mulw d a b
  | .mul128 d a b => Laws.TableRow.mul128 d a b
  | .mulhi d a b => Laws.TableRow.mulhi d a b
  | .shl d a n => Laws.TableRow.shl d a n
  | .shr d a n => Laws.TableRow.shr d a n
  | .shrmsb d a => Laws.TableRow.shrmsb d a
  | .norm d a => Laws.TableRow.norm d a
  | .qadd d a b => Laws.TableRow.qadd d a b
  | .qsub d a b => Laws.TableRow.qsub d a b
  | .qmul d a b => Laws.TableRow.qmul d a b
  | .qneg d a => Laws.TableRow.qneg d a
  | .qabs d a => Laws.TableRow.qabs d a
  | .qtrunc d a => Laws.TableRow.qtrunc d a
  | .qfloor d a => Laws.TableRow.qfloor d a
  | .qceil d a => Laws.TableRow.qceil d a
  | .qround d a => Laws.TableRow.qround d a
  | .qfromu d a => Laws.TableRow.qfromu d a
  | .qfroms d a => Laws.TableRow.qfroms d a
  | .qsetsig d a n => Laws.TableRow.qsetsig d a n

/-- The fields a command's row reads from the command's word are its operands. -/
theorem build_encode (i : Instr) :
    (opRows[Laws.rowNumber i]?).map (fun r => r.build (encode i)) = some i := by
  cases i <;> simp [Laws.rowNumber, opRows, rowsLogic, rowsMulShift, rowsQuadArith, rowsQuadRound, encode]

/-- QSETSIG's count is the one operand whose value can make a word illegal. -/
theorem countIllegal_encode {i : Instr} (h : i.wellFormed = true) : countIllegal (encode i) = false := by
  cases i with
  | nop => decide
  | qsetsig d a n => simpa [encode, countIllegal, Instr.wellFormed] using h
  | _ => simp [encode, countIllegal]

/-- Decoding the word of a legal command gives the command back. -/
theorem decode_encode {i : Instr} (h : i.wellFormed = true) : decode (encode i) = .ok i := by
  obtain ⟨r, hrow, hmask⟩ := encode_matches_row i
  have hbuild : r.build (encode i) = i := by simpa [hrow] using build_encode i
  exact decode_eq_ok_iff.mpr ⟨r, List.mem_of_getElem? hrow, hmask, countIllegal_encode h, hbuild⟩

end Sys2Proof
end

section
/-! PROOF. What a command, an event and a step can do, said once, and from it the frame of every command
(spec/10_state.md), the unit's invariant, and bus accesses (spec/20_memory.md R51 to R55). -/

namespace Sys2Proof.Machine

/-! ## What a command can do -/

/-- The effects a command may hand to the frame of commands: what it may write, and a fault. -/
inductive Effect (i : Instr) (s : State) : Except Cause State → Prop
  | keeps : Effect i s (.ok s)
  | writesX {d : XReg} {v : U128} (hd : xDest i = some d) : Effect i s (.ok (s.writeX d v))
  | writesXOvf {d : XReg} {r : U128 × Bool} (hd : xDest i = some d) : Effect i s (.ok (s.writeXOvf d r))
  | writesXCnt {d : XReg} {r : U128 × Nat} (hd : xDest i = some d) (hnorm : isNorm i = true) (hcnt : r.2 ≤ 127) :
      Effect i s (.ok (s.writeXCnt d r))
  | writesQ {d : QReg} {r : QResult} (hd : qDest i = some d) : Effect i s (.ok (s.writeQResult d r))
  | faults {c : Cause} (hc : c ≠ .none) : Effect i s (.error c)

theorem unaryQ_effect {i : Instr} {d : QReg} (hd : qDest i = some d) (s : State) (a : QReg) (f : Quad → QResult) :
    Effect i s (s.unaryQ d a f) := by
  rcases s.unaryQ_cases d a f with ⟨-, h⟩ | ⟨-, h⟩ <;> rw [h]
  · exact .writesQ hd
  · exact .faults (by decide)

theorem binaryQ_effect {i : Instr} {d : QReg} (hd : qDest i = some d) (s : State) (a b : QReg)
    (f : Quad → Quad → QResult) : Effect i s (s.binaryQ d a b f) := by
  rcases s.binaryQ_cases d a b f with ⟨-, -, h⟩ | ⟨-, h⟩ <;> rw [h]
  · exact .writesQ hd
  · exact .faults (by decide)

/-- NORM's effect (spec/42_u128_shift_normalize.md R143). -/
theorem norm_effect (d a : XReg) (s : State) :
    Effect (.norm d a) s
      (if s.readX a = 0 then .error .normZero else .ok (s.writeXCnt d (normalize (s.readX a)))) := by
  split_ifs with h
  · exact .faults (by decide)
  · exact .writesXCnt rfl rfl (normalize_spec _ h).1

/-- QSETSIG's effect (spec/44_quad_round_convert.md R197). -/
theorem qsetsig_effect (d a : QReg) (n : BitVec 8) (s : State) (f : Quad → QResult) :
    Effect (.qsetsig d a n) s (if 128 < n.toNat then .error .illegalCmd else s.unaryQ d a f) := by
  split_ifs
  · exact .faults (by decide)
  · exact unaryQ_effect rfl s a f

/-- Every command runs in the frame of commands, with one of the effects a command may have. -/
theorem exec_effect (i : Instr) (s : State) : ∃ e, exec i s = s.command i e ∧ Effect i s e := by
  cases i with
  | nop => exact ⟨_, rfl, .keeps⟩
  | add | sub | mul64 | mulw | mul128 | mulhi => exact ⟨_, rfl, .writesXOvf rfl⟩
  | and | or | xor | not | mov | ldi | zext64 | shl | shr | shrmsb => exact ⟨_, rfl, .writesX rfl⟩
  | norm d a => exact ⟨_, rfl, norm_effect d a s⟩
  | qadd | qsub | qmul => exact ⟨_, rfl, binaryQ_effect rfl s _ _ _⟩
  | qneg | qabs | qtrunc | qfloor | qceil | qround => exact ⟨_, rfl, unaryQ_effect rfl s _ _⟩
  | qfromu | qfroms => exact ⟨_, rfl, .writesQ rfl⟩
  | qsetsig d a n => exact ⟨_, rfl, qsetsig_effect d a n s _⟩

/-- The states a command can leave: the same on a halted unit, a completed effect, or a raised fault
(spec/10_state.md R29, R32, spec/60_exceptions.md R221). -/
theorem exec_next_cases {i : Instr} {s t : State} (h : exec i s = .next t) :
    (s.status.fault = true ∧ t = s) ∨
      (s.status.fault = false ∧ ∃ u, Effect i s (.ok u) ∧ t = u.complete i) ∨
      (s.status.fault = false ∧ ∃ c, c ≠ .none ∧ t = s.raiseFault c (encode i)) := by
  obtain ⟨e, hexec, heffect⟩ := exec_effect i s
  rw [hexec] at h
  rcases s.command_cases i e with ⟨hs, hcmd⟩ | ⟨hs, u, rfl, hcmd⟩ | ⟨hs, c, rfl, hcmd⟩ <;>
    obtain rfl := Host.Outcome.next.inj (hcmd.symm.trans h)
  · exact .inl ⟨hs, rfl⟩
  · exact .inr (.inl ⟨hs, u, heffect, rfl⟩)
  · cases heffect with
    | faults hc => exact .inr (.inr ⟨hs, c, hc, rfl⟩)

/-! ## The frame of a command -/

/-- `t` differs from `s` at most in the command's destination register, STATUS, FCMD and LASTCMD. -/
structure SameBut (i : Instr) (s t : State) : Prop where
  x : ∀ k : XReg, xDest i ≠ some k → t.x[k.val] = s.x[k.val]
  q : ∀ k : QReg, qDest i ≠ some k → t.q[k.val] = s.q[k.val]
  cmdIndex : t.cmdIndex = s.cmdIndex
  inbox : t.inbox = s.inbox
  response : t.response = s.response
  params : t.params = s.params

/-- A write to the destination X register leaves the others. -/
theorem set_x_of_ne {i : Instr} {d : XReg} (hd : xDest i = some d) (s : State) (v : U128) (k : XReg)
    (hk : xDest i ≠ some k) : (s.x.set d.val v)[k.val] = s.x[k.val] :=
  s.readX_writeX_ne v fun h => hk (h ▸ hd)

/-- A write to the destination Q register leaves the others. -/
theorem set_q_of_ne {i : Instr} {d : QReg} (hd : qDest i = some d) (s : State) (v : Quad) (k : QReg)
    (hk : qDest i ≠ some k) : (s.q.set d.val v)[k.val] = s.q[k.val] :=
  s.readQ_writeQ_ne v fun h => hk (h ▸ hd)

theorem Effect.sameBut {i : Instr} {s u : State} (h : Effect i s (.ok u)) : SameBut i s u := by
  cases h with
  | keeps => exact ⟨fun _ _ => rfl, fun _ _ => rfl, rfl, rfl, rfl, rfl⟩
  | writesX hd | writesXOvf hd | writesXCnt hd =>
    exact ⟨set_x_of_ne hd s _, fun _ _ => rfl, rfl, rfl, rfl, rfl⟩
  | writesQ hd => exact ⟨fun _ _ => rfl, set_q_of_ne hd s _, rfl, rfl, rfl, rfl⟩

/-- Every command, halted, completing or faulting, keeps all but its destination, STATUS, FCMD and LASTCMD. -/
theorem exec_sameBut {i : Instr} {s t : State} (h : exec i s = .next t) : SameBut i s t := by
  rcases exec_next_cases h with ⟨-, rfl⟩ | ⟨-, u, heffect, rfl⟩ | ⟨-, c, -, rfl⟩
  · exact ⟨fun _ _ => rfl, fun _ _ => rfl, rfl, rfl, rfl, rfl⟩
  · obtain ⟨hx, hq, hindex, hinbox, hresponse, hparams⟩ := heffect.sameBut
    exact ⟨hx, hq, hindex, hinbox, hresponse, hparams⟩
  · exact ⟨fun _ _ => rfl, fun _ _ => rfl, rfl, rfl, rfl, rfl⟩

/-! ## The words of the window -/

/-- The word index at which a register of the window stands (spec/20_memory.md R52); the reserved words have no one
index. -/
def WindowReg.word : WindowReg → Option Nat
  | .cmd => some 0
  | .status => some 1
  | .fcmd => some 2
  | .id => some 3
  | .ctrl => some 4
  | .xLo k => some (32 + 2 * k.val)
  | .xHi k => some (33 + 2 * k.val)
  | .manLo j => some (64 + 4 * j.val)
  | .manHi j => some (65 + 4 * j.val)
  | .metaWd j => some (66 + 4 * j.val)
  | .reserved => none

/-- `windowReg` inverts `WindowReg.word`, on the 128 words of the window. -/
theorem word_windowReg :
    ∀ addr : WordIndex, windowReg addr = .reserved ∨ (windowReg addr).word = some addr.toNat := by
  decide

theorem toNat_wordIndex {off : Nat} (h : off < 1024) : (BitVec.ofNat 7 (off / 8) : WordIndex).toNat = off / 8 := by
  rw [BitVec.toNat_ofNat]
  omega

/-- A command leaves what the host reads at every word but LASTCMD's, STATUS's, FCMD's and the destination's. -/
theorem SameBut.readReg_eq {i : Instr} {s t : State} (h : SameBut i s t) {off : Nat} (hoff : 0x18 ≤ off)
    (hx : ∀ k : XReg, xDest i = some k → ¬ XBytes k off) (hq : ∀ k : QReg, qDest i = some k → ¬ QBytes k off)
    {r : WindowReg} (hr : r.word = some (off / 8)) : t.readReg r = s.readReg r := by
  cases r with
  | cmd | status | fcmd =>
    have hword := Option.some.inj hr
    omega
  | id | ctrl | reserved => rfl
  | xLo k | xHi k =>
    have hword := Option.some.inj hr
    have hbytes : XBytes k off := ⟨by omega, by omega⟩
    have hk : t.readX k = s.readX k := h.x k fun hd => hx k hd hbytes
    simp only [State.readReg, hk]
  | manLo k | manHi k | metaWd k =>
    have hword := Option.some.inj hr
    have hbytes : QBytes k off := ⟨by omega, by omega⟩
    have hk : t.readQ k = s.readQ k := h.q k fun hd => hq k hd hbytes
    simp only [State.readReg, hk]

/-- Settles O55: from what a command can do, and where the destination stands in the window. -/
theorem commandsKeepOtherXQRegistersAndWindowBytesFrom0x18 :
    Obligations.CommandsKeepOtherXQRegistersAndWindowBytesFrom0x18 := by
  intro i s t hexec
  have h := exec_sameBut hexec
  refine ⟨h.x, h.q, h.cmdIndex, h.inbox, h.response, h.params, fun off hlow hhigh hx hq => ?_⟩
  have hword : t.readWindow (BitVec.ofNat 7 (off / 8)) = s.readWindow (BitVec.ofNat 7 (off / 8)) := by
    rcases word_windowReg (BitVec.ofNat 7 (off / 8)) with hreserved | hat
    · simp only [State.readWindow, hreserved, State.readReg]
    · rw [toNat_wordIndex hhigh] at hat
      exact h.readReg_eq hlow hx hq hat
  rw [State.windowByte, State.windowByte, hword]

/-! ## The unit's invariant -/

/-- The word 0 is NOP, so the registers a reset clears meet the invariant (spec/10_state.md R33). -/
theorem inv_of_reset_values {s : State} (hparams : s.params.wf) (hstatus : s.status = Status.clear)
    (hfcmd : s.fcmd = 0) (hlast : s.lastcmd = 0) : s.Inv := by
  refine ⟨hparams, ?_, ?_, fun _ => hfcmd, ?_, ?_, .nop, rfl, ?_⟩
  · simp [hstatus]
  · simp [hstatus]
  · simp [hfcmd]
  · simp [hlast]
  · rw [hlast]
    rfl

theorem resetUnit_inv {s : State} (h : s.Inv) : s.resetUnit.Inv := inv_of_reset_values h.1 rfl rfl rfl

/-- Settles O14. -/
theorem resetStateMeetsTheUnitInvariant : Obligations.ResetStateMeetsTheUnitInvariant :=
  inv_of_reset_values (by decide) rfl rfl rfl

/-- A zero-extended command word has bits 63:32 clear. -/
theorem setWidth_cmdWord_lt (w : CmdWord) : (w.setWidth 64).toNat < 2 ^ 32 := by
  rw [BitVec.toNat_setWidth_of_le (by omega)]
  exact w.isLt

theorem decodes_encode {i : Instr} (h : i.wellFormed = true) : Decodes ((encode i).setWidth 64).toNat i := by
  rw [Decodes, BitVec.toNat_setWidth_of_le (by omega), BitVec.ofNat_toNat, BitVec.setWidth_eq]
  exact decode_encode h

/-- A command's effect keeps the invariant: NORM's count is at most 127, and nothing else it names is written. -/
theorem Effect.inv {i : Instr} {s u : State} (h : Effect i s (.ok u)) (hs : s.Inv) : u.Inv := by
  cases h with
  | keeps | writesX | writesXOvf | writesQ => exact hs
  | @writesXCnt d r _ _ hcnt =>
    obtain ⟨hparams, -, hrest⟩ := hs
    refine ⟨hparams, ?_, hrest⟩
    rw [State.writeXCnt_status, Status.withCnt_cnt, BitVec.toNat_ofNat]
    omega

/-- LASTCMD takes a legal command's word (spec/10_state.md R29). -/
theorem complete_inv {i : Instr} {s : State} (hi : i.wellFormed = true) (hs : s.Inv) : (s.complete i).Inv := by
  obtain ⟨hparams, hcnt, hcause, hfcmd, hfcmdLt, -, -⟩ := hs
  exact ⟨hparams, hcnt, hcause, hfcmd, hfcmdLt, setWidth_cmdWord_lt _, i, hi, decodes_encode hi⟩

/-- A fault sets FAULT and a cause together, and FCMD to a word (spec/60_exceptions.md R221). -/
theorem raiseFault_inv {s : State} {c : Cause} (hc : c ≠ .none) (w : CmdWord) (hs : s.Inv) :
    (s.raiseFault c w).Inv := by
  obtain ⟨hparams, hcnt, -, -, -, hlast⟩ := hs
  exact ⟨hparams, hcnt, iff_of_true rfl hc, fun h => Bool.noConfusion h, setWidth_cmdWord_lt w, hlast⟩

theorem exec_inv {i : Instr} {s t : State} (hi : i.wellFormed = true) (hs : s.Inv) (h : exec i s = .next t) :
    t.Inv := by
  rcases exec_next_cases h with ⟨-, rfl⟩ | ⟨-, u, heffect, rfl⟩ | ⟨-, c, hc, rfl⟩
  · exact hs
  · exact complete_inv hi (heffect.inv hs)
  · exact raiseFault_inv hc _ hs

/-- A delivered word is a legal command, or raises ILLEGAL_CMD on an unhalted unit (spec/30_encoding.md R76, R77). -/
theorem deliver_inv {s t : State} {w : CmdWord} (hs : s.Inv) (h : s.deliver w = .next t) : t.Inv := by
  unfold State.deliver at h
  split at h
  · next i hi => exact exec_inv (s := s.countCommand) (wellFormed_of_decode hi) hs h
  · obtain rfl := Host.Outcome.next.inj h
    split_ifs
    · exact hs
    · exact raiseFault_inv (by decide) w hs

/-- No write to a register word but a CTRL reset touches what the invariant names (spec/20_memory.md R52). -/
theorem writeReg_inv {s : State} (hs : s.Inv) (w : Word64) (r : WindowReg) : (s.writeReg w r).Inv := by
  cases r with
  | ctrl =>
    rw [State.writeReg]
    split_ifs
    · exact resetUnit_inv hs
    · exact hs
  | _ => exact hs

theorem portWrite_inv {s t : State} {addr : WordIndex} {w : Word64} (hs : s.Inv)
    (h : s.portWrite addr w = .next t) : t.Inv := by
  unfold State.portWrite at h
  split at h
  · exact deliver_inv (s := s.respond .written) hs h
  · obtain rfl := Host.Outcome.next.inj h
    exact writeReg_inv (s := s.respond .written) hs w _

/-- A port request that is answered is a write, a read or nothing; the last two keep every register. -/
theorem servePort_inv {s t : State} {r : PortRequest} (hs : s.Inv) (h : s.servePort r = .next t) : t.Inv := by
  unfold State.servePort at h
  split at h
  · cases h
  · exact portWrite_inv hs h
  · obtain rfl := Host.Outcome.next.inj h
    exact hs
  · obtain rfl := Host.Outcome.next.inj h
    exact hs

theorem serve_inv {s t : State} {e : HostEvent} (hs : s.Inv) (h : s.serve e = .next t) : t.Inv := by
  cases e with
  | rst =>
    obtain rfl := Host.Outcome.next.inj h
    exact (resetUnit_inv hs : s.resetUnit.Inv)
  | port r => exact servePort_inv hs h
  | bus a =>
    change s.serveBusAt Config.base a = .next t at h
    rcases s.serveBusAt_cases Config.base a with ⟨-, hbus⟩ | ⟨-, -, hbus⟩ | ⟨-, -, hbus⟩ <;> rw [hbus] at h
    · cases h
    · cases h
    · exact servePort_inv hs h

/-- Settles O13: over the host's next event, down to the effect of the command a CMD write delivers. -/
theorem everyStepKeepsTheUnitInvariant : Obligations.EveryStepKeepsTheUnitInvariant := by
  intro s t hs h
  cases hinbox : s.inbox with
  | nil =>
    rw [step_of_inbox_nil hinbox] at h
    obtain rfl := Host.Outcome.next.inj h
    exact hs
  | cons e rest =>
    rw [step_of_inbox_cons hinbox] at h
    exact serve_inv (s := { s with inbox := rest }) hs h

/-! ## Bus accesses -/

theorem base_mod_eight : Config.base % 8 = 0 := by
  simp only [Config.base, Config.windowBytes]
  omega

/-- A step with a bus access serves it at `BASE`, with what `State.serveBusAt_cases` says. -/
theorem step_of_inbox_bus {s : State} {a : BusAccess} {rest : List HostEvent} (hinbox : s.inbox = .bus a :: rest) :
    step s = State.serveBusAt { s with inbox := rest } Config.base a := step_of_inbox_cons hinbox

/-- A step with a bus access at its word's address is a step with the port request of that word
(spec/20_memory.md R51, R54). -/
theorem step_bus_in_window {s : State} {a : BusAccess} {rest : List HostEvent} (hinbox : s.inbox = .bus a :: rest)
    {addr : WordIndex} (haddr : a.addr = Config.base + 8 * addr.toNat) (hsize : busSize a.op = 8) :
    step s = step { s with inbox := .port (busRequest addr a.op) :: rest } := by
  have hbase := base_mod_eight
  have hlt := addr.isLt
  have hword : busOneWord a = true := (busOneWord_iff a).mpr ⟨hsize, by omega⟩
  have hinside : busInside Config.base a = true :=
    (busInside_iff _ a).mpr ⟨by omega, by rw [hsize, Config.windowBytes]; omega⟩
  have hindex : busIndex Config.base a = addr := by
    rw [busIndex, haddr, Nat.add_sub_cancel_left, Nat.mul_div_cancel_left _ (by norm_num), BitVec.ofNat_toNat,
      BitVec.setWidth_eq]
  rw [step_of_inbox_bus hinbox, step_of_inbox_cons rfl]
  simpa [hword, hinside, hindex, State.serve] using State.serveBusAt_cases { s with inbox := rest } Config.base a

/-- A step with a bus access that is not one aligned word is refused. -/
theorem step_bus_not_word {s : State} {a : BusAccess} {rest : List HostEvent} (hinbox : s.inbox = .bus a :: rest)
    (h : busOneWord a = false) : step s = .refused .notOneAlignedWord := by
  rw [step_of_inbox_bus hinbox]
  simpa [h] using State.serveBusAt_cases { s with inbox := rest } Config.base a

/-- A step with a bus access of one aligned word outside the window faults. -/
theorem step_bus_outside {s : State} {a : BusAccess} {rest : List HostEvent} (hinbox : s.inbox = .bus a :: rest)
    (hword : busOneWord a = true) (hinside : busInside Config.base a = false) : step s = .fault .outsideWindow := by
  rw [step_of_inbox_bus hinbox]
  simpa [hword, hinside] using State.serveBusAt_cases { s with inbox := rest } Config.base a

/-- Settles O23: over where the access lies and whether it is one aligned word. -/
theorem busAccessIsOneAlignedWordOrRefused : Obligations.BusAccessIsOneAlignedWordOrRefused := by
  intro s a rest hinbox
  refine ⟨fun addr bytes hlen haddr hop => ?_, fun addr haddr hop => ?_, fun hnot => ?_, fun hsize hmod hout => ?_⟩
  · rw [step_bus_in_window hinbox haddr (by rw [hop]; exact hlen), hop]
    rfl
  · rw [step_bus_in_window hinbox haddr (by rw [hop]; rfl), hop]
    rfl
  · refine step_bus_not_word hinbox (Bool.eq_false_iff.mpr fun h => ?_)
    obtain ⟨hsize, hmod⟩ := (busOneWord_iff a).mp h
    exact hnot.elim (absurd hsize) (absurd hmod)
  · refine step_bus_outside hinbox ((busOneWord_iff a).mpr ⟨hsize, hmod⟩) (Bool.eq_false_iff.mpr fun h => ?_)
    obtain ⟨hlow, hhigh⟩ := (busInside_iff _ a).mp h
    rw [hsize, Config.windowBytes] at hhigh
    omega

end Sys2Proof.Machine
end

section
/-! PROOF. The events of the host and what serving them leaves of the unit's own registers: commands delivered, resets,
and everything else (spec/10_state.md R20, R31 to R33, spec/20_memory.md R52, spec/70_reset_and_hazards.md R240). -/

namespace Sys2Proof.Machine

/-! ## Delivering a command word -/

theorem windowReg_eq_cmd_iff : ∀ addr : WordIndex, windowReg addr = .cmd ↔ addr = 0 := by decide

theorem windowReg_eq_ctrl_iff : ∀ addr : WordIndex, windowReg addr = .ctrl ↔ addr = 4 := by decide

theorem State.deliver_of_decode {s : State} {w : CmdWord} {i : Instr} (h : decode w = .ok i) :
    s.deliver w = exec i s.countCommand := by
  simp only [State.deliver, h]

theorem exec_of_halted {s : State} (h : s.status.fault = true) (i : Instr) : exec i s = .next s := by
  obtain ⟨e, hexec, -⟩ := exec_effect i s
  rw [hexec, State.command_halted h]

/-- A halted unit discards every word, legal or not, and counts it (spec/10_state.md R20, R32). -/
theorem State.deliver_of_halted {s : State} (h : s.status.fault = true) (w : CmdWord) :
    s.deliver w = .next s.countCommand := by
  unfold State.deliver
  split
  · exact exec_of_halted (s := s.countCommand) h _
  · rw [State.halted_eq, h, if_pos rfl]

/-- Every delivered word is counted, whether the command executes, faults or is ignored (spec/10_state.md R20). -/
theorem State.deliver_cmdIndex {s t : State} {w : CmdWord} (h : s.deliver w = .next t) :
    t.cmdIndex = s.cmdIndex + 1 := by
  unfold State.deliver at h
  split at h
  · exact (exec_sameBut h).cmdIndex
  · obtain rfl := Host.Outcome.next.inj h
    split_ifs <;> rfl

/-! ## Writes at the port -/

theorem State.portWrite_cmd (s : State) (w : Word64) :
    s.portWrite 0 w = (s.respond .written).deliver (w.extractLsb' 0 32) := rfl

/-- A write of any word but CMD writes the registers as the window map says (spec/20_memory.md R52). -/
theorem State.portWrite_of_ne_zero (s : State) {addr : WordIndex} (h : addr ≠ 0) (w : Word64) :
    s.portWrite addr w = .next ((s.respond .written).writeReg w (windowReg addr)) := by
  have hcmd : windowReg addr ≠ .cmd := mt (windowReg_eq_cmd_iff addr).mp h
  unfold State.portWrite
  split
  · exact absurd ‹_› hcmd
  · rfl

/-- The word a CMD write delivers is the low half of what the host writes (spec/20_memory.md R52). -/
theorem step_of_cmdWrite {s : State} {wd : Word64} {rest : List HostEvent} (h : s.inbox = hostWrite 0 wd :: rest) :
    step s = State.deliver { s with inbox := rest, response := .written } (BitVec.ofNat 32 wd.toNat) := by
  have hlow : wd.extractLsb' 0 32 = BitVec.ofNat 32 wd.toNat := by
    simp [BitVec.extractLsb']
  rw [step_of_inbox_cons h, ← hlow]
  exact State.portWrite_cmd _ wd

/-- Settles O6: a CMD write takes the event and delivers the low half of what is written. -/
theorem stepRunsTheDecodedCommand : Obligations.StepRunsTheDecodedCommand := by
  intro s wd rest i hinbox hdecode
  rw [step_of_cmdWrite hinbox, State.deliver_of_decode hdecode]
  rfl

/-- Settles O8: `exec` and the delivery of a word each discard the command of a halted unit. -/
theorem haltedUnitDiscardsEveryCommand : Obligations.HaltedUnitDiscardsEveryCommand := by
  intro s hfault
  refine ⟨exec_of_halted hfault, fun wd rest hinbox => ?_⟩
  rw [step_of_cmdWrite hinbox]
  exact State.deliver_of_halted (s := { s with inbox := rest, response := .written }) hfault _

/-! ## Resets -/

/-- A reset leaves every register of the unit at its value in spec/10_state.md R33. -/
theorem resetUnit_hasResetValues (s : State) (r : Response) : HasResetValues s.params (s.resetUnit.respond r) :=
  ⟨fun _ => Vector.getElem_replicate _, fun _ => Vector.getElem_replicate _, rfl, rfl, rfl, rfl⟩

theorem getLsbD_zero_iff (w : Word64) : w.getLsbD 0 = true ↔ w.toNat % 2 = 1 := by
  rw [BitVec.getLsbD, Nat.testBit_zero, decide_eq_true_iff]

/-- A step with a write of CTRL: a reset when bit 0 is 1, else nothing (spec/10_state.md R31). -/
theorem step_of_ctrlWrite {s : State} {wd : Word64} {rest : List HostEvent} (h : s.inbox = hostWrite 4 wd :: rest) :
    step s = .next (if wd.getLsbD 0 then State.resetUnit { s with inbox := rest, response := .written }
      else { s with inbox := rest, response := .written }) := by
  rw [step_of_inbox_cons h]
  exact State.portWrite_of_ne_zero _ (show (4 : WordIndex) ≠ 0 by decide) wd

theorem step_of_ctrlWrite_odd {s : State} {wd : Word64} {rest : List HostEvent} (h : s.inbox = hostWrite 4 wd :: rest)
    (hodd : wd.toNat % 2 = 1) : ∃ t, step s = .next t ∧ HasResetValues s.params t := by
  rw [step_of_ctrlWrite h, if_pos ((getLsbD_zero_iff wd).mpr hodd)]
  exact ⟨_, rfl, resetUnit_hasResetValues s .written⟩

/-- Settles O11: the rst pin and an odd CTRL write both run `State.resetUnit`. -/
theorem resetGivesTheTableOfResetValues : Obligations.ResetGivesTheTableOfResetValues := by
  refine ⟨?_, by decide, fun s rest => ⟨fun hinbox => ?_, fun wd hinbox hodd => ?_⟩⟩
  · exact resetUnit_hasResetValues State.reset .idle
  · rw [step_of_inbox_cons hinbox]
    exact ⟨_, rfl, resetUnit_hasResetValues s .idle⟩
  · exact step_of_ctrlWrite_odd hinbox hodd

/-- Settles O12: by the parity of the value written, which is its bit 0. -/
theorem ctrlWriteResetsOnlyWhenBitZeroIsOne : Obligations.CtrlWriteResetsOnlyWhenBitZeroIsOne := by
  intro s wd rest
  refine ⟨fun hinbox => ⟨fun hodd => step_of_ctrlWrite_odd hinbox hodd, fun heven => ?_⟩, fun wd' rest' => ?_⟩
  · have hbit : ¬ wd.getLsbD 0 = true := fun h => by
      have hodd := (getLsbD_zero_iff wd).mp h
      omega
    rw [step_of_ctrlWrite hinbox, if_neg hbit]
  · rw [step_of_inbox_cons rfl]
    rfl

/-! ## What serving an event can do -/

/-- What an event leaves of the unit: it delivers a command, or resets the unit, or is neither and keeps STATUS, FCMD
and the command index. -/
inductive Served (s : State) (e : HostEvent) (t : State) : Prop
  | delivers (w : CmdWord) (he : DeliversCommand e) (hdeliver : (s.respond .written).deliver w = .next t)
  | resets (r : Response) (he : ResetsUnit e) (ht : t = s.resetUnit.respond r)
  | keeps (hdelivers : ¬ DeliversCommand e) (hresets : ¬ ResetsUnit e) (hstatus : t.status = s.status)
      (hfcmd : t.fcmd = s.fcmd) (hindex : t.cmdIndex = s.cmdIndex)

/-- The event is not at once a command and a reset: CMD and CTRL are two words. -/
theorem not_resetsUnit_of_deliversCommand {e : HostEvent} (h : DeliversCommand e) : ¬ ResetsUnit e := by
  intro hr
  cases e with
  | rst => exact h
  | port r =>
    have haddr := h.1.symm.trans hr.1
    exact absurd haddr (by decide)
  | bus a =>
    have haddr := h.1.symm.trans hr.1
    omega

/-- A write of a register word other than CMD and CTRL keeps STATUS, FCMD and the command index
(spec/20_memory.md R52). -/
theorem writeReg_keeps (s : State) (w : Word64) {r : WindowReg} (h : r = .ctrl → w.getLsbD 0 = false) :
    (s.writeReg w r).status = s.status ∧ (s.writeReg w r).fcmd = s.fcmd ∧
      (s.writeReg w r).cmdIndex = s.cmdIndex := by
  cases r with
  | ctrl =>
    rw [State.writeReg, if_neg (by rw [h rfl]; decide)]
    exact ⟨rfl, rfl, rfl⟩
  | _ => exact ⟨rfl, rfl, rfl⟩

/-- A write at the port delivers a command at CMD, resets the unit at CTRL, and is a register write elsewhere. -/
theorem portWrite_served {s t : State} {addr : WordIndex} {w : Word64} (h : s.portWrite addr w = .next t) :
    Served s (hostWrite addr w) t := by
  by_cases hcmd : addr = 0
  · subst hcmd
    exact .delivers _ ⟨rfl, rfl, rfl⟩ h
  · rw [State.portWrite_of_ne_zero s hcmd] at h
    obtain rfl := Host.Outcome.next.inj h
    by_cases hctrl : addr = 4 ∧ w.getLsbD 0 = true
    · obtain ⟨rfl, hbit⟩ := hctrl
      exact .resets .written ⟨rfl, rfl, rfl, hbit⟩ (if_pos hbit)
    · have hreg : windowReg addr = .ctrl → w.getLsbD 0 = false := fun hr =>
        Bool.eq_false_iff.mpr fun hbit => hctrl ⟨(windowReg_eq_ctrl_iff addr).mp hr, hbit⟩
      obtain ⟨hstatus, hfcmd, hindex⟩ := writeReg_keeps (s.respond .written) w hreg
      exact .keeps (fun hd => hcmd hd.1) (fun ⟨ha, _, _, hbit⟩ => hctrl ⟨ha, hbit⟩) hstatus hfcmd hindex

theorem servePort_served {s t : State} {r : PortRequest} (h : s.servePort r = .next t) : Served s (.port r) t := by
  obtain ⟨addr, wr, rd, wdata⟩ := r
  cases wr with
  | true =>
    cases rd with
    | true => cases h
    | false => exact portWrite_served h
  | false =>
    have hkeeps : t.status = s.status ∧ t.fcmd = s.fcmd ∧ t.cmdIndex = s.cmdIndex := by
      cases rd <;> cases h <;> exact ⟨rfl, rfl, rfl⟩
    obtain ⟨hstatus, hfcmd, hindex⟩ := hkeeps
    exact .keeps (fun ⟨_, hwr, _⟩ => Bool.noConfusion hwr) (fun ⟨_, hwr, _⟩ => Bool.noConfusion hwr) hstatus hfcmd
      hindex

/-- The address of one aligned word of the window is `BASE` plus 8 times the word index (spec/20_memory.md R50, R51). -/
theorem addr_eq_base_add_busIndex {a : BusAccess} (hword : busOneWord a = true)
    (hinside : busInside Config.base a = true) : a.addr = Config.base + 8 * (busIndex Config.base a).toNat := by
  obtain ⟨hsize, hmod⟩ := (busOneWord_iff a).mp hword
  obtain ⟨hlow, hhigh⟩ := (busInside_iff _ a).mp hinside
  have hbase := base_mod_eight
  rw [hsize, Config.windowBytes] at hhigh
  rw [busIndex, BitVec.toNat_ofNat]
  omega

/-- An aligned word of the window stands at `BASE + 8 * k` exactly when its index is `k`. -/
theorem addr_eq_iff_busIndex_eq {a : BusAccess} (hword : busOneWord a = true)
    (hinside : busInside Config.base a = true) (k : WordIndex) :
    a.addr = Config.base + 8 * k.toNat ↔ busIndex Config.base a = k := by
  rw [addr_eq_base_add_busIndex hword hinside, ← BitVec.toNat_inj]
  omega

/-- A bus access to one word of the window delivers a command exactly when its port request does. -/
theorem deliversCommand_bus_iff {a : BusAccess} (hword : busOneWord a = true)
    (hinside : busInside Config.base a = true) :
    DeliversCommand (.bus a) ↔ DeliversCommand (.port (busRequest (busIndex Config.base a) a.op)) := by
  have haddr := addr_eq_iff_busIndex_eq hword hinside 0
  have hsize := ((busOneWord_iff a).mp hword).1
  cases hop : a.op with
  | read n => simp [DeliversCommand, busRequest, hop]
  | write bytes =>
    rw [hop] at hsize
    simpa [DeliversCommand, busRequest, hop, show bytes.length = 8 from hsize] using haddr

/-- A bus access to one word of the window resets the unit exactly when its port request does. -/
theorem resetsUnit_bus_iff {a : BusAccess} (hword : busOneWord a = true)
    (hinside : busInside Config.base a = true) :
    ResetsUnit (.bus a) ↔ ResetsUnit (.port (busRequest (busIndex Config.base a) a.op)) := by
  have haddr : a.addr = Config.base + 32 ↔ busIndex Config.base a = 4 := addr_eq_iff_busIndex_eq hword hinside 4
  have hsize := ((busOneWord_iff a).mp hword).1
  cases hop : a.op with
  | read n => simp [ResetsUnit, busRequest, hop]
  | write bytes =>
    rw [hop] at hsize
    simp [ResetsUnit, busRequest, hop, haddr, show bytes.length = 8 from hsize]

/-- What serving an event can do depends only on whether it delivers a command and whether it resets the unit. -/
theorem Served.of_iff {s t : State} {e e' : HostEvent} (hd : DeliversCommand e ↔ DeliversCommand e')
    (hr : ResetsUnit e ↔ ResetsUnit e') (h : Served s e' t) : Served s e t := by
  cases h with
  | delivers w he hdeliver => exact .delivers w (hd.mpr he) hdeliver
  | resets r he ht => exact .resets r (hr.mpr he) ht
  | keeps hdelivers hresets hstatus hfcmd hindex =>
    exact .keeps (mt hd.mp hdelivers) (mt hr.mp hresets) hstatus hfcmd hindex

theorem serve_served {s t : State} {e : HostEvent} (h : s.serve e = .next t) : Served s e t := by
  cases e with
  | rst => exact .resets .idle trivial (Host.Outcome.next.inj h).symm
  | port r => exact servePort_served h
  | bus a =>
    change s.serveBusAt Config.base a = .next t at h
    rcases s.serveBusAt_cases Config.base a with ⟨-, hbus⟩ | ⟨-, -, hbus⟩ | ⟨hword, hinside, hbus⟩ <;> rw [hbus] at h
    · cases h
    · cases h
    · exact (servePort_served h).of_iff (deliversCommand_bus_iff hword hinside) (resetsUnit_bus_iff hword hinside)

/-- A step serves the host's next event, from the state without it. -/
theorem step_served {s t : State} {e : HostEvent} {rest : List HostEvent} (hinbox : s.inbox = e :: rest)
    (h : step s = .next t) : Served { s with inbox := rest } e t :=
  serve_served ((step_of_inbox_cons hinbox).symm.trans h)

/-- A halted unit discards a command, a reset clears the fault, and no other event touches it
(spec/10_state.md R25, R32, spec/60_exceptions.md R223). -/
theorem Served.fault_of_halted {s t : State} {e : HostEvent} (h : Served s e t) (hfault : s.status.fault = true) :
    (¬ ResetsUnit e → t.status.fault = true ∧ t.status.cause = s.status.cause ∧ t.fcmd = s.fcmd) ∧
      (ResetsUnit e → t.status.fault = false ∧ t.status.cause = .none ∧ t.fcmd = 0#64) := by
  cases h with
  | delivers w he hdeliver =>
    rw [State.deliver_of_halted (s := s.respond .written) hfault] at hdeliver
    obtain rfl := Host.Outcome.next.inj hdeliver
    exact ⟨fun _ => ⟨hfault, rfl, rfl⟩, fun hr => absurd hr (not_resetsUnit_of_deliversCommand he)⟩
  | resets r he ht =>
    subst ht
    exact ⟨fun hr => absurd he hr, fun _ => ⟨rfl, rfl, rfl⟩⟩
  | keeps _ hresets hstatus hfcmd _ =>
    rw [hstatus]
    exact ⟨fun _ => ⟨hfault, rfl, hfcmd⟩, fun hr => absurd hr hresets⟩

/-- Only the delivery of a command word advances the index; a reset keeps it (spec/10_state.md R20). -/
theorem Served.cmdIndex {s t : State} {e : HostEvent} (h : Served s e t) :
    (DeliversCommand e → t.cmdIndex = s.cmdIndex + 1) ∧ (¬ DeliversCommand e → t.cmdIndex = s.cmdIndex) := by
  cases h with
  | delivers w he hdeliver =>
    exact ⟨fun _ => State.deliver_cmdIndex (s := s.respond .written) hdeliver, fun hd => absurd he hd⟩
  | resets r he ht =>
    subst ht
    exact ⟨fun hd => absurd he (not_resetsUnit_of_deliversCommand hd), fun _ => rfl⟩
  | keeps hdelivers _ _ _ hindex => exact ⟨fun hd => absurd hd hdelivers, fun _ => hindex⟩

/-- Settles O15: from what serving the event can do. -/
theorem onlyAResetLeavesTheHaltedCondition : Obligations.OnlyAResetLeavesTheHaltedCondition :=
  fun _ _ _ _ hinbox hfault hstep => (step_served hinbox hstep).fault_of_halted hfault

/-- Settles O16: from what serving the event can do. -/
theorem commandIndexCountsDeliveredCommands : Obligations.CommandIndexCountsDeliveredCommands :=
  fun _ _ _ _ hinbox hstep => (step_served hinbox hstep).cmdIndex

end Sys2Proof.Machine
end

section
/-! PROOF. The STATUS word, its fields one above the other (spec/10_state.md R23). -/

namespace Sys2Proof.Machine

/-- A field of `n` bits set at bit `k` of a word that has nothing from bit `k` on: the numbers add. -/
theorem toNat_or_field {x y : Word64} {k n : Nat} (hx : x.toNat < 2 ^ k) (hy : y.toNat < 2 ^ n) (hfit : k + n ≤ 64) :
    (x ||| y <<< k).toNat = x.toNat + y.toNat * 2 ^ k ∧ (x ||| y <<< k).toNat < 2 ^ (k + n) := by
  have hprod : y.toNat * 2 ^ k + 2 ^ k ≤ 2 ^ (k + n) := by
    calc y.toNat * 2 ^ k + 2 ^ k = (y.toNat + 1) * 2 ^ k := by ring
      _ ≤ 2 ^ n * 2 ^ k := Nat.mul_le_mul_right _ hy
      _ = 2 ^ (k + n) := by rw [Nat.pow_add, Nat.mul_comm]
  have hword : 2 ^ (k + n) ≤ 2 ^ 64 := Nat.pow_le_pow_right (by norm_num) hfit
  have hshift : (y <<< k).toNat = y.toNat <<< k := by
    rw [BitVec.toNat_shiftLeft, Nat.shiftLeft_eq, Nat.mod_eq_of_lt (by omega)]
  have hsum : (x ||| y <<< k).toNat = x.toNat + y.toNat * 2 ^ k := by
    rw [BitVec.toNat_or, hshift, Nat.or_comm, ← Nat.shiftLeft_add_eq_or_of_lt hx, Nat.shiftLeft_eq, Nat.add_comm]
  exact ⟨hsum, by omega⟩

/-- A flag set at bit `k` of a word that has nothing from bit `k` on. -/
theorem toNat_or_bitAt {x : Word64} {k : Nat} (b : Bool) (hx : x.toNat < 2 ^ k) (hfit : k + 1 ≤ 64) :
    (x ||| bitAt b k).toNat = x.toNat + b.toNat * 2 ^ k ∧ (x ||| bitAt b k).toNat < 2 ^ (k + 1) := by
  have hbit : ((BitVec.ofBool b).setWidth 64).toNat = b.toNat := by cases b <;> rfl
  have h := toNat_or_field (y := (BitVec.ofBool b).setWidth 64) (n := 1) hx (by rw [hbit]; exact b.toNat_lt) hfit
  rwa [hbit] at h

theorem toNat_bitAt_zero (b : Bool) : (bitAt b 0).toNat = b.toNat := by cases b <;> rfl

/-- Settles O20: field by field from bit 0 up, each above all the ones before it. -/
theorem statusWordHoldsEachFieldAtItsBits : Obligations.StatusWordHoldsEachFieldAtItsBits := by
  refine ⟨⟨rfl, rfl, rfl, rfl⟩, fun st => ?_⟩
  have hovf : (bitAt st.ovf 0).toNat < 2 ^ 1 := by
    rw [toNat_bitAt_zero]
    exact st.ovf.toNat_lt
  obtain ⟨hqof, hqofLt⟩ := toNat_or_bitAt st.qof hovf (by norm_num)
  obtain ⟨hquf, hqufLt⟩ := toNat_or_bitAt st.quf hqofLt (by norm_num)
  obtain ⟨hqnv, hqnvLt⟩ := toNat_or_bitAt st.qnv hqufLt (by norm_num)
  obtain ⟨hqcut, hqcutLt⟩ := toNat_or_bitAt st.qcut hqnvLt (by norm_num)
  obtain ⟨hfault, hfaultLt⟩ := toNat_or_bitAt (k := 7) st.fault (hqcutLt.trans (by norm_num)) (by norm_num)
  have hcode : (st.cause.code.setWidth 64).toNat = st.cause.code.toNat := BitVec.toNat_setWidth_of_le (by norm_num)
  have hcnt : (st.cnt.setWidth 64).toNat = st.cnt.toNat := BitVec.toNat_setWidth_of_le (by norm_num)
  obtain ⟨hcause, hcauseLt⟩ := toNat_or_field (k := 8) (n := 4) (y := st.cause.code.setWidth 64) hfaultLt
    (by rw [hcode]; exact st.cause.code.isLt) (by norm_num)
  obtain ⟨hword, -⟩ := toNat_or_field (k := 16) (n := 8) (y := st.cnt.setWidth 64) (hcauseLt.trans (by norm_num))
    (by rw [hcnt]; exact st.cnt.isLt) (by norm_num)
  rw [Status.word, hword, hcause, hfault, hqcut, hqnv, hquf, hqof, toNat_bitAt_zero, hcode, hcnt, Nat.pow_one]

end Sys2Proof.Machine
end

section
/-! PROOF. Which fault a command raises and what a completing command writes, with its values, said once for all
commands; from it the rules for the faults, OVF and CNT (spec/10_state.md R24 to R29, spec/60_exceptions.md R220,
R222). -/

namespace Sys2Proof.Machine

/-! ## Quad classes and the second operand of QSUB -/

theorem Quad.isZero_iff (p : Params) (q : Quad) : q.isZero p = true ↔ q.exp = p.emin := by
  simp [Quad.isZero, Quad.expInt, Params.eminInt, BitVec.toInt_inj]

theorem msbOnly_eq_iff (v : U128) : v = msbOnly ↔ v.toNat = 2 ^ 127 := by
  rw [← msbOnly_toNat, BitVec.toNat_inj]

theorem Quad.isInf_iff (p : Params) (q : Quad) : q.isInf p = true ↔ q.exp = p.emax ∧ q.man.toNat = 2 ^ 127 := by
  rw [← msbOnly_eq_iff]
  simp [Quad.isInf, Quad.expInt, Params.emaxInt, BitVec.toInt_inj]

theorem Quad.isNaN_iff (p : Params) (q : Quad) : q.isNaN p = true ↔ q.exp = p.emax ∧ q.man.toNat ≠ 2 ^ 127 := by
  rw [ne_eq, ← msbOnly_eq_iff]
  simp [Quad.isNaN, Quad.expInt, Params.emaxInt, BitVec.toInt_inj]

theorem Quad.isZero_iff_cls (p : Params) (q : Quad) : q.isZero p = true ↔ q.cls p = .zero := by
  rw [Quad.isZero_iff, Quad.cls]
  split_ifs <;> simp_all

/-- The Quads QSUB does not negate, by their class (spec/43_quad_arith.md R170). -/
theorem Quad.isNaN_or_isZero_iff (p : Params) (q : Quad) :
    (q.isNaN p || q.isZero p) = true ↔ q.cls p = .nan ∨ q.cls p = .zero := by
  rw [Bool.or_eq_true, Quad.isNaN_iff, Quad.isZero_iff, Quad.cls]
  split_ifs <;> simp_all

/-- QSUB negates its second operand as R170 says. -/
theorem subOperand_eq_negated (p : Params) (b : Quad) : subOperand p b = negated p b := by
  have h := Quad.isNaN_or_isZero_iff p b
  rw [subOperand, negated]
  cases hc : b.cls p with
  | zero | nan => exact if_pos (h.mpr (by simp [hc]))
  | finite | inf => exact if_neg (mt h.mp (by simp [hc]))

/-- Only a zero's sign matters for validity (spec/43_quad_arith.md R161). -/
theorem valid_flip {p : Params} {b : Quad} (hz : b.isZero p = false) (h : b.valid p = true) :
    b.flip.valid p = true := by
  have hz' : b.flip.isZero p = false := hz
  rw [Quad.valid, hz] at h
  rw [Quad.valid, hz']
  exact h

theorem valid_negated {p : Params} {b : Quad} (h : b.valid p = true) : (negated p b).valid p = true := by
  rw [negated]
  cases hc : b.cls p with
  | zero | nan => exact h
  | finite | inf =>
    refine valid_flip (Bool.eq_false_iff.mpr fun hz => ?_) h
    rw [(Quad.isZero_iff_cls p b).mp hz] at hc
    cases hc

/-! ## What a completing command writes -/

/-- The results a Q command may write: a sum, a product, or a Quad with no status bit set. -/
inductive QOutcome (i : Instr) (s : State) : QResult → Prop
  | sum {a b : Quad} (hi : addends i s = some (a, b)) (ha : a.valid s.params = true) (hb : b.valid s.params = true) :
      QOutcome i s (addCore s.params a b)
  | product {d a b : QReg} (hi : i = .qmul d a b) (ha : (s.readQ a).valid s.params = true)
      (hb : (s.readQ b).valid s.params = true) : QOutcome i s (mulCore s.params (s.readQ a) (s.readQ b))
  | quiet (q : Quad) (hsum : addends i s = none) (hmul : ∀ d a b, i ≠ .qmul d a b) : QOutcome i s (.plain q)

/-- The states a completing command hands to the frame of commands, with the values `Effect` leaves open. -/
inductive Completion (i : Instr) (s : State) : State → Prop
  | keeps (hi : i = .nop) : Completion i s s
  | writesX {d : XReg} {v : U128} (hovf : ovfAfter i s = s.status.ovf) (hq : qDest i = none)
      (hnorm : isNorm i = false) : Completion i s (s.writeX d v)
  | writesXOvf {d : XReg} {r : U128 × Bool} (hovf : ovfAfter i s = r.2) (hq : qDest i = none)
      (hnorm : isNorm i = false) : Completion i s (s.writeXOvf d r)
  | norm {d a : XReg} (hi : i = .norm d a) (ha : s.readX a ≠ 0) :
      Completion i s (s.writeXCnt d (normalize (s.readX a)))
  | writesQ {d : QReg} {r : QResult} (hd : qDest i = some d) (hr : QOutcome i s r) :
      Completion i s (s.writeQResult d r)

/-- The effect the frame of commands is given: a completion where `faultOf` lists no fault, else the fault listed. -/
inductive Listed (i : Instr) (s : State) : Except Cause State → Prop
  | completes {u : State} (hfault : faultOf i s = .none) (hu : Completion i s u) : Listed i s (.ok u)
  | faults (hfault : faultOf i s ≠ .none) : Listed i s (.error (faultOf i s))

theorem Listed.of_fault {i : Instr} {s : State} {c : Cause} (hfault : faultOf i s = c) (hc : c ≠ .none) :
    Listed i s (.error c) := by
  subst hfault
  exact .faults hc

theorem unaryQ_listed {i : Instr} {s : State} {d a : QReg} (hd : qDest i = some d)
    (hfault : faultOf i s = if !(s.readQ a).valid s.params then .badQuadOperand else .none)
    (hsum : addends i s = none) (hmul : ∀ d a b, i ≠ .qmul d a b) (f : Quad → Quad) :
    Listed i s (s.unaryQ d a fun q => .plain (f q)) := by
  rcases s.unaryQ_cases d a fun q => .plain (f q) with ⟨hvalid, h⟩ | ⟨hvalid, h⟩ <;> rw [h] <;>
    simp only [hvalid] at hfault
  · exact .completes hfault (.writesQ hd (.quiet _ hsum hmul))
  · exact .of_fault hfault (by decide)

theorem binaryQ_listed {i : Instr} {s : State} {d a b : QReg} {f : Quad → Quad → QResult} (hd : qDest i = some d)
    (hfault : faultOf i s =
      if !(s.readQ a).valid s.params || !(s.readQ b).valid s.params then .badQuadOperand else .none)
    (hr : (s.readQ a).valid s.params = true → (s.readQ b).valid s.params = true →
      QOutcome i s (f (s.readQ a) (s.readQ b))) : Listed i s (s.binaryQ d a b f) := by
  rcases s.binaryQ_cases d a b f with ⟨ha, hb, h⟩ | ⟨hinvalid, h⟩ <;> rw [h]
  · simp only [ha, hb] at hfault
    exact .completes hfault (.writesQ hd (hr ha hb))
  · refine .of_fault (hfault.trans (if_pos ?_)) (by decide)
    simpa using hinvalid

/-- MULHI's accumulation in plain numbers (spec/41_u128_multiply.md R123). -/
theorem mulHiAcc_eq_highProduct (c : Bool) (a b : U128) : mulHiAcc c a b = highProduct c a.toNat b.toNat := by
  simp only [mulHiAcc, highProduct, mul64Exact_eq, highHalf_toNat, lowHalf_toNat]

theorem norm_listed (d a : XReg) (s : State) :
    Listed (.norm d a) s
      (if s.readX a = 0 then .error .normZero else .ok (s.writeXCnt d (normalize (s.readX a)))) := by
  split_ifs with h
  · exact .of_fault (if_pos h) (by decide)
  · exact .completes (if_neg h) (.norm rfl h)

theorem qsetsig_listed (d a : QReg) (n : BitVec 8) (s : State) (f : Quad → Quad) :
    Listed (.qsetsig d a n) s
      (if 128 < n.toNat then .error .illegalCmd else s.unaryQ d a fun q => .plain (f q)) := by
  split_ifs with h
  · exact .of_fault (if_pos h) (by decide)
  · have hfault : faultOf (.qsetsig d a n) s = if !(s.readQ a).valid s.params then .badQuadOperand else .none :=
      if_neg h
    exact unaryQ_listed rfl hfault rfl (fun _ _ _ => Instr.noConfusion) f

/-- Every command runs in the frame of commands, with the fault listed for it or with its own completion. -/
theorem exec_listed (i : Instr) (s : State) : ∃ e, exec i s = s.command i e ∧ Listed i s e := by
  cases i with
  | nop => exact ⟨_, rfl, .completes rfl (.keeps rfl)⟩
  | and | or | xor | not | mov | ldi | zext64 | shl | shr | shrmsb =>
    exact ⟨_, rfl, .completes rfl (.writesX rfl rfl rfl)⟩
  | add d a b => exact ⟨_, rfl, .completes rfl (.writesXOvf (by rw [addHalves_eq]; rfl) rfl rfl)⟩
  | sub d a b => exact ⟨_, rfl, .completes rfl (.writesXOvf (by rw [subHalves_eq]; rfl) rfl rfl)⟩
  | mul64 | mul128 => exact ⟨_, rfl, .completes rfl (.writesXOvf rfl rfl rfl)⟩
  | mulw d a b =>
    refine ⟨_, rfl, .completes rfl (.writesXOvf ?_ rfl rfl)⟩
    rw [mulWide, lowHalf_toNat]
    rfl
  | mulhi d a b =>
    refine ⟨_, rfl, .completes rfl (.writesXOvf ?_ rfl rfl)⟩
    rw [mulHi, mulHiAcc_eq_highProduct]
    rfl
  | norm d a => exact ⟨_, rfl, norm_listed d a s⟩
  | qadd d a b => exact ⟨_, rfl, binaryQ_listed rfl rfl fun ha hb => .sum rfl ha hb⟩
  | qsub d a b =>
    refine ⟨_, rfl, binaryQ_listed rfl rfl fun ha hb => ?_⟩
    rw [subCore, subOperand_eq_negated]
    exact .sum rfl ha (valid_negated hb)
  | qmul d a b => exact ⟨_, rfl, binaryQ_listed rfl rfl fun ha hb => .product rfl ha hb⟩
  | qneg | qabs | qtrunc | qfloor | qceil | qround =>
    exact ⟨_, rfl, unaryQ_listed rfl rfl rfl (fun _ _ _ => Instr.noConfusion) _⟩
  | qfromu | qfroms =>
    exact ⟨_, rfl, .completes rfl (.writesQ rfl (.quiet _ rfl fun _ _ _ => Instr.noConfusion))⟩
  | qsetsig d a n => exact ⟨_, rfl, qsetsig_listed d a n s _⟩

/-- What a command leaves on an unhalted unit: the fault listed for it, or its completion
(spec/60_exceptions.md R220 to R222). -/
theorem exec_unhalted_cases {s : State} (h : s.status.fault = false) (i : Instr) :
    (faultOf i s ≠ .none ∧ exec i s = .next (s.raiseFault (faultOf i s) (encode i))) ∨
      (faultOf i s = .none ∧ ∃ u, Completion i s u ∧ exec i s = .next (u.complete i)) := by
  obtain ⟨e, hexec, hlisted⟩ := exec_listed i s
  rw [hexec]
  cases hlisted with
  | completes hfault hu => exact .inr ⟨hfault, _, hu, State.command_ok h i _⟩
  | faults hfault => exact .inl ⟨hfault, State.command_error h i _⟩

/-- The states a command can leave an unhalted unit in. -/
theorem exec_unhalted_next_cases {i : Instr} {s t : State} (h : s.status.fault = false) (hexec : exec i s = .next t) :
    t = s.raiseFault (faultOf i s) (encode i) ∨ ∃ u, Completion i s u ∧ t = u.complete i := by
  rcases exec_unhalted_cases h i with ⟨-, hnext⟩ | ⟨-, u, hu, hnext⟩ <;>
    obtain rfl := Host.Outcome.next.inj (hnext.symm.trans hexec)
  · exact .inl rfl
  · exact .inr ⟨u, hu, rfl⟩

/-! ## Faults -/

/-- A completing command writes neither FAULT nor CAUSE nor FCMD. -/
theorem Completion.keeps_fault {i : Instr} {s u : State} (h : Completion i s u) :
    u.status.fault = s.status.fault ∧ u.status.cause = s.status.cause ∧ u.fcmd = s.fcmd := by
  cases h <;> exact ⟨rfl, rfl, rfl⟩

theorem setWidth_cmdWord_eq_ofNat (w : CmdWord) : w.setWidth 64 = BitVec.ofNat 64 w.toNat :=
  (BitVec.ofNat_toNat 64 w).symm

theorem raiseFault_eq_faulted (s : State) (c : Cause) (w : CmdWord) : s.raiseFault c w = s.faulted c w.toNat := by
  rw [State.raiseFault, setWidth_cmdWord_eq_ofNat]
  rfl

/-- Settles O10: from what a command leaves on an unhalted unit. -/
theorem commandsFaultExactlyAsListed : Obligations.CommandsFaultExactlyAsListed := by
  intro i s hs
  rcases exec_unhalted_cases hs i with ⟨hfault, hexec⟩ | ⟨hfault, u, hu, hexec⟩
  · refine ⟨fun _ => ?_, fun hnone => absurd hnone hfault⟩
    rw [hexec, raiseFault_eq_faulted]
  · obtain ⟨hkept, hcause, hfcmd⟩ := hu.keeps_fault
    exact ⟨fun hne => absurd hfault hne, fun _ => ⟨_, hexec, hkept.trans hs, hcause, hfcmd,
      setWidth_cmdWord_eq_ofNat _⟩⟩

/-! ## OVF and CNT -/

/-- Q commands leave OVF (spec/10_state.md R24). -/
theorem ovfAfter_of_qDest {i : Instr} {d : QReg} (hd : qDest i = some d) (s : State) :
    ovfAfter i s = s.status.ovf := by
  cases i with
  | qadd | qsub | qmul | qneg | qabs | qtrunc | qfloor | qceil | qround | qfromu | qfroms | qsetsig => rfl
  | _ => cases hd

/-- A command with a listed fault is none of those that write OVF (spec/10_state.md R24). -/
theorem ovfAfter_of_faultOf {i : Instr} {s : State} (h : faultOf i s ≠ .none) : ovfAfter i s = s.status.ovf := by
  cases i with
  | add | sub | mul64 | mulw | mul128 | mulhi => exact absurd rfl h
  | _ => rfl

theorem Completion.ovf {i : Instr} {s u : State} (h : Completion i s u) : u.status.ovf = ovfAfter i s := by
  cases h with
  | keeps hi => rw [hi]; rfl
  | writesX hovf | writesXOvf hovf => exact hovf.symm
  | norm hi => rw [hi]; rfl
  | writesQ hd => exact (ovfAfter_of_qDest hd s).symm

/-- Settles O52: a fault leaves OVF, and a completion writes it as listed. -/
theorem overflowFlagIsWrittenAsListed : Obligations.OverflowFlagIsWrittenAsListed := by
  intro i s hs
  rcases exec_unhalted_cases hs i with ⟨hfault, hexec⟩ | ⟨-, u, hu, hexec⟩
  · exact ⟨_, hexec, (ovfAfter_of_faultOf hfault).symm⟩
  · exact ⟨_, hexec, hu.ovf⟩

theorem Completion.cnt_of_not_norm {i : Instr} {s u : State} (h : Completion i s u) (hi : isNorm i = false) :
    u.status.cnt = s.status.cnt := by
  cases h with
  | norm h => rw [h] at hi; cases hi
  | _ => rfl

/-- NORM's completion: CNT is the number of positions that brings the operand's top bit to bit 127
(spec/42_u128_shift_normalize.md R143). -/
theorem Completion.cnt_of_norm {d a : XReg} {s u : State} (h : Completion (.norm d a) s u) :
    u.status.cnt.toNat ≤ 127 ∧ u.x[d.val].toNat = s.x[a.val].toNat * 2 ^ u.status.cnt.toNat ∧
      2 ^ 127 ≤ u.x[d.val].toNat := by
  cases h with
  | keeps hi => cases hi
  | writesX _ _ hnorm | writesXOvf _ _ hnorm => cases hnorm
  | writesQ hd => cases hd
  | norm hi ha =>
    cases hi
    obtain ⟨hcount, hvalue, htop⟩ := normalize_spec _ ha
    have hcnt : (BitVec.ofNat 8 (normalize (s.readX a)).2).toNat = (normalize (s.readX a)).2 := by
      rw [BitVec.toNat_ofNat]
      omega
    rw [State.writeXCnt_status, Status.withCnt_cnt, hcnt, State.writeXCnt_x, Vector.getElem_set_self]
    exact ⟨hcount, hvalue, htop⟩

/-- Settles O53: a fault leaves CNT, and only NORM's completion writes it. -/
theorem countIsWrittenOnlyByNorm : Obligations.CountIsWrittenOnlyByNorm := by
  intro i s t hs hexec
  rcases exec_unhalted_next_cases hs hexec with rfl | ⟨u, hu, rfl⟩
  · exact ⟨fun _ => rfl, fun _ _ _ => ⟨fun _ => rfl, fun h => Bool.noConfusion h⟩⟩
  · refine ⟨hu.cnt_of_not_norm, fun d a hi => ⟨fun hfault => ?_, fun _ => ?_⟩⟩
    · have hunhalted := hu.keeps_fault.1.trans hs
      exact absurd (hfault.symm.trans hunhalted) (by decide)
    · subst hi
      exact hu.cnt_of_norm

end Sys2Proof.Machine
end

section
/-! PROOF. When a sum and a product set each of the four Q status bits (spec/10_state.md R27, spec/43_quad_arith.md R164
to R171). -/

namespace Sys2Proof.Machine

/-! ## Classes -/

/-- R7's constraints keep the two exponents apart that tell the classes. -/
theorem emin_ne_emax {p : Params} (hp : p.wf) : p.emin ≠ p.emax := by
  intro h
  obtain ⟨hmin, hmax⟩ := hp
  rw [Params.eminInt, h] at hmin
  rw [Params.emaxInt] at hmax
  omega

theorem Quad.isInf_iff_cls {p : Params} (hp : p.wf) (q : Quad) : q.isInf p = true ↔ q.cls p = .inf := by
  have hne := emin_ne_emax hp
  rw [Quad.isInf_iff, Quad.cls]
  split_ifs <;> simp_all

theorem Quad.isNaN_iff_cls {p : Params} (hp : p.wf) (q : Quad) : q.isNaN p = true ↔ q.cls p = .nan := by
  have hne := emin_ne_emax hp
  rw [Quad.isNaN_iff, Quad.cls]
  split_ifs <;> simp_all

theorem Quad.cls_eq_finite_iff (p : Params) (q : Quad) : q.cls p = .finite ↔ q.exp ≠ p.emin ∧ q.exp ≠ p.emax := by
  rw [Quad.cls]
  split_ifs <;> simp_all

theorem Quad.cls_eq_finite {p : Params} {q : Quad} (hnan : q.cls p ≠ .nan) (hinf : q.cls p ≠ .inf)
    (hzero : q.cls p ≠ .zero) : q.cls p = .finite := by
  cases hc : q.cls p with
  | finite => rfl
  | zero => exact absurd hc hzero
  | inf => exact absurd hc hinf
  | nan => exact absurd hc hnan

theorem Quad.cls_zero (p : Params) (s : BitVec 8) : (Quad.zero p s).cls p = .zero := if_pos rfl

theorem Quad.cls_inf {p : Params} (hp : p.wf) (n : Bool) (s : BitVec 8) : (Quad.inf p n s).cls p = .inf := by
  rw [← Quad.isInf_iff_cls hp, Quad.isInf_iff]
  exact ⟨rfl, msbOnly_toNat⟩

theorem Quad.cls_nan {p : Params} (hp : p.wf) (s : BitVec 8) : (Quad.nan p s).cls p = .nan := by
  rw [← Quad.isNaN_iff_cls hp, Quad.isNaN_iff]
  exact ⟨rfl, by simp [Quad.nan]⟩

/-- A Quad of an exponent strictly between EMIN and EMAX is finite. -/
theorem Quad.cls_of_exp_between {p : Params} {q : Quad} (hlow : p.eminInt < q.expInt) (hhigh : q.expInt < p.emaxInt) :
    q.cls p = .finite := by
  rw [Quad.cls_eq_finite_iff]
  refine ⟨fun h => ?_, fun h => ?_⟩
  · rw [Quad.expInt, h] at hlow
    exact absurd hlow (lt_irrefl _)
  · rw [Quad.expInt, h] at hhigh
    exact absurd hhigh (lt_irrefl _)

/-- What validity says of a finite Quad (spec/43_quad_arith.md R161): a normalised mantissa. -/
theorem Quad.msb_of_valid {p : Params} {q : Quad} (h : q.valid p = true) (hc : q.cls p = .finite) :
    2 ^ 127 ≤ q.man.toNat := by
  obtain ⟨hmin, hmax⟩ := (Quad.cls_eq_finite_iff p q).mp hc
  have hmin' : q.expInt ≠ p.eminInt := fun e => hmin (BitVec.toInt_inj.mp e)
  have hmax' : q.expInt ≠ p.emaxInt := fun e => hmax (BitVec.toInt_inj.mp e)
  simp only [Quad.valid, Bool.and_eq_true, decide_eq_true_eq] at h
  obtain ⟨⟨⟨-, hmsb⟩, hlow⟩, hhigh⟩ := h
  have hfinite : q.isFinite p = true := by
    simp only [Quad.isFinite, Bool.and_eq_true, decide_eq_true_eq]
    omega
  rw [hfinite] at hmsb
  exact (msbSet_iff _).mp hmsb

/-! ## Magnitudes of finite Quads -/

/-- A normalised mantissa's magnitude lies in [2^(exp-1), 2^exp) (spec/43_quad_arith.md R160). -/
theorem Quad.mag_bounds {q : Quad} (h : 2 ^ 127 ≤ q.man.toNat) :
    (2 : ℚ) ^ (q.expInt - 1) ≤ q.mag ∧ q.mag < (2 : ℚ) ^ q.expInt := by
  have hunit : (0 : ℚ) < (2 : ℚ) ^ (q.expInt - 128) := by positivity
  have hlow : ((2 : ℚ) ^ (127 : ℤ)) ≤ (q.man.toNat : ℚ) := by exact_mod_cast h
  have hhigh : (q.man.toNat : ℚ) < (2 : ℚ) ^ (128 : ℤ) := by exact_mod_cast q.man.isLt
  constructor
  · calc (2 : ℚ) ^ (q.expInt - 1) = (2 : ℚ) ^ (127 : ℤ) * (2 : ℚ) ^ (q.expInt - 128) := by
          rw [← zpow_add₀ two_ne_zero]; congr 1; omega
      _ ≤ q.mag := mul_le_mul_of_nonneg_right hlow hunit.le
  · calc q.mag < (2 : ℚ) ^ (128 : ℤ) * (2 : ℚ) ^ (q.expInt - 128) := mul_lt_mul_of_pos_right hhigh hunit
      _ = (2 : ℚ) ^ q.expInt := by rw [← zpow_add₀ two_ne_zero]; congr 1; omega

theorem Quad.mag_pos {q : Quad} (h : 2 ^ 127 ≤ q.man.toNat) : 0 < q.mag :=
  lt_of_lt_of_le (by positivity) (Quad.mag_bounds h).1

theorem Quad.mag_lt_of_exp_lt {a b : Quad} (ha : 2 ^ 127 ≤ a.man.toNat) (hb : 2 ^ 127 ≤ b.man.toNat)
    (h : a.expInt < b.expInt) : a.mag < b.mag :=
  calc a.mag < (2 : ℚ) ^ a.expInt := (Quad.mag_bounds ha).2
    _ ≤ (2 : ℚ) ^ (b.expInt - 1) := zpow_le_zpow_right₀ one_le_two (by omega)
    _ ≤ b.mag := (Quad.mag_bounds hb).1

/-- Normalised Quads of one magnitude have one exponent and one mantissa. -/
theorem Quad.mag_eq_iff {a b : Quad} (ha : 2 ^ 127 ≤ a.man.toNat) (hb : 2 ^ 127 ≤ b.man.toNat) :
    a.mag = b.mag ↔ a.expInt = b.expInt ∧ a.man = b.man := by
  constructor
  · intro h
    have hexp : a.expInt = b.expInt := by
      rcases lt_trichotomy a.expInt b.expInt with hlt | heq | hgt
      · exact absurd h (Quad.mag_lt_of_exp_lt ha hb hlt).ne
      · exact heq
      · exact absurd h (Quad.mag_lt_of_exp_lt hb ha hgt).ne'
    have hunit : (2 : ℚ) ^ (b.exp.toInt - 128) ≠ 0 := by positivity
    rw [Quad.mag, Quad.mag, show a.exp.toInt = b.exp.toInt from hexp] at h
    exact ⟨hexp, BitVec.eq_of_toNat_eq (by exact_mod_cast mul_right_cancel₀ hunit h)⟩
  · rintro ⟨hexp, hman⟩
    rw [Quad.mag, Quad.mag, hman, show a.exp.toInt = b.exp.toInt from hexp]

theorem Quad.value_of_finite {p : Params} {q : Quad} (h : q.cls p = .finite) :
    q.value p = if q.neg then -q.mag else q.mag :=
  if_neg ((Quad.cls_eq_finite_iff p q).mp h).1

/-- The exact sum of two finite Quads is 0 exactly when they are negatives of each other. -/
theorem Quad.value_add_eq_zero_iff {p : Params} {a b : Quad} (ha : a.cls p = .finite) (hb : b.cls p = .finite)
    (hma : 2 ^ 127 ≤ a.man.toNat) (hmb : 2 ^ 127 ≤ b.man.toNat) :
    a.value p + b.value p = 0 ↔ a.neg ≠ b.neg ∧ a.expInt = b.expInt ∧ a.man = b.man := by
  have hpa := Quad.mag_pos hma
  have hpb := Quad.mag_pos hmb
  rw [Quad.value_of_finite ha, Quad.value_of_finite hb, ← Quad.mag_eq_iff hma hmb]
  cases a.neg <;> cases b.neg
  case false.false => simpa using (add_pos hpa hpb).ne'
  case false.true => simp [add_neg_eq_zero]
  case true.false => simp [neg_add_eq_zero]
  case true.true => simpa [add_eq_zero_iff_eq_neg] using (neg_lt_zero.mpr hpa |>.trans hpb).ne

/-! ## What the status bits report -/

/-- The four status bits of the result `r` for operands `a` and `b` (spec/10_state.md R27): `nonzero` says that the exact
result is not 0, `cut` that the alignment cutoff is taken. -/
structure Reports (p : Params) (a b : Quad) (nonzero cut : Prop) (r : QResult) : Prop where
  qof : r.flags.qof = true ↔ r.val.cls p = .inf ∧ a.cls p ≠ .inf ∧ b.cls p ≠ .inf
  quf : r.flags.quf = true ↔ r.val.cls p = .zero ∧ a.cls p = .finite ∧ b.cls p = .finite ∧ nonzero
  qnv : r.flags.qnv = true ↔ r.val.cls p = .nan ∧ a.cls p ≠ .nan ∧ b.cls p ≠ .nan
  qcut : r.flags.qcut = true ↔ a.cls p = .finite ∧ b.cls p = .finite ∧ cut

section
variable {p : Params} {a b : Quad} {nonzero cut : Prop}

/-- Where an operand is not finite, a result that is infinite or NaN only through an operand sets no bit. -/
theorem reports_plain {q : Quad} (hfinite : ¬ (a.cls p = .finite ∧ b.cls p = .finite))
    (hinf : q.cls p = .inf → a.cls p = .inf ∨ b.cls p = .inf)
    (hnan : q.cls p = .nan → a.cls p = .nan ∨ b.cls p = .nan) : Reports p a b nonzero cut (.plain q) where
  qof := iff_of_false Bool.false_ne_true fun ⟨h, ha, hb⟩ => (hinf h).elim ha hb
  quf := iff_of_false Bool.false_ne_true fun ⟨_, ha, hb, _⟩ => hfinite ⟨ha, hb⟩
  qnv := iff_of_false Bool.false_ne_true fun ⟨h, ha, hb⟩ => (hnan h).elim ha hb
  qcut := iff_of_false Bool.false_ne_true fun ⟨ha, hb, _⟩ => hfinite ⟨ha, hb⟩

theorem reports_nan (hp : p.wf) (h : a.cls p = .nan ∨ b.cls p = .nan) (s : BitVec 8) :
    Reports p a b nonzero cut (.plain (Quad.nan p s)) :=
  reports_plain (fun ⟨ha, hb⟩ => by simp [ha, hb] at h) (fun hinf => by simp [Quad.cls_nan hp] at hinf) fun _ => h

theorem reports_inf (hp : p.wf) (h : a.cls p = .inf ∨ b.cls p = .inf) (n : Bool) (s : BitVec 8) :
    Reports p a b nonzero cut (.plain (Quad.inf p n s)) :=
  reports_plain (fun ⟨ha, hb⟩ => by simp [ha, hb] at h) (fun _ => h) fun hnan => by simp [Quad.cls_inf hp] at hnan

/-- A zero or finite result is no underflow where an operand is not finite. -/
theorem reports_of_zero {q : Quad} (hfinite : ¬ (a.cls p = .finite ∧ b.cls p = .finite))
    (hq : q.cls p = .zero ∨ q.cls p = .finite) : Reports p a b nonzero cut (.plain q) :=
  reports_plain hfinite (fun h => by simp [h] at hq) fun h => by simp [h] at hq

/-- The NaN of a domain error is reported by QNV (spec/43_quad_arith.md R168, R171). -/
theorem reports_invalid (hp : p.wf) (s : BitVec 8) (hfinite : ¬ (a.cls p = .finite ∧ b.cls p = .finite))
    (ha : a.cls p ≠ .nan) (hb : b.cls p ≠ .nan) :
    Reports p a b nonzero cut { val := Quad.nan p s, flags := QFlags.invalid } where
  qof := iff_of_false Bool.false_ne_true fun ⟨h, _, _⟩ => by simp [Quad.cls_nan hp] at h
  quf := iff_of_false Bool.false_ne_true fun ⟨_, ha, hb, _⟩ => hfinite ⟨ha, hb⟩
  qnv := iff_of_true rfl ⟨Quad.cls_nan hp s, ha, hb⟩
  qcut := iff_of_false Bool.false_ne_true fun ⟨ha, hb, _⟩ => hfinite ⟨ha, hb⟩

/-- For finite operands the bits depend on the result alone, on `nonzero` and on `cut`. -/
theorem reports_of_finite {r : QResult} (ha : a.cls p = .finite) (hb : b.cls p = .finite)
    (hqof : r.flags.qof = true ↔ r.val.cls p = .inf) (hquf : r.flags.quf = true ↔ r.val.cls p = .zero ∧ nonzero)
    (hqnv : r.flags.qnv = true ↔ r.val.cls p = .nan) (hqcut : r.flags.qcut = true ↔ cut) :
    Reports p a b nonzero cut r where
  qof := by simp [hqof, ha, hb]
  quf := by simp [hquf, ha, hb]
  qnv := by simp [hqnv, ha, hb]
  qcut := by simp [hqcut, ha, hb]

/-- The exponent clamp reports saturation and underflow (spec/43_quad_arith.md R165). -/
theorem finish_reports (hp : p.wf) (ha : a.cls p = .finite) (hb : b.cls p = .finite) (hnonzero : nonzero) (hcut : ¬ cut)
    (n : Bool) (e : Int) (m : U128) (s : BitVec 8) : Reports p a b nonzero cut (finish p n e m s) := by
  rcases finish_cases p n e m s with ⟨-, h⟩ | ⟨-, -, h⟩ | ⟨hhigh, hlow, h⟩ <;> rw [h]
  · apply reports_of_finite ha hb <;> simp [QFlags.overflow, QFlags.clear, Quad.cls_inf hp, hcut]
  · apply reports_of_finite ha hb <;> simp [QFlags.underflow, QFlags.clear, Quad.cls_zero, hnonzero, hcut]
  · have hmin := p.emin.le_toInt
    have hmax := p.emax.toInt_lt
    have hexp : (BitVec.ofInt 16 e).toInt = e := by
      rw [Params.emaxInt] at hhigh
      rw [Params.eminInt] at hlow
      rw [BitVec.toInt_ofInt]
      exact Int.bmod_eq_of_le (by omega) (by omega)
    have hcls : Quad.cls p { neg := n, exp := BitVec.ofInt 16 e, man := m, sig := s } = .finite :=
      Quad.cls_of_exp_between (hlow.trans_eq hexp.symm) (hexp.trans_lt hhigh)
    apply reports_of_finite ha hb <;> simp [QResult.plain, QFlags.clear, hcls, hcut]

/-- The cutoff leaves the anchor, with QCUT (spec/43_quad_arith.md R166, R167). -/
theorem cutoff_reports (ha : a.cls p = .finite) (hb : b.cls p = .finite) (hcut : cut) {hi : Quad}
    (hhi : hi.cls p = .finite) (n : Bool) (s : BitVec 8) : Reports p a b nonzero cut (cutoffResult n hi s) := by
  have hcls : Quad.cls p { neg := n, exp := hi.exp, man := hi.man, sig := s } = .finite := hhi
  apply reports_of_finite ha hb <;> simp [cutoffResult, QFlags.cutoff, QFlags.clear, hcls, hcut]

/-- Operands that cancel leave a zero that is no underflow (spec/43_quad_arith.md R167). -/
theorem cancel_reports (ha : a.cls p = .finite) (hb : b.cls p = .finite) (hzero : ¬ nonzero) (hcut : ¬ cut)
    (s : BitVec 8) : Reports p a b nonzero cut (.plain (Quad.zero p s)) := by
  apply reports_of_finite ha hb <;> simp [QResult.plain, QFlags.clear, Quad.cls_zero, hzero, hcut]

/-! ## The magnitude add and subtract -/

theorem magAddAnchored_reports (hp : p.wf) (ha : a.cls p = .finite) (hb : b.cls p = .finite) (hnonzero : nonzero)
    {hi lo : Quad} (hhi : hi.cls p = .finite) (hcut : cut ↔ 128 < hi.expInt - lo.expInt) (n : Bool) (s : BitVec 8) :
    Reports p a b nonzero cut (magAddAnchored p n hi lo s) := by
  rcases align_cases lo.man (hi.expInt - lo.expInt).toNat with ⟨hd, h⟩ | ⟨hd, t, h, -⟩ <;>
    simp only [magAddAnchored, h]
  · exact cutoff_reports ha hb (hcut.mpr (by omega)) hhi n s
  · have hnot : ¬ cut := mt hcut.mp (by omega)
    rcases addAligned_cases p n hi t s with ⟨-, m, -, hsum⟩ | ⟨-, m, -, hsum⟩ <;> rw [hsum] <;>
      exact finish_reports hp ha hb hnonzero hnot n _ m s

/-- A mantissa shifted right by `d` positions meets a normalised one only when `d` is 0. -/
theorem shifted_le {big small t : U128} {d : Nat} (hbig : 2 ^ 127 ≤ big.toNat) (ht : t.toNat = small.toNat / 2 ^ d)
    (hle : d = 0 → small.toNat ≤ big.toNat) :
    t.toNat ≤ big.toNat ∧ (big.toNat = t.toNat ↔ d = 0 ∧ big = small) := by
  have hsmall := small.isLt
  rcases Nat.eq_zero_or_pos d with rfl | hd
  · rw [Nat.pow_zero, Nat.div_one] at ht
    rw [ht, BitVec.toNat_inj]
    exact ⟨hle rfl, by simp⟩
  · have hlt : t.toNat < 2 ^ 127 := by
      calc t.toNat = small.toNat / 2 ^ d := ht
        _ ≤ small.toNat / 2 ^ 1 := Nat.div_le_div_left (Nat.pow_le_pow_right (by norm_num) hd) (by norm_num)
        _ < 2 ^ 127 := by omega
    exact ⟨by omega, by omega⟩

theorem magSubOrdered_reports (hp : p.wf) (ha : a.cls p = .finite) (hb : b.cls p = .finite) {big small : Quad}
    (hbig : big.cls p = .finite) (hmsb : 2 ^ 127 ≤ big.man.toNat) (hexp : small.expInt ≤ big.expInt)
    (hman : small.expInt = big.expInt → small.man.toNat ≤ big.man.toNat)
    (hnonzero : nonzero ↔ ¬ (big.expInt = small.expInt ∧ big.man = small.man))
    (hcut : cut ↔ 128 < big.expInt - small.expInt) (n : Bool) (s : BitVec 8) :
    Reports p a b nonzero cut (magSubOrdered p n big small s) := by
  rcases align_cases small.man (big.expInt - small.expInt).toNat with ⟨hd, h⟩ | ⟨hd, t, h, ht⟩ <;>
    simp only [magSubOrdered, h]
  · exact cutoff_reports ha hb (hcut.mpr (by omega)) hbig n s
  · have hnot : ¬ cut := mt hcut.mp (by omega)
    obtain ⟨hle, heq⟩ := shifted_le hmsb ht fun hd0 => hman (by omega)
    have hcancel : big.man.toNat = t.toNat ↔ ¬ nonzero := by
      rw [heq, hnonzero, not_not]
      exact and_congr_left fun _ => by omega
    rcases subAligned_cases p n big t s hle with ⟨hzero, hsub⟩ | ⟨hlt, k, m, -, -, -, hsub⟩ <;> rw [hsub]
    · exact cancel_reports ha hb (hcancel.mp hzero) hnot s
    · exact finish_reports hp ha hb (not_not.mp (mt hcancel.mpr hlt.ne')) hnot n _ m s

end

/-! ## Sums -/

/-- The lexicographic order of exponent and mantissa that picks MAGSUB's larger operand (spec/43_quad_arith.md R167). -/
theorem Quad.magGe_iff (a b : Quad) :
    a.magGe b = true ↔ b.expInt < a.expInt ∨ (a.expInt = b.expInt ∧ b.man.toNat ≤ a.man.toNat) := by
  simp [Quad.magGe]

theorem magAdd_reports {p : Params} {a b : Quad} {nonzero : Prop} (hp : p.wf) (ha : a.cls p = .finite)
    (hb : b.cls p = .finite) (hnonzero : nonzero) (n : Bool) (s : BitVec 8) :
    Reports p a b nonzero (128 < |a.expInt - b.expInt|) (magAdd p n a b s) := by
  rw [magAdd]
  split_ifs with h
  · exact magAddAnchored_reports hp ha hb hnonzero ha (by rw [abs_of_nonneg (by omega)]) n s
  · exact magAddAnchored_reports hp ha hb hnonzero hb (by rw [abs_of_neg (by omega), neg_sub]) n s

/-- MAGSUB on operands of opposite sign, the second flipped by the add core (spec/43_quad_arith.md R167, R168). -/
theorem magSub_reports {p : Params} {a b : Quad} {nonzero : Prop} (hp : p.wf) (ha : a.cls p = .finite)
    (hb : b.cls p = .finite) (hma : 2 ^ 127 ≤ a.man.toNat) (hmb : 2 ^ 127 ≤ b.man.toNat)
    (hnonzero : nonzero ↔ ¬ (a.expInt = b.expInt ∧ a.man = b.man)) (n : Bool) (s : BitVec 8) :
    Reports p a b nonzero (128 < |a.expInt - b.expInt|) (magSub p n a b.flip s) := by
  have horder : a.magGe b.flip = true ↔ b.expInt < a.expInt ∨ (a.expInt = b.expInt ∧ b.man.toNat ≤ a.man.toNat) :=
    Quad.magGe_iff a b.flip
  rw [magSub]
  split_ifs with h <;> rw [horder] at h
  · have hexp : b.expInt ≤ a.expInt := by omega
    have hman : b.expInt = a.expInt → b.man.toNat ≤ a.man.toNat := by omega
    have hcut : 128 < |a.expInt - b.expInt| ↔ 128 < a.expInt - b.expInt := by rw [abs_of_nonneg (by omega)]
    exact magSubOrdered_reports (small := b.flip) hp ha hb ha hma hexp hman hnonzero hcut n s
  · have hexp : a.expInt ≤ b.expInt := by omega
    have hman : a.expInt = b.expInt → a.man.toNat ≤ b.man.toNat := by omega
    have hcut : 128 < |a.expInt - b.expInt| ↔ 128 < b.expInt - a.expInt := by rw [abs_of_nonpos (by omega), neg_sub]
    rw [eq_comm, eq_comm (a := a.man)] at hnonzero
    exact magSubOrdered_reports (big := b.flip) hp ha hb hb hmb hexp hman hnonzero hcut (!n) s

/-- The status bits of a sum of valid operands, down the arms of ADDCORE (spec/43_quad_arith.md R168). -/
theorem addCore_reports {p : Params} {a b : Quad} (hp : p.wf) (ha : a.valid p = true) (hb : b.valid p = true) :
    Reports p a b (a.value p + b.value p ≠ 0) (128 < |a.expInt - b.expInt|) (addCore p a b) := by
  simp only [addCore, Bool.or_eq_true, Bool.and_eq_true, beq_iff_eq, Quad.isNaN_iff_cls hp, Quad.isInf_iff_cls hp,
    Quad.isZero_iff_cls]
  split_ifs with hnan hinfs hsign hainf hbinf hzeros hbzero hazero hsign
  · exact reports_nan hp hnan _
  · exact reports_inf hp (.inl hinfs.1) _ _
  · exact reports_invalid hp _ (by simp [hinfs.1]) (by simp [hinfs.1]) (by simp [hinfs.2])
  · exact reports_inf hp (.inl hainf) _ _
  · exact reports_inf hp (.inr hbinf) _ _
  · exact reports_of_zero (by simp [hzeros.1]) (.inl (Quad.cls_zero p _))
  · refine reports_of_zero (by simp [hbzero]) (.inr ?_)
    exact Quad.cls_eq_finite (mt .inl hnan) hainf fun h => hzeros ⟨h, hbzero⟩
  · exact reports_of_zero (by simp [hazero]) (.inr (Quad.cls_eq_finite (mt .inr hnan) hbinf hbzero))
  all_goals
    have hfa := Quad.cls_eq_finite (mt .inl hnan) hainf hazero
    have hfb := Quad.cls_eq_finite (mt .inr hnan) hbinf hbzero
    have hma := Quad.msb_of_valid ha hfa
    have hmb := Quad.msb_of_valid hb hfb
    have hzero := Quad.value_add_eq_zero_iff hfa hfb hma hmb
  · exact magAdd_reports hp hfa hfb (fun h => (hzero.mp h).1 hsign) _ _
  · exact magSub_reports hp hfa hfb hma hmb (by rw [ne_eq, hzero, and_iff_right hsign]) _ _

/-! ## Products -/

/-- The status bits of a product of valid operands, down the arms of QMUL (spec/43_quad_arith.md R171). -/
theorem mulCore_reports {p : Params} {a b : Quad} (hp : p.wf) (ha : a.valid p = true) (hb : b.valid p = true) :
    Reports p a b True False (mulCore p a b) := by
  simp only [mulCore, Bool.or_eq_true, Bool.and_eq_true, Quad.isNaN_iff_cls hp, Quad.isInf_iff_cls hp,
    Quad.isZero_iff_cls]
  split_ifs with hnan hdomain hinf hzero
  · exact reports_nan hp hnan _
  · rw [not_or] at hnan
    exact reports_invalid hp _ (by rintro ⟨hfa, hfb⟩; simp [hfa, hfb] at hdomain) hnan.1 hnan.2
  · exact reports_inf hp hinf _ _
  · exact reports_of_zero (by rintro ⟨hfa, hfb⟩; simp [hfa, hfb] at hzero) (.inl (Quad.cls_zero p _))
  · have hfa := Quad.cls_eq_finite (mt .inl hnan) (mt .inl hinf) (mt .inl hzero)
    have hfb := Quad.cls_eq_finite (mt .inr hnan) (mt .inr hinf) (mt .inr hzero)
    obtain ⟨k, m, -, -, -, hmul⟩ :=
      mulFinite_cases p (a.neg != b.neg) a b (minSig a b) (Quad.msb_of_valid ha hfa) (Quad.msb_of_valid hb hfb)
    rw [hmul]
    exact finish_reports hp hfa hfb trivial not_false _ _ m _

/-! ## The status bits after a command -/

theorem QOutcome.reports_sum {i : Instr} {s : State} {r : QResult} (h : QOutcome i s r) (hp : s.params.wf) {a b : Quad}
    (hi : addends i s = some (a, b)) :
    Reports s.params a b (a.value s.params + b.value s.params ≠ 0) (128 < |a.expInt - b.expInt|) r := by
  cases h with
  | sum hi' ha hb =>
    cases hi.symm.trans hi'
    exact addCore_reports hp ha hb
  | product hmul =>
    subst hmul
    cases hi
  | quiet q hsum => cases hsum.symm.trans hi

theorem QOutcome.reports_product {d a b : QReg} {s : State} {r : QResult} (h : QOutcome (.qmul d a b) s r)
    (hp : s.params.wf) : Reports s.params (s.readQ a) (s.readQ b) True False r := by
  cases h with
  | sum hi => cases hi
  | product hi ha hb =>
    cases hi
    exact mulCore_reports hp ha hb
  | quiet q _ hmul => exact absurd rfl (hmul d a b)

theorem QOutcome.flags_clear {i : Instr} {s : State} {r : QResult} (h : QOutcome i s r) (hsum : addends i s = none)
    (hmul : ∀ d a b : QReg, i ≠ .qmul d a b) : r.flags = QFlags.clear := by
  cases h with
  | sum hi => cases hsum.symm.trans hi
  | product hi => exact absurd hi (hmul _ _ _)
  | quiet => rfl

/-- A Q command's completion writes its destination and the four status bits. -/
theorem Completion.of_qDest {i : Instr} {s u : State} {d : QReg} (h : Completion i s u) (hd : qDest i = some d) :
    ∃ r, QOutcome i s r ∧ u = s.writeQResult d r := by
  cases h with
  | keeps hi | norm hi =>
    subst hi
    cases hd
  | writesX _ hq | writesXOvf _ hq => cases hq.symm.trans hd
  | writesQ hd' hr =>
    cases hd'.symm.trans hd
    exact ⟨_, hr, rfl⟩

/-- A U128 command's completion leaves the four Q status bits (spec/10_state.md R27). -/
theorem Completion.keeps_qbits {i : Instr} {s u : State} (h : Completion i s u) (hd : qDest i = none) :
    u.status.qof = s.status.qof ∧ u.status.quf = s.status.quf ∧ u.status.qnv = s.status.qnv ∧
      u.status.qcut = s.status.qcut := by
  cases h with
  | writesQ hd' => cases hd.symm.trans hd'
  | _ => exact ⟨rfl, rfl, rfl, rfl⟩

/-- Settles O54: a fault and a U128 command leave the bits; a completing Q command writes those of its sum, its product
or none. -/
theorem quadStatusBitsReportTheOutcome : Obligations.QuadStatusBitsReportTheOutcome := by
  intro i s t hp hs hexec
  rcases exec_unhalted_next_cases hs hexec with rfl | ⟨u, hu, rfl⟩
  · exact ⟨fun _ => ⟨rfl, rfl, rfl, rfl⟩, fun _ _ _ _ h => Bool.noConfusion h, fun _ _ _ _ h => Bool.noConfusion h,
      fun _ _ h => Bool.noConfusion h⟩
  refine ⟨fun h => ?_, fun d a b hd _ hi => ?_, fun d a b hi _ => ?_, fun d hd _ hsum hmul => ?_⟩
  · have hunhalted : u.status.fault = false := hu.keeps_fault.1.trans hs
    exact hu.keeps_qbits (h.resolve_right fun hfault => absurd (hfault.symm.trans hunhalted) (by decide))
  · obtain ⟨r, hr, rfl⟩ := hu.of_qDest hd
    obtain ⟨hqof, hquf, hqnv, hqcut⟩ := hr.reports_sum hp hi
    have hval : (s.q.set d.val r.val)[d.val] = r.val := Vector.getElem_set_self _
    rw [← hval] at hqof hquf hqnv
    exact ⟨hqof, hquf, hqnv, hqcut⟩
  · subst hi
    obtain ⟨r, hr, rfl⟩ := hu.of_qDest rfl
    obtain ⟨hqof, hquf, hqnv, hqcut⟩ := hr.reports_product hp
    have hval : (s.q.set d.val r.val)[d.val] = r.val := Vector.getElem_set_self _
    rw [← hval] at hqof hquf hqnv
    rw [and_true] at hquf
    exact ⟨hqof, hquf, hqnv, Bool.eq_false_iff.mpr fun h => (hqcut.mp h).2.2⟩
  · obtain ⟨r, hr, rfl⟩ := hu.of_qDest hd
    have hclear := hr.flags_clear hsum hmul
    rw [State.complete_status, State.writeQResult_status, hclear]
    exact ⟨rfl, rfl, rfl, rfl⟩

end Sys2Proof.Machine
end

section
/-! PROOF. Reads and writes of the register window at the port, word by word (spec/20_memory.md R50, R52,
R53, R56). -/

namespace Sys2Proof.Machine

/-! ## Halves, as numbers -/

theorem lowHalf_eq_ofNat (v : U128) : lowHalf v = BitVec.ofNat 64 (v.toNat % 2 ^ 64) := by
  rw [← lowHalf_toNat, BitVec.ofNat_toNat, BitVec.setWidth_eq]

theorem highHalf_eq_ofNat (v : U128) : highHalf v = BitVec.ofNat 64 (v.toNat / 2 ^ 64) := by
  rw [← highHalf_toNat, BitVec.ofNat_toNat, BitVec.setWidth_eq]

theorem withLow_toNat (v : U128) (w : Word64) : (withLow v w).toNat = v.toNat / 2 ^ 64 * 2 ^ 64 + w.toNat := by
  rw [withLow, joinHalves_toNat, highHalf_toNat]

theorem withHigh_toNat (v : U128) (w : Word64) : (withHigh v w).toNat = w.toNat * 2 ^ 64 + v.toNat % 2 ^ 64 := by
  rw [withHigh, joinHalves_toNat, lowHalf_toNat]

theorem withLow_eq_ofNat (v : U128) (w : Word64) :
    withLow v w = BitVec.ofNat 128 (v.toNat / 2 ^ 64 * 2 ^ 64 + w.toNat) := by
  rw [← withLow_toNat, BitVec.ofNat_toNat, BitVec.setWidth_eq]

theorem withHigh_eq_ofNat (v : U128) (w : Word64) :
    withHigh v w = BitVec.ofNat 128 (w.toNat * 2 ^ 64 + v.toNat % 2 ^ 64) := by
  rw [← withHigh_toNat, BitVec.ofNat_toNat, BitVec.setWidth_eq]

/-! ## The map -/

/-- The register that stands at a word index is the one the map puts there (spec/20_memory.md R52). -/
theorem windowReg_of_word {r : WindowReg} {n : Nat} (h : r.word = some n) : windowReg (BitVec.ofNat 7 n) = r := by
  cases r with
  | cmd | status | fcmd | id | ctrl =>
    obtain rfl := Option.some.inj h
    rfl
  | xLo k | xHi k | manLo k | manHi k | metaWd k =>
    obtain rfl := Option.some.inj h
    revert k
    decide
  | reserved => cases h

theorem readWindow_of_word {r : WindowReg} {n : Nat} (hr : r.word = some n) (s : State) :
    s.readWindow (BitVec.ofNat 7 n) = s.readReg r := by
  rw [State.readWindow, windowReg_of_word hr]

theorem windowReg_between_ctrl_and_x : ∀ n < 32, 5 ≤ n → windowReg (BitVec.ofNat 7 n) = .reserved := by decide

theorem windowReg_after_meta : ∀ j : QReg, windowReg (BitVec.ofNat 7 (67 + 4 * j.val)) = .reserved := by decide

theorem windowReg_after_q : ∀ n < 128, 96 ≤ n → windowReg (BitVec.ofNat 7 n) = .reserved := by decide

/-! ## Accesses of one word -/

/-- A read takes the event and answers the word (spec/20_memory.md R55). -/
theorem step_of_hostRead {s : State} {addr : WordIndex} {wd : Word64} {rest : List HostEvent}
    (h : s.inbox = hostRead addr wd :: rest) :
    step s = .next { s with inbox := rest, response := .readData (s.readWindow addr) } :=
  step_of_inbox_cons h

/-- A register write does not touch the host's side of the state. -/
theorem writeReg_host (s : State) (rest : List HostEvent) (p : Response) (w : Word64) (r : WindowReg) :
    State.writeReg { s with inbox := rest, response := p } w r =
      { s.writeReg w r with inbox := rest, response := p } := by
  cases r with
  | ctrl =>
    simp only [State.writeReg]
    split_ifs <;> rfl
  | _ => rfl

/-- A write of any word but CMD takes the event and writes the register that stands there (spec/20_memory.md R52). -/
theorem step_of_regWrite {s : State} {addr : WordIndex} {w : Word64} {rest : List HostEvent}
    (h : s.inbox = hostWrite addr w :: rest) (hcmd : addr ≠ 0) :
    step s = .next { s.writeReg w (windowReg addr) with inbox := rest, response := .written } := by
  rw [step_of_inbox_cons h, ← writeReg_host]
  exact State.portWrite_of_ne_zero _ hcmd w

theorem reads_of_windowReg {r : WindowReg} {n : Nat} (hr : windowReg (BitVec.ofNat 7 n) = r) {s : State} {v : Word64}
    (hv : s.readReg r = v) : Reads s n v := by
  intro wd rest
  rw [step_of_hostRead rfl, State.readWindow, hr, ← hv]
  rfl

theorem writes_of_windowReg {r : WindowReg} {n : Nat} (hr : windowReg (BitVec.ofNat 7 n) = r) (hcmd : r ≠ .cmd)
    {s t : State} {w : Word64} (ht : s.writeReg w r = t) : Writes s n w t := by
  intro rest
  have haddr : BitVec.ofNat 7 n ≠ 0 := fun h => hcmd (hr.symm.trans ((windowReg_eq_cmd_iff _).mpr h))
  rw [step_of_regWrite rfl haddr, hr, ← ht]
  simp only [writeReg_host]

/-- What a host read of a register gives, at the register's word. -/
theorem reads_of_word {r : WindowReg} {n : Nat} (hr : r.word = some n) {s : State} {v : Word64}
    (hv : s.readReg r = v) : Reads s n v :=
  reads_of_windowReg (windowReg_of_word hr) hv

/-- What a host write of a register other than CMD leaves, at the register's word. -/
theorem writes_of_word {r : WindowReg} {n : Nat} (hr : r.word = some n) (hcmd : r ≠ .cmd) {s t : State} {w : Word64}
    (ht : s.writeReg w r = t) : Writes s n w t :=
  writes_of_windowReg (windowReg_of_word hr) hcmd ht

/-- Reserved words read 0 and ignore writes (spec/20_memory.md R52). -/
theorem reads_writes_of_reserved {n : Nat} (hr : windowReg (BitVec.ofNat 7 n) = .reserved) (s : State) (w : Word64) :
    Reads s n 0#64 ∧ Writes s n w s :=
  ⟨reads_of_windowReg hr rfl, writes_of_windowReg hr nofun rfl⟩

/-! ## Words that are written -/

theorem reads_xLo (s : State) (i : XReg) :
    Reads s (32 + 2 * i.val) (BitVec.ofNat 64 (s.x[i.val].toNat % 2 ^ 64)) :=
  reads_of_word (r := .xLo i) rfl (lowHalf_eq_ofNat _)

theorem reads_xHi (s : State) (i : XReg) :
    Reads s (33 + 2 * i.val) (BitVec.ofNat 64 (s.x[i.val].toNat / 2 ^ 64)) :=
  reads_of_word (r := .xHi i) rfl (highHalf_eq_ofNat _)

theorem writes_xLo (s : State) (i : XReg) (w : Word64) :
    Writes s (32 + 2 * i.val) w
      { s with x := s.x.set i.val (BitVec.ofNat 128 (s.x[i.val].toNat / 2 ^ 64 * 2 ^ 64 + w.toNat)) } :=
  writes_of_word (r := .xLo i) rfl nofun (congrArg (s.writeX i) (withLow_eq_ofNat _ w))

theorem writes_xHi (s : State) (i : XReg) (w : Word64) :
    Writes s (33 + 2 * i.val) w
      { s with x := s.x.set i.val (BitVec.ofNat 128 (w.toNat * 2 ^ 64 + s.x[i.val].toNat % 2 ^ 64)) } :=
  writes_of_word (r := .xHi i) rfl nofun (congrArg (s.writeX i) (withHigh_eq_ofNat _ w))

theorem reads_manLo (s : State) (j : QReg) :
    Reads s (64 + 4 * j.val) (BitVec.ofNat 64 (s.q[j.val].man.toNat % 2 ^ 64)) :=
  reads_of_word (r := .manLo j) rfl (lowHalf_eq_ofNat _)

theorem reads_manHi (s : State) (j : QReg) :
    Reads s (65 + 4 * j.val) (BitVec.ofNat 64 (s.q[j.val].man.toNat / 2 ^ 64)) :=
  reads_of_word (r := .manHi j) rfl (highHalf_eq_ofNat _)

theorem writes_manLo (s : State) (j : QReg) (w : Word64) :
    Writes s (64 + 4 * j.val) w
      (s.writeQ j { s.readQ j with man := BitVec.ofNat 128 (s.q[j.val].man.toNat / 2 ^ 64 * 2 ^ 64 + w.toNat) }) :=
  writes_of_word (r := .manLo j) rfl nofun
    (congrArg (fun m => s.writeQ j { s.readQ j with man := m }) (withLow_eq_ofNat _ w))

theorem writes_manHi (s : State) (j : QReg) (w : Word64) :
    Writes s (65 + 4 * j.val) w
      (s.writeQ j { s.readQ j with man := BitVec.ofNat 128 (w.toNat * 2 ^ 64 + s.q[j.val].man.toNat % 2 ^ 64) }) :=
  writes_of_word (r := .manHi j) rfl nofun
    (congrArg (fun m => s.writeQ j { s.readQ j with man := m }) (withHigh_eq_ofNat _ w))

theorem reads_metaWd (s : State) (j : QReg) : Reads s (66 + 4 * j.val) (s.q[j.val]).metaWord :=
  reads_of_word (r := .metaWd j) rfl rfl

theorem writes_metaWd (s : State) (j : QReg) (w : Word64) :
    Writes s (66 + 4 * j.val) w { s with q := s.q.set j.val ((s.q[j.val]).withMeta w) } :=
  writes_of_word (r := .metaWd j) rfl nofun rfl

/-! ## CMD and CTRL -/

/-- A word that is no command raises ILLEGAL_CMD, unless the unit is halted (spec/30_encoding.md R76, R77,
spec/10_state.md R32). -/
theorem State.deliver_of_decode_error {s : State} {w : CmdWord} {e : DecodeError} (h : decode w = .error e) :
    s.deliver w =
      .next (if s.status.fault then s.countCommand else s.countCommand.faulted .illegalCmd w.toNat) := by
  simp only [State.deliver, h, State.halted_eq, raiseFault_eq_faulted]

/-- Only bits 31:0 of what is written to CMD are the command word (spec/20_memory.md R52). -/
theorem ofNat_32_mod (n : Nat) : BitVec.ofNat 32 (n % 2 ^ 32) = BitVec.ofNat 32 n := by
  simp only [← BitVec.toNat_inj, BitVec.toNat_ofNat, Nat.mod_mod]

theorem writes_ctrl_even (s : State) {w : Word64} (h : w.toNat % 2 = 0) : Writes s 4 w s := by
  have hbit : ¬ w.getLsbD 0 = true := fun hb => by
    have hodd := (getLsbD_zero_iff w).mp hb
    omega
  exact writes_of_word (r := .ctrl) rfl nofun (if_neg hbit)

theorem writes_ctrl_odd (s : State) {w : Word64} (h : w.toNat % 2 = 1) : Writes s 4 w s.resetUnit :=
  writes_of_word (r := .ctrl) rfl nofun (if_pos ((getLsbD_zero_iff w).mpr h))

/-- Settles O18: each word through the register that the map puts there. -/
theorem registerWindowFollowsTheMap : Obligations.RegisterWindowFollowsTheMap := by
  intro s w
  refine ⟨reads_of_word (r := .cmd) rfl rfl, fun rest i hi => ?_, fun rest e he => ?_,
    reads_of_word (r := .status) rfl rfl, writes_of_word (r := .status) rfl nofun rfl,
    reads_of_word (r := .fcmd) rfl rfl, writes_of_word (r := .fcmd) rfl nofun rfl,
    reads_of_word (r := .id) rfl rfl, writes_of_word (r := .id) rfl nofun rfl,
    reads_of_word (r := .ctrl) rfl rfl, writes_ctrl_even s,
    fun hodd => ⟨_, writes_ctrl_odd s hodd, resetUnit_hasResetValues s s.response⟩,
    fun k hlow hhigh => reads_writes_of_reserved (windowReg_between_ctrl_and_x k hhigh hlow) s w,
    fun i => ⟨reads_xLo s i, writes_xLo s i w, reads_xHi s i, writes_xHi s i w⟩,
    fun j => ⟨reads_manLo s j, writes_manLo s j w, reads_manHi s j, writes_manHi s j w, reads_metaWd s j,
      writes_metaWd s j w, reads_writes_of_reserved (windowReg_after_meta j) s w⟩,
    fun k hlow hhigh => reads_writes_of_reserved (windowReg_after_q k hhigh hlow) s w⟩
  · rw [ofNat_32_mod] at hi
    rw [step_of_cmdWrite rfl, State.deliver_of_decode hi]
    rfl
  · rw [ofNat_32_mod] at he
    rw [step_of_cmdWrite rfl, State.deliver_of_decode_error he, BitVec.toNat_ofNat]
    rfl

/-! ## The meta word -/

/-- exp, neg and sig one above the other (spec/20_memory.md R53). -/
theorem metaWord_toNat (q : Quad) :
    q.metaWord.toNat = q.exp.toNat + q.neg.toNat * 2 ^ 16 + q.sig.toNat * 2 ^ 24 := by
  have hexp : (q.exp.setWidth 64).toNat = q.exp.toNat := BitVec.toNat_setWidth_of_le (by norm_num)
  have hsig : (q.sig.setWidth 64).toNat = q.sig.toNat := BitVec.toNat_setWidth_of_le (by norm_num)
  obtain ⟨hneg, hnegLt⟩ := toNat_or_bitAt (x := q.exp.setWidth 64) (k := 16) q.neg
    (by rw [hexp]; exact q.exp.isLt) (by norm_num)
  obtain ⟨hword, -⟩ := toNat_or_field (k := 24) (n := 8) (y := q.sig.setWidth 64) (hnegLt.trans (by norm_num))
    (by rw [hsig]; exact q.sig.isLt) (by norm_num)
  rw [Quad.metaWord, hword, hneg, hexp, hsig]

theorem extractLsb'_eq_ofNat (w : Word64) (k n : Nat) :
    w.extractLsb' k n = BitVec.ofNat n (w.toNat / 2 ^ k % 2 ^ n) := by
  rw [← BitVec.toNat_inj, BitVec.extractLsb'_toNat, BitVec.toNat_ofNat, Nat.mod_mod, Nat.shiftRight_eq_div_pow]

/-- The fields a written meta word sets, as numbers; the mantissa stays (spec/20_memory.md R53). -/
theorem withMeta_eq (q : Quad) (w : Word64) :
    q.withMeta w =
      { neg := decide (w.toNat / 2 ^ 16 % 2 = 1), exp := BitVec.ofNat 16 (w.toNat % 2 ^ 16), man := q.man,
        sig := BitVec.ofNat 8 (w.toNat / 2 ^ 24 % 2 ^ 8) } := by
  have hneg : w.getLsbD 16 = decide (w.toNat / 2 ^ 16 % 2 = 1) := Nat.testBit_eq_decide_div_mod_eq
  rw [Quad.withMeta, hneg, extractLsb'_eq_ofNat w 0 16, extractLsb'_eq_ofNat w 24 8, Nat.pow_zero, Nat.div_one]

/-- Settles O19: the accesses of the word `metaWd j`, with the word's value and its fields as numbers. -/
theorem metaWordHoldsExpNegAndSig : Obligations.MetaWordHoldsExpNegAndSig := by
  intro s j w
  rw [← metaWord_toNat, BitVec.ofNat_toNat, BitVec.setWidth_eq, ← withMeta_eq]
  exact ⟨reads_metaWd s j, writes_metaWd s j w⟩

/-! ## Two accesses for 128 bits -/

/-- What a write leaves, when it is the next event of the state itself. -/
theorem Writes.step_eq {s t : State} {n : Nat} {w : Word64} {rest : List HostEvent} (h : Writes s n w t)
    (hinbox : s.inbox = hostWrite (BitVec.ofNat 7 n) w :: rest) :
    step s = .next { t with inbox := rest, response := .written } := by
  have hstep := h rest
  rwa [← hinbox] at hstep

theorem readX_writeReg_xLo (s : State) (i : XReg) (w : Word64) :
    (s.writeReg w (.xLo i)).readX i = withLow (s.readX i) w := s.readX_writeX_same i _

theorem readX_writeReg_xHi (s : State) (i : XReg) (w : Word64) :
    (s.writeReg w (.xHi i)).readX i = withHigh (s.readX i) w := s.readX_writeX_same i _

/-- The high half written after the low one leaves both (spec/20_memory.md R56). -/
theorem withHigh_withLow (v : U128) (hi lo : Word64) : withHigh (withLow v lo) hi = joinHalves hi lo := by
  rw [withHigh, withLow, lowHalf_joinHalves]

/-- Settles O22: the second access keeps the low half that the first has written. -/
theorem halvesAreWrittenOneAtATime : Obligations.HalvesAreWrittenOneAtATime := by
  intro s i hi lo rest hinbox
  have hfirst := (writes_of_word (r := .xLo i) rfl nofun rfl).step_eq hinbox
  refine ⟨_, _, hfirst, (writes_of_word (r := .xHi i) rfl nofun rfl).step_eq rfl, ?_, ?_⟩
  · exact (congrArg BitVec.toNat (readX_writeReg_xLo s i lo)).trans (withLow_toNat _ lo)
  · have hboth : ((s.writeReg lo (.xLo i)).writeReg hi (.xHi i)).readX i = joinHalves hi lo := by
      rw [readX_writeReg_xHi, readX_writeReg_xLo, withHigh_withLow]
    exact (congrArg BitVec.toNat hboth).trans (joinHalves_toNat hi lo)

end Sys2Proof.Machine
end

section
/-! PROOF. The bytes of the register window, lowest first (spec/20_memory.md R54). -/

namespace Sys2Proof.Machine

theorem byteOfWord_toNat (w : Word64) (k : Nat) : (byteOfWord w k).toNat = w.toNat / 2 ^ (8 * k) % 2 ^ 8 := by
  rw [byteOfWord, BitVec.extractLsb'_toNat, Nat.shiftRight_eq_div_pow]

/-- The byte at offset `8 * n + k` is byte `k` of word `n` (spec/20_memory.md R54). -/
theorem windowByte_of_lt (s : State) (n : Nat) {k : Nat} (hk : k < 8) :
    s.windowByte (8 * n + k) = byteOfWord (s.readWindow (BitVec.ofNat 7 n)) k := by
  rw [State.windowByte, show (8 * n + k) / 8 = n by omega, show (8 * n + k) % 8 = k by omega]

theorem natOfBytes_append (as bs : List Byte) :
    natOfBytes (as ++ bs) = natOfBytes as + 2 ^ (8 * as.length) * natOfBytes bs := by
  induction as with
  | nil => simp [natOfBytes]
  | cons a as ih =>
    rw [List.cons_append, natOfBytes, natOfBytes, ih, List.length_cons, Nat.mul_succ, Nat.pow_add]
    ring

/-- The first `m` bytes of a word, lowest first, are the word modulo `2 ^ (8 * m)`. -/
theorem natOfBytes_byteOfWord (w : Word64) (m : Nat) :
    natOfBytes ((List.range m).map (byteOfWord w)) = w.toNat % 2 ^ (8 * m) := by
  induction m with
  | zero => simp [natOfBytes, Nat.mod_one]
  | succ m ih =>
    rw [List.range_succ, List.map_append, natOfBytes_append, ih, List.length_map, List.length_range, List.map_singleton,
      Nat.mul_succ, Nat.pow_add, Nat.mod_mul, ← byteOfWord_toNat]
    rfl

/-- The eight bytes at a word's offset make the word (spec/20_memory.md R54). -/
theorem natOfBytes_windowWord (s : State) (n : Nat) :
    natOfBytes ((List.range 8).map fun k => s.windowByte (8 * n + k)) =
      (s.readWindow (BitVec.ofNat 7 n)).toNat := by
  have hbytes : (List.range 8).map (fun k => s.windowByte (8 * n + k)) =
      (List.range 8).map (byteOfWord (s.readWindow (BitVec.ofNat 7 n))) :=
    List.map_congr_left fun k hk => windowByte_of_lt s n (List.mem_range.mp hk)
  rw [hbytes, natOfBytes_byteOfWord, Nat.mod_eq_of_lt (BitVec.isLt _)]

/-- The sixteen bytes at the offset of two neighbouring words that read as the halves of `v` make `v`. -/
theorem natOfBytes_of_halves {s : State} {n : Nat} {v : U128} (hlow : s.readWindow (BitVec.ofNat 7 n) = lowHalf v)
    (hhigh : s.readWindow (BitVec.ofNat 7 (n + 1)) = highHalf v) :
    natOfBytes ((List.range 16).map fun k => s.windowByte (8 * n + k)) = v.toNat := by
  have hsplit : (List.range 16).map (fun k => s.windowByte (8 * n + k)) =
      (List.range 8).map (fun k => s.windowByte (8 * n + k)) ++
        (List.range 8).map (fun k => s.windowByte (8 * (n + 1) + k)) := rfl
  rw [hsplit, natOfBytes_append, natOfBytes_windowWord, natOfBytes_windowWord, hlow, hhigh, List.length_map,
    List.length_range, toNat_eq_halves v]
  ring

/-- Settles O21: the bytes of one word, and a register's bytes as those of the two words of its halves. -/
theorem windowBytesAreLittleEndian : Obligations.WindowBytesAreLittleEndian := by
  refine fun s => ⟨fun addr k hk => ?_, fun i => ?_, fun j => ?_⟩
  · rw [windowByte_of_lt s addr.toNat hk, byteOfWord_toNat, BitVec.ofNat_toNat, BitVec.setWidth_eq]
  · have hoff : 0x100 + 16 * i.val = 8 * (32 + 2 * i.val) := by ring
    rw [hoff]
    exact natOfBytes_of_halves (readWindow_of_word (r := .xLo i) rfl s)
      (readWindow_of_word (r := .xHi i) (congrArg some (by omega)) s)
  · have hoff : 0x200 + 32 * j.val = 8 * (64 + 4 * j.val) := by ring
    rw [hoff]
    exact natOfBytes_of_halves (readWindow_of_word (r := .manLo j) rfl s)
      (readWindow_of_word (r := .manHi j) (congrArg some (by omega)) s)

end Sys2Proof.Machine
end

section
/-! PROOF. The host's delivery of one command, what every step leaves of the events and the parameters, and requests
with both or neither of `wr` and `rd` (spec/20_memory.md R50, R57, R59). -/

namespace Sys2Proof.Machine

/-! ## The host's delivery of one command -/

/-- A table word that decodes is a command word that decodes (spec/30_encoding.md R70). -/
theorem decode_tableWord {w : Nat} {i : Instr} (h : decodeTableWord 32 w = some i) :
    decode (tableWord 32 w) = .ok i := by
  rw [decodeTableWord, if_pos le_rfl] at h
  split at h
  · next i' hdecode => exact hdecode.trans (congrArg _ (Option.some.inj h))
  · cases h

/-- Settles O7: the delivery is a CMD write of the table's word. -/
theorem withFetchWordRunsTheWordNext : Obligations.WithFetchWordRunsTheWordNext := by
  intro s w i h
  have hword : BitVec.ofNat 32 ((tableWord 32 w).setWidth 64).toNat = tableWord 32 w := by
    rw [BitVec.toNat_setWidth_of_le (by norm_num), BitVec.ofNat_toNat, BitVec.setWidth_eq]
  exact stepRunsTheDecodedCommand (s.withFetchWord 32 w) ((tableWord 32 w).setWidth 64) s.inbox i rfl
    (by rw [hword]; exact decode_tableWord h)

/-! ## What every step leaves of the host's side -/

/-- `t` holds the events and the parameters that `s` holds. -/
structure SameHostSide (s t : State) : Prop where
  inbox : t.inbox = s.inbox
  params : t.params = s.params

theorem exec_sameHostSide {i : Instr} {s t : State} (h : exec i s = .next t) : SameHostSide s t :=
  ⟨(exec_sameBut h).inbox, (exec_sameBut h).params⟩

theorem deliver_sameHostSide {s t : State} {w : CmdWord} (h : s.deliver w = .next t) : SameHostSide s t := by
  cases hdecode : decode w with
  | ok i =>
    rw [State.deliver_of_decode hdecode] at h
    obtain ⟨hinbox, hparams⟩ := exec_sameHostSide h
    exact ⟨hinbox, hparams⟩
  | error e =>
    rw [State.deliver_of_decode_error hdecode] at h
    obtain rfl := Host.Outcome.next.inj h
    split_ifs <;> exact ⟨rfl, rfl⟩

theorem writeReg_sameHostSide (s : State) (w : Word64) (r : WindowReg) : SameHostSide s (s.writeReg w r) := by
  cases r with
  | ctrl =>
    rw [State.writeReg]
    split_ifs <;> exact ⟨rfl, rfl⟩
  | _ => exact ⟨rfl, rfl⟩

theorem portWrite_sameHostSide {s t : State} {addr : WordIndex} {w : Word64} (h : s.portWrite addr w = .next t) :
    SameHostSide s t := by
  by_cases hcmd : addr = 0
  · subst hcmd
    obtain ⟨hinbox, hparams⟩ := deliver_sameHostSide ((s.portWrite_cmd w).symm.trans h)
    exact ⟨hinbox, hparams⟩
  · obtain rfl := Host.Outcome.next.inj ((s.portWrite_of_ne_zero hcmd w).symm.trans h)
    obtain ⟨hinbox, hparams⟩ := writeReg_sameHostSide (s.respond .written) w (windowReg addr)
    exact ⟨hinbox, hparams⟩

theorem servePort_sameHostSide {s t : State} {r : PortRequest} (h : s.servePort r = .next t) : SameHostSide s t := by
  obtain ⟨addr, wr, rd, wdata⟩ := r
  cases wr with
  | true =>
    cases rd with
    | true => cases h
    | false => exact portWrite_sameHostSide h
  | false => cases rd <;> cases h <;> exact ⟨rfl, rfl⟩

theorem serve_sameHostSide {s t : State} {e : HostEvent} (h : s.serve e = .next t) : SameHostSide s t := by
  cases e with
  | rst =>
    obtain rfl := Host.Outcome.next.inj h
    exact ⟨rfl, rfl⟩
  | port r => exact servePort_sameHostSide h
  | bus a =>
    change s.serveBusAt Config.base a = .next t at h
    rcases s.serveBusAt_cases Config.base a with ⟨-, hbus⟩ | ⟨-, -, hbus⟩ | ⟨-, -, hbus⟩ <;> rw [hbus] at h
    · cases h
    · cases h
    · exact servePort_sameHostSide h

/-- Settles O17: serving an event touches neither the events after it nor the parameters. -/
theorem stepsRemoveTheFirstEventAndKeepTheParameters :
    Obligations.StepsRemoveTheFirstEventAndKeepTheParameters := by
  intro s t h
  cases hinbox : s.inbox with
  | nil =>
    rw [step_of_inbox_nil hinbox] at h
    obtain rfl := Host.Outcome.next.inj h
    exact ⟨hinbox, rfl⟩
  | cons e rest =>
    rw [step_of_inbox_cons hinbox] at h
    obtain ⟨hrest, hparams⟩ := serve_sameHostSide h
    exact ⟨hrest, hparams⟩

/-! ## Requests with both flags, or neither -/

/-- A request with both `wr` and `rd` is outside the port's protocol (spec/20_memory.md R50). -/
theorem State.servePort_both (s : State) {r : PortRequest} (hwr : r.wr = true) (hrd : r.rd = true) :
    s.servePort r = .refused .readAndWrite := by
  simp only [State.servePort, hwr, hrd]

/-- A request with neither `wr` nor `rd` asks nothing of the unit (spec/70_reset_and_hazards.md R241). -/
theorem State.servePort_neither (s : State) {r : PortRequest} (hwr : r.wr = false) (hrd : r.rd = false) :
    s.servePort r = s.idle := by
  simp only [State.servePort, hwr, hrd]

/-- Settles O24: by the request's two flags, and by the empty inbox. -/
theorem portRefusesBothAndIdlesOnNeither : Obligations.PortRefusesBothAndIdlesOnNeither := by
  intro s r rest
  refine ⟨fun hinbox hwr hrd => ?_, fun hinbox hwr hrd => ?_, fun hinbox => ?_⟩
  · exact (step_of_inbox_cons hinbox).trans (State.servePort_both _ hwr hrd)
  · exact (step_of_inbox_cons hinbox).trans (State.servePort_neither _ hwr hrd)
  · exact step_of_inbox_nil hinbox

end Sys2Proof.Machine
end

section
/-! PROOF. Words from their fields: the encoding of what a row of the opcode map builds, words as numbers, and which
words are illegal (spec/30_encoding.md R71 to R79). -/

namespace Sys2Proof

/-! ## The word a row's command is encoded as -/

/-- A field set back in its place is the word under the field's mask. -/
theorem extractLsb'_shiftLeft (w : CmdWord) (k n : Nat) :
    (w.extractLsb' k n).setWidth 32 <<< k = w &&& (BitVec.allOnes n).setWidth 32 <<< k := by
  ext i hi
  by_cases hk : i < k
  · simp [hk]
  · simp [hk, show k + (i - k) = i by omega, hi, Bool.and_comm]

theorem xdField_shiftLeft (w : CmdWord) : (xBits (xdField w)).setWidth 32 <<< 20 = w &&& 0x00F00000#32 :=
  extractLsb'_shiftLeft w 20 4

theorem xaField_shiftLeft (w : CmdWord) : (xBits (xaField w)).setWidth 32 <<< 16 = w &&& 0x000F0000#32 :=
  extractLsb'_shiftLeft w 16 4

theorem xbField_shiftLeft (w : CmdWord) : (xBits (xbField w)).setWidth 32 <<< 12 = w &&& 0x0000F000#32 :=
  extractLsb'_shiftLeft w 12 4

theorem immField_setWidth (w : CmdWord) : (immField w).setWidth 32 = w &&& 0x0000FFFF#32 := by
  simpa [immField] using extractLsb'_shiftLeft w 0 16

theorem n8Field_setWidth (w : CmdWord) : (n8Field w).setWidth 32 = w &&& 0x000000FF#32 := by
  simpa [n8Field] using extractLsb'_shiftLeft w 0 8

theorem qBits_setWidth (r : QReg) : (qBits r).setWidth 32 = (BitVec.ofFin r : BitVec 3).setWidth 32 :=
  BitVec.setWidth_setWidth (by decide)

theorem qdField_shiftLeft (w : CmdWord) : (qBits (qdField w)).setWidth 32 <<< 20 = w &&& 0x00700000#32 := by
  rw [qBits_setWidth]
  exact extractLsb'_shiftLeft w 20 3

theorem qaField_shiftLeft (w : CmdWord) : (qBits (qaField w)).setWidth 32 <<< 16 = w &&& 0x00070000#32 := by
  rw [qBits_setWidth]
  exact extractLsb'_shiftLeft w 16 3

theorem qbField_shiftLeft (w : CmdWord) : (qBits (qbField w)).setWidth 32 <<< 12 = w &&& 0x00007000#32 := by
  rw [qBits_setWidth]
  exact extractLsb'_shiftLeft w 12 3

/-- A row reads every bit outside its mask, and the encoding puts each where it was read. -/
theorem encode_build {r : OpRow} (hr : r ∈ opRows) (w : CmdWord) :
    encode (r.build w) = r.pattern ||| w &&& ~~~r.mask := by
  have hshrmsb : 0x1A000000#32 ||| (w &&& 0x00F00000#32 ||| (w &&& 0x000F0000#32 ||| 1#32)) =
      0x1A000001#32 ||| w &&& 0x00FF0000#32 := by
    rw [← BitVec.or_assoc (w &&& _), ← BitVec.and_or_distrib_left, BitVec.or_comm _ 1#32, ← BitVec.or_assoc]
    rfl
  revert r
  simpa [opRows, rowsLogic, rowsMulShift, rowsQuadArith, rowsQuadRound, encode, wordR3, wordR2, wordRI, wordRS,
    xdField_shiftLeft, xaField_shiftLeft, xbField_shiftLeft, immField_setWidth, n8Field_setWidth, qdField_shiftLeft,
    qaField_shiftLeft, qbField_shiftLeft, BitVec.or_assoc, ← BitVec.and_or_distrib_left] using hshrmsb

theorem pattern_and_mask {r : OpRow} (hr : r ∈ opRows) : r.pattern &&& r.mask = r.pattern := by
  revert r
  decide

/-- A word matches a row exactly when it is the word of the command that the row builds from it. -/
theorem matches_iff_encode_build {r : OpRow} (hr : r ∈ opRows) {w : CmdWord} :
    w &&& r.mask = r.pattern ↔ encode (r.build w) = w := by
  rw [encode_build hr]
  constructor
  · intro h
    rw [← h, ← BitVec.and_or_distrib_left, BitVec.or_not_self, BitVec.and_allOnes]
  · intro h
    calc w &&& r.mask = (r.pattern ||| w &&& ~~~r.mask) &&& r.mask := by rw [h]
      _ = r.pattern &&& r.mask ||| w &&& (~~~r.mask &&& r.mask) := by
        rw [BitVec.and_or_distrib_right, BitVec.and_assoc]
      _ = r.pattern := by simp [pattern_and_mask hr]

/-! ## Words as numbers -/

theorem toNat_field {n : Nat} (v : BitVec n) {k : Nat} (hfit : n + k ≤ 32) :
    (v.setWidth 32 <<< k).toNat = v.toNat * 2 ^ k := by
  have hv : v.toNat * 2 ^ k < 2 ^ 32 :=
    calc v.toNat * 2 ^ k < 2 ^ n * 2 ^ k := Nat.mul_lt_mul_of_pos_right v.isLt (by positivity)
      _ = 2 ^ (n + k) := (Nat.pow_add ..).symm
      _ ≤ 2 ^ 32 := Nat.pow_le_pow_right (by decide) hfit
  rw [BitVec.toNat_shiftLeft, BitVec.toNat_setWidth_of_le (by omega), Nat.shiftLeft_eq, Nat.mod_eq_of_lt hv]

/-- A field above all bits of the rest of the word: the numbers add. -/
theorem toNat_field_or {n : Nat} (v : BitVec n) {k : Nat} (hfit : n + k ≤ 32) {rest : CmdWord}
    (hrest : rest.toNat < 2 ^ k) : (v.setWidth 32 <<< k ||| rest).toNat = v.toNat * 2 ^ k + rest.toNat := by
  rw [BitVec.toNat_or, toNat_field v hfit, ← Nat.shiftLeft_eq, ← Nat.shiftLeft_add_eq_or_of_lt hrest]

/-- The opcode and the destination above the rest of a word. -/
theorem toNat_op_dest_or (op : BitVec 8) (d : BitVec 4) {rest : CmdWord} (hrest : rest.toNat < 2 ^ 20) :
    (op.setWidth 32 <<< 24 ||| (d.setWidth 32 <<< 20 ||| rest)).toNat =
      op.toNat * 2 ^ 24 + d.toNat * 2 ^ 20 + rest.toNat := by
  have hd := d.isLt
  have hlow : (d.setWidth 32 <<< 20 ||| rest).toNat = d.toNat * 2 ^ 20 + rest.toNat :=
    toNat_field_or d (by decide) hrest
  rw [toNat_field_or op (by decide) (by omega), hlow, Nat.add_assoc]

theorem toNat_wordR2 (op : BitVec 8) (d a : BitVec 4) :
    (wordR2 op d a).toNat = Machine.numR2 op.toNat d.toNat a.toNat := by
  have ha := a.isLt
  have hrest : (a.setWidth 32 <<< 16).toNat = a.toNat * 2 ^ 16 := toNat_field a (by decide)
  rw [wordR2, BitVec.or_assoc, toNat_op_dest_or _ _ (by omega), hrest, Machine.numR2]

theorem toNat_wordR3 (op : BitVec 8) (d a b : BitVec 4) :
    (wordR3 op d a b).toNat = Machine.numR3 op.toNat d.toNat a.toNat b.toNat := by
  have ha := a.isLt
  have hb := b.isLt
  have hlow : (b.setWidth 32 <<< 12).toNat = b.toNat * 2 ^ 12 := toNat_field b (by decide)
  have hrest : (a.setWidth 32 <<< 16 ||| b.setWidth 32 <<< 12).toNat = a.toNat * 2 ^ 16 + b.toNat * 2 ^ 12 := by
    rw [toNat_field_or a (by decide) (by omega), hlow]
  rw [wordR3, BitVec.or_assoc, BitVec.or_assoc, toNat_op_dest_or _ _ (by omega), hrest, Machine.numR3,
    Nat.add_assoc _ (_ * 2 ^ 16)]

theorem toNat_wordRI (op : BitVec 8) (d : BitVec 4) (imm : BitVec 16) :
    (wordRI op d imm).toNat = Machine.numRI op.toNat d.toNat imm.toNat := by
  have himm := imm.isLt
  have hrest : (imm.setWidth 32).toNat = imm.toNat := BitVec.toNat_setWidth_of_le (by decide)
  rw [wordRI, BitVec.or_assoc, toNat_op_dest_or _ _ (by omega), hrest, Machine.numRI]

theorem toNat_wordRS (op : BitVec 8) (d a : BitVec 4) (n : BitVec 8) :
    (wordRS op d a n).toNat = Machine.numRS op.toNat d.toNat a.toNat n.toNat := by
  have ha := a.isLt
  have hn := n.isLt
  have hlow : (n.setWidth 32).toNat = n.toNat := BitVec.toNat_setWidth_of_le (by decide)
  have hrest : (a.setWidth 32 <<< 16 ||| n.setWidth 32).toNat = a.toNat * 2 ^ 16 + n.toNat := by
    rw [toNat_field_or a (by decide) (by omega), hlow]
  rw [wordRS, BitVec.or_assoc, BitVec.or_assoc, toNat_op_dest_or _ _ (by omega), hrest, Machine.numRS,
    Nat.add_assoc _ (_ * 2 ^ 16)]

theorem toNat_extractLsb' (w : CmdWord) (k n : Nat) : (w.extractLsb' k n).toNat = w.toNat / 2 ^ k % 2 ^ n := by
  rw [BitVec.extractLsb'_toNat, Nat.shiftRight_eq_div_pow]

@[simp] theorem toNat_xBits (r : XReg) : (xBits r).toNat = r.val := rfl

@[simp] theorem toNat_qBits (r : QReg) : (qBits r).toNat = r.val :=
  BitVec.toNat_setWidth_of_le (by decide)

theorem toNat_opField (w : CmdWord) : (opField w).toNat = w.toNat / 2 ^ 24 := by
  have hw := w.isLt
  rw [opField, toNat_extractLsb']
  omega

theorem val_xdField (w : CmdWord) : (xdField w).val = w.toNat / 2 ^ 20 % 2 ^ 4 := toNat_extractLsb' w 20 4

theorem val_xaField (w : CmdWord) : (xaField w).val = w.toNat / 2 ^ 16 % 2 ^ 4 := toNat_extractLsb' w 16 4

theorem val_xbField (w : CmdWord) : (xbField w).val = w.toNat / 2 ^ 12 % 2 ^ 4 := toNat_extractLsb' w 12 4

theorem val_qdField (w : CmdWord) : (qdField w).val = w.toNat / 2 ^ 20 % 2 ^ 3 := toNat_extractLsb' w 20 3

theorem val_qaField (w : CmdWord) : (qaField w).val = w.toNat / 2 ^ 16 % 2 ^ 3 := toNat_extractLsb' w 16 3

theorem val_qbField (w : CmdWord) : (qbField w).val = w.toNat / 2 ^ 12 % 2 ^ 3 := toNat_extractLsb' w 12 3

theorem toNat_immField (w : CmdWord) : (immField w).toNat = w.toNat % 2 ^ 16 := by
  rw [immField, toNat_extractLsb', Nat.pow_zero, Nat.div_one]

theorem toNat_n8Field (w : CmdWord) : (n8Field w).toNat = w.toNat % 2 ^ 8 := by
  rw [n8Field, toNat_extractLsb', Nat.pow_zero, Nat.div_one]

/-! ## The words that are not the word of their own fields, in R77's terms -/

section
variable {op : BitVec 8} {w : CmdWord}

theorem wordR3_xFields_ne_iff (hop : w.toNat / 2 ^ 24 = op.toNat) :
    ¬ wordR3 op (xBits (xdField w)) (xBits (xaField w)) (xBits (xbField w)) = w ↔ ¬ w.toNat % 2 ^ 12 = 0 := by
  rw [← BitVec.toNat_inj, toNat_wordR3, Machine.numR3, toNat_xBits, toNat_xBits, toNat_xBits, val_xdField, val_xaField,
    val_xbField]
  omega

theorem wordR2_xFields_ne_iff (hop : w.toNat / 2 ^ 24 = op.toNat) :
    ¬ wordR2 op (xBits (xdField w)) (xBits (xaField w)) = w ↔ ¬ w.toNat % 2 ^ 16 = 0 := by
  rw [← BitVec.toNat_inj, toNat_wordR2, Machine.numR2, toNat_xBits, toNat_xBits, val_xdField, val_xaField]
  omega

theorem wordRI_xFields_ne_iff (hop : w.toNat / 2 ^ 24 = op.toNat) :
    ¬ wordRI op (xBits (xdField w)) (immField w) = w ↔ ¬ w.toNat / 2 ^ 16 % 16 = 0 := by
  rw [← BitVec.toNat_inj, toNat_wordRI, Machine.numRI, toNat_xBits, val_xdField, toNat_immField]
  omega

theorem wordRS_xFields_ne_iff (hop : w.toNat / 2 ^ 24 = op.toNat) :
    ¬ wordRS op (xBits (xdField w)) (xBits (xaField w)) (n8Field w) = w ↔ ¬ w.toNat / 2 ^ 8 % 2 ^ 8 = 0 := by
  rw [← BitVec.toNat_inj, toNat_wordRS, Machine.numRS, toNat_xBits, toNat_xBits, val_xdField, val_xaField,
    toNat_n8Field]
  omega

theorem wordRS_one_xFields_ne_iff (hop : w.toNat / 2 ^ 24 = op.toNat) :
    ¬ wordRS op (xBits (xdField w)) (xBits (xaField w)) 1#8 = w ↔
      ¬ w.toNat / 2 ^ 8 % 2 ^ 8 = 0 ∨ ¬ w.toNat % 2 ^ 8 = 1 := by
  rw [← BitVec.toNat_inj, toNat_wordRS, Machine.numRS, toNat_xBits, toNat_xBits, val_xdField, val_xaField,
    show (1#8).toNat = 1 from rfl]
  omega

theorem wordR3_qFields_ne_iff (hop : w.toNat / 2 ^ 24 = op.toNat) :
    ¬ wordR3 op (qBits (qdField w)) (qBits (qaField w)) (qBits (qbField w)) = w ↔
      ¬ w.toNat % 2 ^ 12 = 0 ∨ 8 ≤ w.toNat / 2 ^ 20 % 16 ∨ 8 ≤ w.toNat / 2 ^ 16 % 16 ∨
        8 ≤ w.toNat / 2 ^ 12 % 16 := by
  rw [← BitVec.toNat_inj, toNat_wordR3, Machine.numR3, toNat_qBits, toNat_qBits, toNat_qBits, val_qdField, val_qaField,
    val_qbField]
  omega

theorem wordR2_qFields_ne_iff (hop : w.toNat / 2 ^ 24 = op.toNat) :
    ¬ wordR2 op (qBits (qdField w)) (qBits (qaField w)) = w ↔
      ¬ w.toNat % 2 ^ 16 = 0 ∨ 8 ≤ w.toNat / 2 ^ 20 % 16 ∨ 8 ≤ w.toNat / 2 ^ 16 % 16 := by
  rw [← BitVec.toNat_inj, toNat_wordR2, Machine.numR2, toNat_qBits, toNat_qBits, val_qdField, val_qaField]
  omega

theorem wordR2_qxFields_ne_iff (hop : w.toNat / 2 ^ 24 = op.toNat) :
    ¬ wordR2 op (qBits (qdField w)) (xBits (xaField w)) = w ↔
      ¬ w.toNat % 2 ^ 16 = 0 ∨ 8 ≤ w.toNat / 2 ^ 20 % 16 := by
  rw [← BitVec.toNat_inj, toNat_wordR2, Machine.numR2, toNat_qBits, toNat_xBits, val_qdField, val_xaField]
  omega

theorem wordRS_qFields_ne_iff (hop : w.toNat / 2 ^ 24 = op.toNat) :
    ¬ wordRS op (qBits (qdField w)) (qBits (qaField w)) (n8Field w) = w ↔
      ¬ w.toNat / 2 ^ 8 % 2 ^ 8 = 0 ∨ 8 ≤ w.toNat / 2 ^ 20 % 16 ∨ 8 ≤ w.toNat / 2 ^ 16 % 16 := by
  rw [← BitVec.toNat_inj, toNat_wordRS, Machine.numRS, toNat_qBits, toNat_qBits, val_qdField, val_qaField,
    toNat_n8Field]
  omega

theorem nopWord_ne_iff (hop : w.toNat / 2 ^ 24 = 0) : ¬ 0#32 = w ↔ ¬ w.toNat % 2 ^ 24 = 0 := by
  rw [← BitVec.toNat_inj, show (0#32).toNat = 0 from rfl]
  omega

/-- The one illegal count (spec/30_encoding.md R77), in numbers. -/
theorem countIllegal_iff : countIllegal w = true ↔ w.toNat / 2 ^ 24 = 0x34 ∧ 128 < w.toNat % 2 ^ 8 := by
  rw [countIllegal, toNat_n8Field, ← toNat_opField]
  simp [← BitVec.toNat_inj]

/-- R77 for the words of a row's opcode: the illegal ones are those that are not the word of the command the row builds
from their fields, and QSETSIG's with an illegal count. -/
theorem illegalFields_iff : ∀ r ∈ opRows, w.toNat / 2 ^ 24 = (opField r.pattern).toNat →
    (Machine.IllegalFields w.toNat ↔ ¬ encode (r.build w) = w ∨ countIllegal w = true) := by
  simp only [opRows, rowsLogic, rowsMulShift, rowsQuadArith, rowsQuadRound, List.forall_mem_append,
    List.forall_mem_cons, List.not_mem_nil, IsEmpty.forall_iff, implies_true, and_true]
  and_intros
  all_goals
    intro hop
    simp only [opField, BitVec.reduceExtractLsb', BitVec.toNat_ofNat, Nat.reducePow, Nat.reduceMod] at hop
    simp [hop, countIllegal_iff, encode, Machine.IllegalFields, nopWord_ne_iff, wordR3_xFields_ne_iff,
      wordR2_xFields_ne_iff, wordRI_xFields_ne_iff, wordRS_xFields_ne_iff, wordRS_one_xFields_ne_iff,
      wordR3_qFields_ne_iff, wordR2_qFields_ne_iff, wordR2_qxFields_ne_iff, wordRS_qFields_ne_iff, or_assoc]

end

end Sys2Proof
end

section
/-! PROOF. The encoding is a bijection between the legal commands and the legal words, and a word that is not legal
raises ILLEGAL_CMD (spec/30_encoding.md R70 to R79). -/

namespace Sys2Proof.Machine

/-- Settles O1. -/
theorem encodeThenDecodeGivesTheCommand : Obligations.EncodeThenDecodeGivesTheCommand :=
  fun _ h => decode_encode h

/-- Settles O2: the word matches the row that builds its command. -/
theorem decodedWordIsItsCommandsEncoding : Obligations.DecodedWordIsItsCommandsEncoding := by
  intro w i h
  refine ⟨?_, wellFormed_of_decode h⟩
  obtain ⟨r, hr, hmatch, -, rfl⟩ := decode_eq_ok_iff.mp h
  exact (matches_iff_encode_build hr).mp hmatch

/-- Settles O5. -/
theorem specWordsDecodeAsTheSpecSays : Obligations.SpecWordsDecodeAsTheSpecSays := by
  unfold Obligations.SpecWordsDecodeAsTheSpecSays
  decide

/-! ## Opcodes -/

/-- The opcode map's opcodes are those of its rows (spec/30_encoding.md R75). -/
theorem definedOpcodes_eq : definedOpcodes = opRows.map fun r => (opField r.pattern).toNat := by decide

/-- A word of a defined opcode is a word of some row's opcode. -/
theorem mem_definedOpcodes_iff {w : CmdWord} :
    w.toNat / 2 ^ 24 ∈ definedOpcodes ↔ ∃ r ∈ opRows, opField r.pattern = opField w := by
  simp only [definedOpcodes_eq, ← toNat_opField, List.mem_map, BitVec.toNat_inj]

/-- R76's list is the complement of the opcode map. -/
theorem reservedOpcode_iff {op : Nat} (hop : op < 2 ^ 8) : ReservedOpcode op ↔ op ∉ definedOpcodes := by
  simp only [ReservedOpcode, definedOpcodes, List.mem_cons, List.not_mem_nil, or_false]
  omega

theorem decode_of_not_mem_definedOpcodes {w : CmdWord} (h : w.toNat / 2 ^ 24 ∉ definedOpcodes) :
    decode w = .error .reservedOpcode := by
  have hrow : findRow w = none :=
    List.find?_eq_none.mpr fun r hr hop => h (mem_definedOpcodes_iff.mpr ⟨r, hr, by simpa using hop⟩)
  simp only [decode, hrow]

/-! ## Words that are no command -/

/-- A word that is no command, written to CMD, raises ILLEGAL_CMD on an unhalted unit (spec/30_encoding.md R76, R77). -/
theorem step_of_decode_error {w : CmdWord} {e : DecodeError} (hdecode : decode w = .error e) {s : State}
    {rest : List HostEvent} (hinbox : s.inbox = hostWrite 0 (w.setWidth 64) :: rest) (hs : s.status.fault = false) :
    step s = .next ((s.delivered rest).faulted .illegalCmd w.toNat) := by
  have hword : BitVec.ofNat 32 (w.setWidth 64).toNat = w := by
    rw [BitVec.toNat_setWidth_of_le (by decide), BitVec.ofNat_toNat, BitVec.setWidth_eq]
  rw [step_of_cmdWrite hinbox, hword, State.deliver_of_decode_error hdecode, if_neg (by simp [hs])]
  rfl

/-- Settles O3: the opcode of a 32-bit word is below 256, where the two lists are each other's complement. -/
theorem reservedOpcodesRaiseIllegalCommand : Obligations.ReservedOpcodesRaiseIllegalCommand := by
  intro w
  have hop : w.toNat / 2 ^ 24 < 2 ^ 8 := by
    rw [← toNat_opField]
    exact (opField w).isLt
  refine ⟨reservedOpcode_iff hop, fun hreserved => ?_⟩
  have hdecode := decode_of_not_mem_definedOpcodes ((reservedOpcode_iff hop).mp hreserved)
  exact ⟨hdecode, fun _ _ hinbox hs => step_of_decode_error hdecode hinbox hs⟩

/-! ## Legal words of a defined opcode -/

theorem exists_error_iff {ε α : Type} (x : Except ε α) : (∃ e, x = .error e) ↔ ¬ ∃ a, x = .ok a := by
  cases x <;> simp

/-- A word of a row's opcode decodes to the row's command or not at all. -/
theorem exists_decode_eq_ok_iff {r : OpRow} (hr : r ∈ opRows) {w : CmdWord} (hop : opField r.pattern = opField w) :
    (∃ i, decode w = .ok i) ↔ encode (r.build w) = w ∧ countIllegal w = false := by
  rw [← matches_iff_encode_build hr]
  constructor
  · rintro ⟨i, h⟩
    obtain ⟨r', hr', hmatch, hcount, -⟩ := decode_eq_ok_iff.mp h
    have hrow : findRow w = some r' := findRow_eq_some_iff.mpr ⟨hr', opField_of_match hr' hmatch⟩
    obtain rfl := Option.some.inj (hrow.symm.trans (findRow_eq_some_iff.mpr ⟨hr, hop⟩))
    exact ⟨hmatch, hcount⟩
  · rintro ⟨hmatch, hcount⟩
    exact ⟨_, decode_eq_ok_iff.mpr ⟨r, hr, hmatch, hcount, rfl⟩⟩

/-- The first clause of R77: a word of a defined opcode is no command exactly when a field is illegal. -/
theorem exists_decode_eq_error_iff {w : CmdWord} (h : w.toNat / 2 ^ 24 ∈ definedOpcodes) :
    (∃ e, decode w = .error e) ↔ IllegalFields w.toNat := by
  obtain ⟨r, hr, hop⟩ := mem_definedOpcodes_iff.mp h
  rw [exists_error_iff, exists_decode_eq_ok_iff hr hop, illegalFields_iff r hr (by rw [hop, toNat_opField]),
    Decidable.not_and_iff_not_or_not, Bool.not_eq_false]

theorem mnemonic_eq_qsetsig_iff : ∀ r ∈ opRows, r.mnemonic = "QSETSIG" ↔ (opField r.pattern).toNat = 0x34 := by
  decide

/-- The second clause of R77: the legal words are those that match a row, QSETSIG's count being at most 128. -/
theorem exists_decode_eq_ok_iff_matches (w : CmdWord) :
    (∃ i, decode w = .ok i) ↔
      ∃ r ∈ opRows, w &&& r.mask = r.pattern ∧ (r.mnemonic = "QSETSIG" → w.toNat % 2 ^ 8 ≤ 128) := by
  have hcount : ∀ r ∈ opRows, w &&& r.mask = r.pattern →
      (countIllegal w = false ↔ (r.mnemonic = "QSETSIG" → w.toNat % 2 ^ 8 ≤ 128)) := fun r hr hmatch => by
    rw [mnemonic_eq_qsetsig_iff r hr, opField_of_match hr hmatch, toNat_opField, ← Bool.not_eq_true, countIllegal_iff,
      not_and, not_lt]
  constructor
  · rintro ⟨i, h⟩
    obtain ⟨r, hr, hmatch, hlegal, -⟩ := decode_eq_ok_iff.mp h
    exact ⟨r, hr, hmatch, (hcount r hr hmatch).mp hlegal⟩
  · rintro ⟨r, hr, hmatch, hlegal⟩
    exact ⟨_, decode_eq_ok_iff.mpr ⟨r, hr, hmatch, (hcount r hr hmatch).mpr hlegal, rfl⟩⟩

/-- Settles O4: an illegal word is one that is not the word of its own fields. -/
theorem illegalFieldsRaiseIllegalCommand : Obligations.IllegalFieldsRaiseIllegalCommand := by
  intro w h
  refine ⟨exists_decode_eq_error_iff h, exists_decode_eq_ok_iff_matches w, fun hillegal s rest hinbox hs => ?_⟩
  obtain ⟨e, hdecode⟩ := (exists_decode_eq_error_iff h).mpr hillegal
  exact step_of_decode_error hdecode hinbox hs

end Sys2Proof.Machine
end

section
/-! PROOF. The effects of the pseudo-instructions' expansions (spec/30_encoding.md R81). -/

namespace Sys2Proof.Machine

/-! ## Running commands -/

/-- A command that completes on an unhalted unit hands its effect to the commands after it. -/
theorem runCommands_cons {s u : State} (hs : s.status.fault = false) {i : Instr} (h : exec i s = s.command i (.ok u))
    (is : List Instr) : runCommands (i :: is) s = runCommands is (u.complete i) := by
  simp only [runCommands, h, State.command_ok hs]

section
variable {s : State} (hs : s.status.fault = false) (is : List Instr)
include hs

theorem runCommands_ldi (d : XReg) (imm : BitVec 16) :
    runCommands (.ldi d imm :: is) s = runCommands is ((s.writeX d (immediate imm)).complete (.ldi d imm)) :=
  runCommands_cons hs rfl is

theorem runCommands_shl (d a : XReg) (n : BitVec 8) :
    runCommands (.shl d a n :: is) s =
      runCommands is ((s.writeX d (shiftLeft (s.readX a) (shiftCount n))).complete (.shl d a n)) :=
  runCommands_cons hs rfl is

theorem runCommands_or (d a b : XReg) :
    runCommands (.or d a b :: is) s = runCommands is ((s.writeX d (s.readX a ||| s.readX b)).complete (.or d a b)) :=
  runCommands_cons hs rfl is

theorem runCommands_qfromu (d : QReg) (a : XReg) :
    runCommands (.qfromu d a :: is) s =
      runCommands is ((s.writeQResult d (.plain (fromUnsigned s.params (s.readX a)))).complete (.qfromu d a)) :=
  runCommands_cons hs rfl is

end

/-! ## CLR and QCLR -/

theorem runCommands_clr {s : State} (hs : s.status.fault = false) (d : XReg) :
    ∃ t, runCommands (expand (.clr d)) s = .next t ∧ t.readX d = 0#128 :=
  ⟨_, runCommands_ldi hs [] d 0, State.readX_writeX_same s d _⟩

theorem runCommands_qclr {s : State} (hs : s.status.fault = false) (d : QReg) {z : XReg} (hz : s.readX z = 0) :
    ∃ t, runCommands (expand (.qclr d z)) s = .next t ∧ t.readQ d = theZero s.params 128#8 := by
  have hzero : fromUnsigned s.params (s.readX z) = theZero s.params 128#8 := if_pos hz
  refine ⟨_, runCommands_qfromu hs [] d z, ?_⟩
  rw [← hzero]
  exact State.readQ_writeQ_same s d _

/-! ## LDI32 -/

theorem toNat_immediate (imm : BitVec 16) : (immediate imm).toNat = imm.toNat :=
  BitVec.toNat_setWidth_of_le (by decide)

theorem toNat_lower16 (v : BitVec 32) : (lower16 v).toNat = v.toNat % 2 ^ 16 := by
  rw [lower16, BitVec.extractLsb'_toNat, Nat.shiftRight_zero]

/-- The upper half of an LDI32 value, shifted into place, and the lower half make the value. -/
theorem toNat_shiftLeft_upper16_or_lower16 (v : BitVec 32) :
    (shiftLeft (immediate (upper16 v)) (shiftCount 16) ||| immediate (lower16 v)).toNat = v.toNat := by
  have hv := v.isLt
  have hupper : (upper16 v).toNat = v.toNat / 2 ^ 16 := by
    rw [upper16, BitVec.extractLsb'_toNat, Nat.shiftRight_eq_div_pow]
    omega
  have hshift : (shiftLeft (immediate (upper16 v)) (shiftCount 16)).toNat = (v.toNat / 2 ^ 16) <<< 16 := by
    rw [shiftLeft_toNat, toNat_immediate, hupper, show shiftCount 16 = 16 from rfl, Nat.shiftLeft_eq]
    omega
  rw [BitVec.toNat_or, hshift, toNat_immediate, toNat_lower16,
    ← Nat.shiftLeft_add_eq_or_of_lt (Nat.mod_lt _ (by decide)), Nat.shiftLeft_eq]
  omega

/-- LDI32 leaves its value in X[d], with the low 16 bits in x15, and keeps the other registers. -/
theorem runCommands_ldi32 {s : State} (hs : s.status.fault = false) {d : XReg} (hd : d ≠ 15) (v : BitVec 32) :
    ∃ t, runCommands (expand (.ldi32 d v)) s = .next t ∧
      t.readX d = shiftLeft (immediate (upper16 v)) (shiftCount 16) ||| immediate (lower16 v) ∧
      t.readX 15 = immediate (lower16 v) ∧ ∀ k : XReg, k ≠ d → k ≠ 15 → t.readX k = s.readX k := by
  rw [expand, runCommands_ldi hs, runCommands_shl (by exact hs), runCommands_ldi (by exact hs),
    runCommands_or (by exact hs)]
  refine ⟨_, rfl, ?_, ?_, fun k hkd hk => ?_⟩
  · simp [State.readX_writeX_ne, hd]
  · simp [State.readX_writeX_ne, hd.symm]
  · simp [State.readX_writeX_ne, hkd, hk]

/-- Settles O57: the registers after each expansion, as numbers. -/
theorem pseudoInstructionsHaveTheirEffects : Obligations.PseudoInstructionsHaveTheirEffects := by
  intro s hs
  refine ⟨runCommands_clr hs, fun d v hd => ?_, fun d z hz => runCommands_qclr hs d (BitVec.eq_of_toNat_eq hz)⟩
  obtain ⟨t, hrun, hvalue, hlow, hrest⟩ := runCommands_ldi32 hs hd v
  refine ⟨t, hrun, ?_, ?_, hrest⟩
  · exact (congrArg BitVec.toNat hvalue).trans (toNat_shiftLeft_upper16_or_lower16 v)
  · exact (congrArg BitVec.toNat hlow).trans ((toNat_immediate _).trans (toNat_lower16 v))

end Sys2Proof.Machine
end

section
/-! PROOF. Reading back the assembly text of a command (spec/30_encoding.md R80): numbers, tokens, and lines. -/

namespace Sys2Proof.Machine

/-! ## Numbers -/

theorem digitValue_of_isDigit {c : Char} (h : c.isDigit = true) :
    digitValue c = some (c.toNat - 48) ∧ c.toNat - 48 < 10 := by
  have hc : 48 ≤ c.toNat ∧ c.toNat ≤ 57 := Char.isDigit_iff_toNat.mp h
  exact ⟨if_pos hc, by omega⟩

/-- Reading decimal digits goes on from the number read so far. -/
theorem foldl_addDigit {t : List Char} (h : ∀ c ∈ t, c.isDigit = true) (n : Nat) :
    t.foldl (addDigit 10) (some n) = some (Nat.ofDigitChars 10 t n) := by
  induction t generalizing n with
  | nil => simp
  | cons c t ih =>
    obtain ⟨hvalue, hlt⟩ := digitValue_of_isDigit (h c (by simp))
    have hc : addDigit 10 (some n) c = some (10 * n + (c.toNat - 48)) := by
      simp only [addDigit, hvalue, if_pos hlt, Nat.mul_comm]
    rw [List.foldl_cons, hc, ih fun c' hc' => h c' (List.mem_cons_of_mem _ hc'), Nat.ofDigitChars_cons]
    rfl

theorem isDigit_of_mem_decimal {n : Nat} {c : Char} (h : c ∈ decimal n) : c.isDigit = true :=
  Nat.isDigit_of_mem_toDigits (by decide) (by decide) h

theorem readDigits_decimal (n : Nat) : readDigits 10 (decimal n) = some n := by
  have h := foldl_addDigit (fun _ => isDigit_of_mem_decimal) (t := decimal n) 0
  rw [decimal, Nat.ofDigitChars_ten_toDigits] at h
  unfold readDigits
  split
  · next hnil => exact absurd hnil Nat.toDigits_ne_nil
  · exact h

/-- A decimal number has no `x`, so it does not begin with `0x`. -/
theorem readNumber_decimal (n : Nat) : readNumber (decimal n) = some n := by
  unfold readNumber
  split
  · next t ht =>
    have hx : 'x' ∈ decimal n := by simp [ht]
    exact absurd (isDigit_of_mem_decimal hx) (by decide)
  · exact readDigits_decimal n

theorem readBelow_decimal {n bound : Nat} (h : n < bound) : readBelow bound (decimal n) = some n := by
  simp [readBelow, readNumber_decimal, h]

/-! ## Register names -/

@[simp] theorem readXName_xName : ∀ r : XReg, readXName (xName r) = some r := by decide

@[simp] theorem readQName_qName : ∀ r : QReg, readQName (qName r) = some r := by decide

/-! ## Tokens -/

/-- An operand token: not empty, and without blanks and commas. -/
def IsToken (t : List Char) : Prop := t ≠ [] ∧ ∀ c ∈ t, isBlank c = false ∧ c ≠ ','

theorem isToken_decimal (n : Nat) : IsToken (decimal n) := by
  refine ⟨Nat.toDigits_ne_nil, fun c hc => ⟨?_, ?_⟩⟩
  · have hdigit := isDigit_of_mem_decimal hc
    have hspace : c ≠ ' ' := fun h => absurd (h ▸ hdigit) (by decide)
    have htab : c ≠ '\t' := fun h => absurd (h ▸ hdigit) (by decide)
    simp [isBlank, hspace, htab]
  · rintro rfl
    exact absurd (isDigit_of_mem_decimal hc) (by decide)

/-- A letter before a number: the names of registers. -/
theorem isToken_cons {c : Char} (hc : isBlank c = false ∧ c ≠ ',') {t : List Char} (h : IsToken t) : IsToken (c :: t) :=
  ⟨List.cons_ne_nil c t, List.forall_mem_cons.mpr ⟨hc, h.2⟩⟩

theorem isToken_xName (r : XReg) : IsToken (xName r) := isToken_cons (by decide) (isToken_decimal r.val)

theorem isToken_qName (r : QReg) : IsToken (qName r) := isToken_cons (by decide) (isToken_decimal r.val)

/-! ## Blanks -/

theorem dropWhile_isBlank_eq_self {t : List Char} (h : ∀ c ∈ t.head?, isBlank c = false) : t.dropWhile isBlank = t := by
  cases t with
  | nil => rfl
  | cons c t => exact List.dropWhile_cons_of_neg (by simp [h c rfl])

/-- A text that begins and ends with a character that is no blank. -/
structure NoBlankEnds (t : List Char) : Prop where
  ne_nil : t ≠ []
  head : ∀ c ∈ t.head?, isBlank c = false
  last : ∀ c ∈ t.getLast?, isBlank c = false

theorem noBlankEnds_of_no_blank {t : List Char} (hne : t ≠ []) (h : ∀ c ∈ t, isBlank c = false) : NoBlankEnds t :=
  ⟨hne, fun c hc => h c (List.mem_of_mem_head? hc), fun c hc => h c (List.mem_of_getLast? hc)⟩

theorem IsToken.noBlankEnds {t : List Char} (h : IsToken t) : NoBlankEnds t :=
  noBlankEnds_of_no_blank h.1 fun c hc => (h.2 c hc).1

/-- Whatever stands between two texts, the first one's begin and the second one's end count. -/
theorem NoBlankEnds.append {t u : List Char} (ht : NoBlankEnds t) (hu : NoBlankEnds u) (sep : List Char) :
    NoBlankEnds (t ++ (sep ++ u)) := by
  refine ⟨List.append_ne_nil_of_left_ne_nil ht.ne_nil _, ?_, ?_⟩
  · rw [List.head?_append_of_ne_nil _ ht.ne_nil]
    exact ht.head
  · rw [← List.append_assoc, List.getLast?_append_of_ne_nil _ hu.ne_nil]
    exact hu.last

theorem NoBlankEnds.trimBlanks {t : List Char} (h : NoBlankEnds t) : trimBlanks t = t := by
  rw [Machine.trimBlanks, dropWhile_isBlank_eq_self h.head,
    dropWhile_isBlank_eq_self (by rw [List.head?_reverse]; exact h.last), List.reverse_reverse]

theorem trimBlanks_space_cons (t : List Char) : trimBlanks (' ' :: t) = trimBlanks t := rfl

/-! ## Operands -/

theorem splitCommas_of_no_comma {t : List Char} (h : ∀ c ∈ t, c ≠ ',') : splitCommas t = [t] := by
  induction t with
  | nil => rfl
  | cons c t ih =>
    obtain ⟨hc, ht⟩ := List.forall_mem_cons.mp h
    simp [splitCommas, hc, ih ht]

theorem splitCommas_append_comma {t : List Char} (h : ∀ c ∈ t, c ≠ ',') (rest : List Char) :
    splitCommas (t ++ ',' :: rest) = t :: splitCommas rest := by
  induction t with
  | nil => simp [splitCommas]
  | cons c t ih =>
    obtain ⟨hc, ht⟩ := List.forall_mem_cons.mp h
    simp [splitCommas, hc, ih ht]

theorem noBlankEnds_joinOperands : ∀ {ops : List (List Char)}, ops ≠ [] → (∀ t ∈ ops, IsToken t) →
    NoBlankEnds (joinOperands ops)
  | [], hne, _ => absurd rfl hne
  | [t], _, h => (h t (List.mem_singleton_self t)).noBlankEnds
  | t :: u :: us, _, h =>
    (h t List.mem_cons_self).noBlankEnds.append
      (noBlankEnds_joinOperands (List.cons_ne_nil u us) fun v hv => h v (List.mem_cons_of_mem t hv)) [',', ' ']

theorem IsToken.space_cons_no_comma {t : List Char} (h : IsToken t) : ∀ c ∈ ' ' :: t, c ≠ ',' :=
  List.forall_mem_cons.mpr ⟨by decide, fun c hc => (h.2 c hc).2⟩

/-- Splitting the text of operands at the commas gives the operands back, blanks trimmed. -/
theorem map_trimBlanks_splitCommas : ∀ {ops : List (List Char)}, ops ≠ [] → (∀ t ∈ ops, IsToken t) →
    (splitCommas (' ' :: joinOperands ops)).map trimBlanks = ops
  | [], hne, _ => absurd rfl hne
  | [t], _, h => by
    have ht := h t (List.mem_singleton_self t)
    rw [joinOperands, splitCommas_of_no_comma ht.space_cons_no_comma, List.map_singleton, trimBlanks_space_cons,
      ht.noBlankEnds.trimBlanks]
  | t :: u :: us, _, h => by
    have ht := h t List.mem_cons_self
    have hrest := map_trimBlanks_splitCommas (List.cons_ne_nil u us) fun v hv => h v (List.mem_cons_of_mem t hv)
    rw [joinOperands, ← List.cons_append, splitCommas_append_comma ht.space_cons_no_comma, List.map_cons, hrest,
      trimBlanks_space_cons, ht.noBlankEnds.trimBlanks]
    exact List.cons_ne_nil u us

theorem operandTokens_joinOperands {ops : List (List Char)} (hne : ops ≠ []) (h : ∀ t ∈ ops, IsToken t) :
    operandTokens (' ' :: joinOperands ops) = ops := by
  have hends := noBlankEnds_joinOperands hne h
  rw [operandTokens, trimBlanks_space_cons, hends.trimBlanks, if_neg (by simpa using hends.ne_nil),
    map_trimBlanks_splitCommas hne h]

/-! ## Lines -/

/-- The table gives the mnemonic the form of operands (spec/30_encoding.md R80). -/
abbrev HasForm (m : String) (f : AsmForm) : Prop := asmTable.find? (fun row => row.1.toList == m.toList) = some (m, f)

/-- A mnemonic of the table has no blank and no lower-case letter. -/
theorem mnemonic_of_mem_asmTable : ∀ row ∈ asmTable, row.1.toList ≠ [] ∧
    (row.1.toList.all fun c => !isBlank c) = true ∧ row.1.toList.map upperChar = row.1.toList := by decide

/-- A line of a mnemonic and operands is read as the mnemonic's form says. -/
theorem readLine_asmLine {m : String} {f : AsmForm} (hform : HasForm m f) {ops : List (List Char)} (hne : ops ≠ [])
    (h : ∀ t ∈ ops, IsToken t) (z : XReg) :
    readLine z (asmLine m ops) = (readOperands f ops).map fun i => [i] := by
  obtain ⟨hm, hall, hupper⟩ := mnemonic_of_mem_asmTable _ (List.mem_of_find?_eq_some hform)
  have hnot : ∀ c ∈ m.toList, (!isBlank c) = true := List.all_eq_true.mp hall
  have hblank : ∀ c ∈ m.toList, isBlank c = false := by simpa using hall
  have hbody : trimBlanks (asmLine m ops) = asmLine m ops :=
    ((noBlankEnds_of_no_blank hm hblank).append (noBlankEnds_joinOperands hne h) [' ']).trimBlanks
  have htake : (asmLine m ops).takeWhile (fun c => !isBlank c) = m.toList := by
    rw [asmLine, List.takeWhile_append_of_pos hnot]
    exact List.append_nil _
  have hdrop : (asmLine m ops).dropWhile (fun c => !isBlank c) = ' ' :: joinOperands ops :=
    List.dropWhile_append_of_pos hnot
  have hfind : asmTable.find? (fun row => row.1.toList == m.toList) = some (m, f) := hform
  simp only [readLine, hbody, htake, hdrop, hupper, operandTokens_joinOperands hne h, hfind]

/-! ## The operand forms -/

section
variable {m : String} (z : XReg)

theorem readLine_xxx {mk : XReg → XReg → XReg → Instr} (hform : HasForm m (.xxx mk)) (d a b : XReg) :
    readLine z (asmLine m [xName d, xName a, xName b]) = some [mk d a b] := by
  rw [readLine_asmLine hform (by simp) (by simp [isToken_xName])]
  simp [readOperands]

theorem readLine_xx {mk : XReg → XReg → Instr} (hform : HasForm m (.xx mk)) (d a : XReg) :
    readLine z (asmLine m [xName d, xName a]) = some [mk d a] := by
  rw [readLine_asmLine hform (by simp) (by simp [isToken_xName])]
  simp [readOperands]

theorem readLine_ximm {mk : XReg → BitVec 16 → Instr} (hform : HasForm m (.ximm mk)) (d : XReg) (imm : BitVec 16) :
    readLine z (asmLine m [xName d, decimal imm.toNat]) = some [mk d imm] := by
  rw [readLine_asmLine hform (by simp) (by simp [isToken_xName, isToken_decimal])]
  simp [readOperands, readBelow_decimal imm.isLt]

theorem readLine_xxn {mk : XReg → XReg → BitVec 8 → Instr} (hform : HasForm m (.xxn mk)) (d a : XReg) (n : BitVec 8) :
    readLine z (asmLine m [xName d, xName a, decimal n.toNat]) = some [mk d a n] := by
  rw [readLine_asmLine hform (by simp) (by simp [isToken_xName, isToken_decimal])]
  simp [readOperands, readBelow_decimal n.isLt]

theorem readLine_qqq {mk : QReg → QReg → QReg → Instr} (hform : HasForm m (.qqq mk)) (d a b : QReg) :
    readLine z (asmLine m [qName d, qName a, qName b]) = some [mk d a b] := by
  rw [readLine_asmLine hform (by simp) (by simp [isToken_qName])]
  simp [readOperands]

theorem readLine_qq {mk : QReg → QReg → Instr} (hform : HasForm m (.qq mk)) (d a : QReg) :
    readLine z (asmLine m [qName d, qName a]) = some [mk d a] := by
  rw [readLine_asmLine hform (by simp) (by simp [isToken_qName])]
  simp [readOperands]

theorem readLine_qx {mk : QReg → XReg → Instr} (hform : HasForm m (.qx mk)) (d : QReg) (a : XReg) :
    readLine z (asmLine m [qName d, xName a]) = some [mk d a] := by
  rw [readLine_asmLine hform (by simp) (by simp [isToken_qName, isToken_xName])]
  simp [readOperands]

theorem readLine_qqn {mk : QReg → QReg → BitVec 8 → Instr} (hform : HasForm m (.qqn mk)) (d a : QReg) {n : BitVec 8}
    (hn : n.toNat ≤ 128) : readLine z (asmLine m [qName d, qName a, decimal n.toNat]) = some [mk d a n] := by
  rw [readLine_asmLine hform (by simp) (by simp [isToken_qName, isToken_decimal])]
  simp [readOperands, readBelow_decimal (Nat.lt_succ_of_le hn)]

end

/-- Settles O56: the command's form of operands, read back by its own rule. -/
theorem assemblyTextReadsBackAsItsCommand : Obligations.AssemblyTextReadsBackAsItsCommand := by
  intro i z h
  cases i with
  | nop => rfl
  | add | sub | and | or | xor | mul64 | mulw | mul128 | mulhi => exact readLine_xxx z rfl _ _ _
  | not | mov | zext64 | shrmsb | norm => exact readLine_xx z rfl _ _
  | ldi => exact readLine_ximm z rfl _ _
  | shl | shr => exact readLine_xxn z rfl _ _ _
  | qadd | qsub | qmul => exact readLine_qqq z rfl _ _ _
  | qneg | qabs | qtrunc | qfloor | qceil | qround => exact readLine_qq z rfl _ _
  | qfromu | qfroms => exact readLine_qx z rfl _ _
  | qsetsig => exact readLine_qqn z rfl _ _ (of_decide_eq_true h)

end Sys2Proof.Machine
end

section
/-! PROOF. The U128 add, subtract, logic and move commands (spec/40_u128_addsub_logic.md R100 to R111): a command's word
as a number, the state it leaves, and then each command's value. -/

namespace Sys2Proof.Machine

/-! ## A command, given the number of its word -/

theorem decodes_of_toNat_encode {i : Instr} {w : Nat} (hw : (encode i).toNat = w) (hi : i.wellFormed = true) :
    Decodes w i := by
  rw [Decodes, ← hw, BitVec.ofNat_toNat, BitVec.setWidth_eq]
  exact decode_encode hi

/-- LASTCMD takes the number of the word (spec/10_state.md R29). -/
theorem State.complete_of_toNat_encode (s : State) {i : Instr} {w : Nat} (hw : (encode i).toNat = w) :
    s.complete i = { s with lastcmd := BitVec.ofNat 64 w } := by
  rw [State.complete, setWidth_cmdWord_eq_ofNat, hw]

section
variable {i : Instr} {w : Nat} {d : XReg} {s : State} (hs : s.status.fault = false) (hw : (encode i).toNat = w)
include hs hw

/-- A command whose effect is a write to X[d] leaves what `doneX` says. -/
theorem exec_eq_doneX {v : U128} (h : exec i s = s.command i (.ok (s.writeX d v))) :
    exec i s = .next (s.doneX d v w) := by
  rw [h, State.command_ok hs, State.complete_of_toNat_encode _ hw]
  rfl

/-- A command whose effect is a write to X[d] and OVF leaves what `doneXOvf` says. -/
theorem exec_eq_doneXOvf {v : U128} {c : Bool} (h : exec i s = s.command i (.ok (s.writeXOvf d (v, c)))) :
    exec i s = .next (s.doneXOvf d v c w) := by
  rw [h, State.command_ok hs, State.complete_of_toNat_encode _ hw]
  rfl

end

/-! ## The values written -/

theorem sub_eq_ofInt (a b : U128) : a - b = BitVec.ofInt 128 ((a.toNat : Int) - b.toNat) := by
  simp only [Int.sub_eq_add_neg, BitVec.ofInt_add, BitVec.ofInt_neg, BitVec.ofInt_natCast, BitVec.ofNat_toNat,
    BitVec.setWidth_eq, BitVec.sub_eq_add_neg]

theorem not_eq_ofNat (v : U128) : ~~~v = BitVec.ofNat 128 (2 ^ 128 - 1 - v.toNat) := by
  rw [← BitVec.toNat_not, BitVec.ofNat_toNat, BitVec.setWidth_eq]

theorem immediate_eq_ofNat (imm : BitVec 16) : immediate imm = BitVec.ofNat 128 imm.toNat :=
  (BitVec.ofNat_toNat 128 imm).symm

theorem zextLow_eq_ofNat (v : U128) : zextLow v = BitVec.ofNat 128 (v.toNat % 2 ^ 64) := by
  rw [← lowHalf_toNat, BitVec.ofNat_toNat, zextLow]

/-! ## The obligations -/

/-- Settles O25: NOP's effect is the state as it stands, so only its completion writes. -/
theorem nopWritesOnlyLastcmd : Obligations.NopWritesOnlyLastcmd := by
  have hword : (encode .nop).toNat = 0 := rfl
  refine ⟨decodes_of_toNat_encode hword rfl, fun s hs => ?_⟩
  have hexec : exec .nop s = s.command .nop (.ok s) := rfl
  rw [hexec, State.command_ok hs, State.complete_of_toNat_encode s hword]

/-- Settles O26: the half-word sum is the sum modulo 2^128, its flag the carry out. -/
theorem addGivesTheSumAndTheCarry : Obligations.AddGivesTheSumAndTheCarry := by
  intro d a b s
  have hword : (encode (.add d a b)).toNat = numR3 0x01 d a b := toNat_wordR3 ..
  refine ⟨decodes_of_toNat_encode hword rfl, fun hs => exec_eq_doneXOvf hs hword ?_⟩
  rw [← addHalves_eq]
  rfl

/-- Settles O27: the half-word difference is the difference modulo 2^128, its flag the borrow out. -/
theorem subGivesTheDifferenceAndTheBorrow : Obligations.SubGivesTheDifferenceAndTheBorrow := by
  intro d a b s
  have hword : (encode (.sub d a b)).toNat = numR3 0x02 d a b := toNat_wordR3 ..
  refine ⟨decodes_of_toNat_encode hword rfl, fun hs => exec_eq_doneXOvf hs hword ?_⟩
  rw [← sub_eq_ofInt, ← subHalves_eq]
  rfl

/-- Settles O28: OVF of the state that SUB leaves. -/
theorem subOverflowIsTheUnsignedOrder : Obligations.SubOverflowIsTheUnsignedOrder := by
  intro d a b s hs
  obtain ⟨-, hexec⟩ := subGivesTheDifferenceAndTheBorrow d a b s
  exact ⟨_, hexec hs, decide_eq_true_iff⟩

/-- Settles O29: each result bit is the library's fact about the command's operation on words. -/
theorem logicCommandsWorkBitByBit : Obligations.LogicCommandsWorkBitByBit := by
  intro d a b s
  have hand : (encode (.and d a b)).toNat = numR3 0x03 d a b := toNat_wordR3 ..
  have hor : (encode (.or d a b)).toNat = numR3 0x04 d a b := toNat_wordR3 ..
  have hxor : (encode (.xor d a b)).toNat = numR3 0x05 d a b := toNat_wordR3 ..
  have hnot : (encode (.not d a)).toNat = numR2 0x06 d a := toNat_wordR2 ..
  refine ⟨decodes_of_toNat_encode hand rfl, decodes_of_toNat_encode hor rfl, decodes_of_toNat_encode hxor rfl,
    decodes_of_toNat_encode hnot rfl, fun hs => ⟨?_, ?_, ?_, ?_⟩⟩
  · exact ⟨_, exec_eq_doneX hs hand rfl, fun _ _ => BitVec.getLsbD_and⟩
  · exact ⟨_, exec_eq_doneX hs hor rfl, fun _ _ => BitVec.getLsbD_or⟩
  · exact ⟨_, exec_eq_doneX hs hxor rfl, fun _ _ => BitVec.getLsbD_xor⟩
  · rw [← not_eq_ofNat]
    exact exec_eq_doneX hs hnot rfl

/-- Settles O30: the immediate and the low half, zero-extended, are the values the statement names as numbers. -/
theorem movesCopyAndZeroExtend : Obligations.MovesCopyAndZeroExtend := by
  intro d a imm s
  have hmov : (encode (.mov d a)).toNat = numR2 0x07 d a := toNat_wordR2 ..
  have hldi : (encode (.ldi d imm)).toNat = numRI 0x08 d imm.toNat := toNat_wordRI ..
  have hzext : (encode (.zext64 d a)).toNat = numR2 0x09 d a := toNat_wordR2 ..
  refine ⟨decodes_of_toNat_encode hmov rfl, decodes_of_toNat_encode hldi rfl, decodes_of_toNat_encode hzext rfl,
    fun hs => ⟨exec_eq_doneX hs hmov rfl, ?_, ?_⟩⟩
  · rw [← immediate_eq_ofNat]
    exact exec_eq_doneX hs hldi rfl
  · rw [← zextLow_eq_ofNat]
    exact exec_eq_doneX hs hzext rfl

end Sys2Proof.Machine
end

section
/-! PROOF. The U128 multiply commands (spec/41_u128_multiply.md R120 to R123): each command's product in plain numbers,
then the state it leaves. -/

namespace Sys2Proof.Machine

/-! ## The products -/

/-- The product of two low halves fits 128 bits (spec/41_u128_multiply.md R120). -/
theorem toNat_ofNat_mul64Exact (u v : Word64) : (BitVec.ofNat 128 (mul64Exact u v)).toNat = u.toNat * v.toNat := by
  have hfits : u.toNat * v.toNat < 2 ^ 64 * 2 ^ 64 := Nat.mul_lt_mul'' u.isLt v.isLt
  rw [mul64Exact_eq, BitVec.toNat_ofNat]
  exact Nat.mod_eq_of_lt hfits

theorem mulWide_eq (a b : U128) :
    mulWide a b = (BitVec.ofNat 128 (a.toNat * (b.toNat % 2 ^ 64)),
      decide (2 ^ 128 ≤ a.toNat * (b.toNat % 2 ^ 64))) := by
  rw [mulWide, lowHalf_toNat, truncProduct]

/-- MULHI's two outputs: the accumulation, and no carry out (spec/41_u128_multiply.md R123, property 1). -/
theorem mulHi_eq (c : Bool) (a b : U128) : mulHi c a b = ((mulHi c a b).1, false) :=
  Prod.ext rfl (mulHi_carry c a b)

theorem mulHi_toNat_eq_highProduct (c : Bool) (a b : U128) :
    (mulHi c a b).1.toNat = highProduct c a.toNat b.toNat := by
  rw [mulHi_toNat, mulHiAcc_eq_highProduct]

/-- R123's property 2 in plain numbers. -/
theorem highProduct_bounds (c : Bool) (a b : U128) :
    highProduct c a.toNat b.toNat ≤ a.toNat * b.toNat / 2 ^ 128 ∧
      a.toNat * b.toNat / 2 ^ 128 ≤ highProduct c a.toNat b.toNat + (if c then 1 else 2) := by
  rw [← mulHiAcc_eq_highProduct]
  exact mulHiAcc_bounds c a b

/-! ## The obligations -/

/-- Settles O33: MULHI's first output is the accumulation, which is within R123's bounds; its second is always 0. -/
theorem mulhiIsTheHighHalfOrSlightlyLess : Obligations.MulhiIsTheHighHalfOrSlightlyLess := by
  intro d a b s
  have hword : (encode (.mulhi d a b)).toNat = numR3 0x13 d a b := toNat_wordR3 ..
  have hacc := mulHi_toNat_eq_highProduct s.params.crossCarry (s.readX a) (s.readX b)
  refine ⟨decodes_of_toNat_encode hword rfl, fun hs => ⟨_, exec_eq_doneXOvf hs hword ?_, hacc, ?_⟩⟩
  · rw [← mulHi_eq]
    rfl
  · rw [hacc]
    exact highProduct_bounds s.params.crossCarry (s.readX a) (s.readX b)

/-- Settles O31: the four partial products make the product of the low halves, which fits. -/
theorem mul64GivesTheExactProduct : Obligations.Mul64GivesTheExactProduct := by
  intro d a b s
  have hword : (encode (.mul64 d a b)).toNat = numR3 0x10 d a b := toNat_wordR3 ..
  refine ⟨decodes_of_toNat_encode hword rfl, fun hs => ⟨_, exec_eq_doneXOvf hs hword rfl, ?_⟩⟩
  rw [toNat_ofNat_mul64Exact, lowHalf_toNat, lowHalf_toNat]
  rfl

/-- Settles O32: both commands truncate their exact product; MULW's second factor is the low half as a number. -/
theorem wideMultipliesKeepTheLowBits : Obligations.WideMultipliesKeepTheLowBits := by
  intro d a b s
  have hmulw : (encode (.mulw d a b)).toNat = numR3 0x11 d a b := toNat_wordR3 ..
  have hmul128 : (encode (.mul128 d a b)).toNat = numR3 0x12 d a b := toNat_wordR3 ..
  refine ⟨decodes_of_toNat_encode hmulw rfl, decodes_of_toNat_encode hmul128 rfl, fun hs =>
    ⟨exec_eq_doneXOvf hs hmulw ?_, exec_eq_doneXOvf hs hmul128 rfl⟩⟩
  rw [← mulWide_eq]
  rfl

end Sys2Proof.Machine
end

section
/-! PROOF. QMUL (spec/43_quad_arith.md R171): what a Q command leaves, the results of the Quad datapath in the claims'
terms, and the product class by class. -/

namespace Sys2Proof.Machine

/-! ## A Q command, given the number of its word -/

theorem toNat_wordR3_qBits (op : BitVec 8) (d a b : QReg) :
    (wordR3 op (qBits d) (qBits a) (qBits b)).toNat = numR3 op.toNat d a b := by
  rw [toNat_wordR3, toNat_qBits, toNat_qBits, toNat_qBits]

section
variable {i : Instr} {w : Nat} {s : State} (hs : s.status.fault = false) (hw : (encode i).toNat = w)
include hs hw

/-- A command whose effect is a fault leaves what `faulted` says. -/
theorem exec_eq_faulted {c : Cause} (h : exec i s = s.command i (.error c)) : exec i s = .next (s.faulted c w) := by
  rw [h, State.command_error hs, raiseFault_eq_faulted, hw]

/-- A command whose effect is a write to Q[d] and the four Q status bits leaves what `doneQ` says. -/
theorem exec_eq_doneQ {d : QReg} {r : QResult} (h : exec i s = s.command i (.ok (s.writeQResult d r))) :
    exec i s = .next (s.doneQ d r w) := by
  rw [h, State.command_ok hs, State.complete_of_toNat_encode _ hw]
  rfl

variable {d a b : QReg} {f : Quad → Quad → QResult} (h : exec i s = s.command i (s.binaryQ d a b f))
include h

theorem exec_binaryQ_of_invalid
    (hinvalid : (s.readQ a).valid s.params = false ∨ (s.readQ b).valid s.params = false) :
    exec i s = .next (s.faulted .badQuadOperand w) := by
  rcases s.binaryQ_cases d a b f with ⟨ha, hb, -⟩ | ⟨-, heffect⟩
  · simp [ha, hb] at hinvalid
  · exact exec_eq_faulted hs hw (h.trans (by rw [heffect]))

theorem exec_binaryQ_of_valid (ha : (s.readQ a).valid s.params = true) (hb : (s.readQ b).valid s.params = true) :
    exec i s = .next (s.doneQ d (f (s.readQ a) (s.readQ b)) w) := by
  rcases s.binaryQ_cases d a b f with ⟨-, -, heffect⟩ | ⟨hinvalid, -⟩
  · exact exec_eq_doneQ hs hw (h.trans (by rw [heffect]))
  · simp [ha, hb] at hinvalid

end

/-! ## The datapath's results, in the claims' terms -/

theorem minSig_eq_leastSig (a b : Quad) : minSig a b = leastSig a b := by
  rw [minSig, leastSig, Nat.min_def]
  split_ifs
  · exact (BitVec.ofNat_toNat 8 a.sig).symm
  · exact (BitVec.ofNat_toNat 8 b.sig).symm

theorem Quad.inf_eq_theInf (p : Params) (n : Bool) (s : BitVec 8) : Quad.inf p n s = theInf p n s := by
  have hman : msbOnly = BitVec.ofNat 128 (2 ^ 127) := by decide
  rw [Quad.inf, theInf, hman]

/-- The exponent clamp saturates as R165 says, and never sets QCUT. -/
theorem saturatesTo_finish (p : Params) (n : Bool) (e : Int) (m : U128) (s : BitVec 8) :
    SaturatesTo p n e m s false (finish p n e m s) := by
  rw [SaturatesTo, ← Params.emaxInt, ← Params.eminInt]
  rcases finish_cases p n e m s with ⟨hhigh, h⟩ | ⟨hhigh, hlow, h⟩ | ⟨hhigh, hlow, h⟩ <;> rw [h]
  · rw [if_pos hhigh, Quad.inf_eq_theInf]
    rfl
  · rw [if_neg (not_le.mpr hhigh), if_pos hlow]
    rfl
  · rw [if_neg (not_le.mpr hhigh), if_neg (not_le.mpr hlow)]
    rfl

/-- The arms of QMUL, by the operands' classes (spec/43_quad_arith.md R171). -/
theorem mulCore_eq {p : Params} (hp : p.wf) (a b : Quad) :
    mulCore p a b =
      if a.cls p = .nan ∨ b.cls p = .nan then .quiet (theNaN p (leastSig a b))
      else if (a.cls p = .zero ∧ b.cls p = .inf) ∨ (a.cls p = .inf ∧ b.cls p = .zero) then
        invalidResult p (leastSig a b)
      else if a.cls p = .inf ∨ b.cls p = .inf then .quiet (theInf p (a.neg != b.neg) (leastSig a b))
      else if a.cls p = .zero ∨ b.cls p = .zero then .quiet (theZero p (leastSig a b))
      else mulFinite p (a.neg != b.neg) a b (leastSig a b) := by
  simp only [mulCore, Bool.or_eq_true, Bool.and_eq_true, Quad.isNaN_iff_cls hp, Quad.isInf_iff_cls hp,
    Quad.isZero_iff_cls, minSig_eq_leastSig, Quad.inf_eq_theInf]
  rfl

/-! ## The product of two finite Quads -/

theorem Quad.mag_mul_mag (a b : Quad) :
    a.mag * b.mag = (a.man.toNat * b.man.toNat : ℚ) * (2 : ℚ) ^ (a.exp.toInt + b.exp.toInt - 256) := by
  have hexp : a.exp.toInt + b.exp.toInt - 256 = (a.exp.toInt - 128) + (b.exp.toInt - 128) := by omega
  rw [Quad.mag, Quad.mag, hexp, zpow_add₀ two_ne_zero]
  ring

/-- The exact product, in units of MULHI's accumulation: at least the accumulation, and above it by less than 2 units,
or 3 without the cross carry (spec/41_u128_multiply.md R123, property 2). -/
theorem highProduct_units (p : Params) (a b : Quad) :
    (highProduct p.crossCarry a.man.toNat b.man.toNat : ℚ) * (2 : ℚ) ^ (a.exp.toInt + b.exp.toInt - 128) ≤
        a.mag * b.mag ∧
      a.mag * b.mag < (highProduct p.crossCarry a.man.toNat b.man.toNat + if p.crossCarry then 2 else 3 : ℚ) *
        (2 : ℚ) ^ (a.exp.toInt + b.exp.toInt - 128) := by
  obtain ⟨hle, hge⟩ := highProduct_bounds p.crossCarry a.man b.man
  generalize highProduct p.crossCarry a.man.toNat b.man.toNat = r at *
  have hlow : r * 2 ^ 128 ≤ a.man.toNat * b.man.toNat := (Nat.le_div_iff_mul_le (by decide)).mp hle
  have hhigh : a.man.toNat * b.man.toNat < (r + if p.crossCarry then 2 else 3) * 2 ^ 128 := by
    refine (Nat.div_lt_iff_lt_mul (by decide)).mp (lt_of_le_of_lt hge ?_)
    split_ifs <;> omega
  have hunit : (2 : ℚ) ^ (a.exp.toInt + b.exp.toInt - 128) =
      2 ^ 128 * (2 : ℚ) ^ (a.exp.toInt + b.exp.toInt - 256) := by
    rw [← zpow_natCast, ← zpow_add₀ two_ne_zero]
    congr 1
    omega
  rw [Quad.mag_mul_mag, hunit, ← mul_assoc, ← mul_assoc]
  constructor
  · exact mul_le_mul_of_nonneg_right (by exact_mod_cast hlow) (by positivity)
  · exact mul_lt_mul_of_pos_right (by exact_mod_cast hhigh) (by positivity)

/-- Normalising by `k` positions leaves the magnitude as it is (spec/43_quad_arith.md R171). -/
theorem shifted_mul_zpow {m r k : Nat} (hm : m = r * 2 ^ k) (e : Int) :
    (m : ℚ) * (2 : ℚ) ^ (e - k - 128) = r * (2 : ℚ) ^ (e - 128) := by
  have hexp : e - 128 = k + (e - k - 128) := by omega
  rw [hm, hexp, zpow_add₀ two_ne_zero, zpow_natCast]
  push_cast
  ring

theorem isFiniteProduct_mulFinite {p : Params} {a b : Quad} (ha : 2 ^ 127 ≤ a.man.toNat)
    (hb : 2 ^ 127 ≤ b.man.toNat) :
    IsFiniteProduct p a b (mulFinite p (a.neg != b.neg) a b (leastSig a b)) := by
  obtain ⟨k, m, hk, hm, hmsb, hmul⟩ := mulFinite_cases p (a.neg != b.neg) a b (leastSig a b) ha hb
  rw [mulHiAcc_eq_highProduct] at hm
  obtain ⟨hlow, hhigh⟩ := highProduct_units p a b
  refine ⟨k, m, hk, hmsb, hm, ?_, ?_, ?_⟩
  · rwa [shifted_mul_zpow hm]
  · rwa [shifted_mul_zpow hm, ← add_mul]
  · rw [hmul]
    exact saturatesTo_finish ..

/-! ## The product, class by class -/

theorem isProduct_mulCore {p : Params} {a b : Quad} (hp : p.wf) (ha : a.valid p = true) (hb : b.valid p = true) :
    IsProduct p a b (mulCore p a b) := by
  rw [mulCore_eq hp, IsProduct]
  cases hfa : a.cls p with
  | nan => simp
  | zero | inf => cases b.cls p <;> simp
  | finite =>
    cases hfb : b.cls p with
    | nan | inf | zero => simp
    | finite =>
      simpa using isFiniteProduct_mulFinite (Quad.msb_of_valid ha hfa) (Quad.msb_of_valid hb hfb)

/-- Settles O41: QMUL runs its core on two valid operands, and the core gives the product. -/
theorem qmulGivesTheProduct : Obligations.QmulGivesTheProduct := by
  intro d a b s
  have hword : (encode (.qmul d a b)).toNat = numR3 0x22 d a b := toNat_wordR3_qBits ..
  have hexec : exec (.qmul d a b) s = s.command (.qmul d a b) (s.binaryQ d a b (mulCore s.params)) := rfl
  refine ⟨decodes_of_toNat_encode hword rfl, fun hs => ⟨exec_binaryQ_of_invalid hs hword hexec, fun hp ha hb => ?_⟩⟩
  exact ⟨_, exec_binaryQ_of_valid hs hword hexec ha hb, isProduct_mulCore hp ha hb⟩

end Sys2Proof.Machine
end

section
/-! PROOF. The U128 shift and normalise commands (spec/42_u128_shift_normalize.md R140 to R143): each result in plain
numbers, then the state the command leaves. -/

namespace Sys2Proof.Machine

/-! ## The values written -/

theorem shiftLeft_eq_ofNat (v : U128) (n : Nat) : shiftLeft v n = BitVec.ofNat 128 (v.toNat * 2 ^ n) := by
  rw [← BitVec.toNat_inj, shiftLeft_toNat, BitVec.toNat_ofNat]

theorem shiftRight_eq_ofNat (v : U128) (n : Nat) : shiftRight v n = BitVec.ofNat 128 (v.toNat / 2 ^ n) := by
  rw [← shiftRight_toNat, BitVec.ofNat_toNat, BitVec.setWidth_eq]

/-- The two formulas of R142: the carry in adds 2^127 to the half, which is half of the 129-bit value. -/
theorem shiftRightMsb_eq_ofNat (v : U128) : shiftRightMsb v = BitVec.ofNat 128 ((2 ^ 128 + v.toNat) / 2) := by
  have hhalf : (2 ^ 128 + v.toNat) / 2 = v.toNat / 2 + 2 ^ 127 := by omega
  rw [hhalf, ← shiftRightMsb_toNat, BitVec.ofNat_toNat, BitVec.setWidth_eq]

/-- The normalised value and its count, no set bit lost. -/
theorem normalize_eq_ofNat {v : U128} (h : v ≠ 0) :
    normalize v = (BitVec.ofNat 128 (v.toNat * 2 ^ (normalize v).2), (normalize v).2) := by
  obtain ⟨-, hvalue, -⟩ := normalize_spec v h
  refine Prod.ext ?_ rfl
  rw [← hvalue, BitVec.ofNat_toNat, BitVec.setWidth_eq]

/-- The count of `normalize` brings the operand's top bit to bit 127 (spec/42_u128_shift_normalize.md R143). -/
theorem normalize_count_bounds {v : U128} (h : v ≠ 0) :
    (normalize v).2 ≤ 127 ∧ 2 ^ 127 ≤ v.toNat * 2 ^ (normalize v).2 ∧ v.toNat * 2 ^ (normalize v).2 < 2 ^ 128 := by
  obtain ⟨hcount, hvalue, htop⟩ := normalize_spec v h
  rw [← hvalue]
  exact ⟨hcount, htop, (normalize v).1.isLt⟩

/-! ## NORM's two outcomes -/

theorem exec_norm (d a : XReg) (s : State) :
    exec (.norm d a) s = s.command (.norm d a)
      (if s.readX a = 0 then .error .normZero else .ok (s.writeXCnt d (normalize (s.readX a)))) := rfl

section
variable {d a : XReg} {w : Nat} {s : State} (hs : s.status.fault = false) (hw : (encode (.norm d a)).toNat = w)
include hs hw

theorem exec_norm_of_zero (ha : s.readX a = 0) : exec (.norm d a) s = .next (s.faulted .normZero w) := by
  refine exec_eq_faulted hs hw ?_
  rw [exec_norm, if_pos ha]

theorem exec_norm_of_ne_zero (ha : s.readX a ≠ 0) :
    exec (.norm d a) s = .next { s.writeXCnt d (normalize (s.readX a)) with lastcmd := BitVec.ofNat 64 w } := by
  rw [exec_norm, if_neg ha, State.command_ok hs, State.complete_of_toNat_encode _ hw]

end

/-! ## The obligations -/

/-- Settles O36: the count is that of `normalize`, whose value loses no set bit. -/
theorem normShiftsUntilTheTopBitIsSet : Obligations.NormShiftsUntilTheTopBitIsSet := by
  intro d a s
  have hword : (encode (.norm d a)).toNat = numR2 0x1C d a := toNat_wordR2 ..
  refine ⟨decodes_of_toNat_encode hword rfl, fun hs => ⟨fun hzero => ?_, fun hne => ?_⟩⟩
  · exact exec_norm_of_zero hs hword (BitVec.eq_of_toNat_eq hzero)
  · have ha : s.readX a ≠ 0 := fun h => hne (congrArg BitVec.toNat h)
    obtain ⟨hcount, htop, hfits⟩ := normalize_count_bounds ha
    refine ⟨_, hcount, htop, hfits, ?_⟩
    rw [exec_norm_of_ne_zero hs hword ha, normalize_eq_ofNat ha]
    rfl

/-- Settles O34: both shifts in numbers, where a count of 128 or more gives 0 with no case of its own. -/
theorem shiftsMultiplyAndDivideByPowersOfTwo : Obligations.ShiftsMultiplyAndDivideByPowersOfTwo := by
  intro d a n s
  have hshl : (encode (.shl d a n)).toNat = numRS 0x18 d a n.toNat := toNat_wordRS ..
  have hshr : (encode (.shr d a n)).toNat = numRS 0x19 d a n.toNat := toNat_wordRS ..
  refine ⟨decodes_of_toNat_encode hshl rfl, decodes_of_toNat_encode hshr rfl, fun hs => ⟨?_, ?_⟩⟩
  · rw [← shiftLeft_eq_ofNat]
    exact exec_eq_doneX hs hshl rfl
  · rw [← shiftRight_eq_ofNat]
    exact exec_eq_doneX hs hshr rfl

/-- Settles O35: SHRMSB writes half of the 129-bit value. -/
theorem shrmsbFoldsTheCarryIn : Obligations.ShrmsbFoldsTheCarryIn := by
  intro d a s
  have hword : (encode (.shrmsb d a)).toNat = numRS 0x1A d a 1 := toNat_wordRS ..
  refine ⟨decodes_of_toNat_encode hword rfl, fun hs => ?_⟩
  rw [← shiftRightMsb_eq_ofNat]
  exact exec_eq_doneX hs hword rfl

end Sys2Proof.Machine
end

section
/-! PROOF. The classes of a valid Quad (spec/43_quad_arith.md R160, R161), and the Q commands with one operand
that change its sign (R172, R173). -/

namespace Sys2Proof.Machine

/-! ## Valid Quads -/

/-- Within the exponents' range, the test for a finite Quad is the test for its class. -/
theorem Quad.isFinite_iff_cls {p : Params} {q : Quad} (hlow : p.eminInt ≤ q.expInt) (hhigh : q.expInt ≤ p.emaxInt) :
    q.isFinite p = true ↔ q.cls p = .finite := by
  rw [Quad.cls_eq_finite_iff, ne_eq, ne_eq, ← BitVec.toInt_inj, ← BitVec.toInt_inj]
  simp only [Quad.isFinite, Bool.and_eq_true, decide_eq_true_eq]
  rw [Quad.expInt, Params.eminInt, Params.emaxInt] at *
  omega

/-- Validity in terms of the class (spec/43_quad_arith.md R161). -/
theorem Quad.valid_iff (p : Params) (q : Quad) :
    q.valid p = true ↔
      q.sig.toNat ≤ 128 ∧ (p.eminInt ≤ q.expInt ∧ q.expInt ≤ p.emaxInt) ∧
        (q.cls p = .zero → q.man = 0#128 ∧ q.neg = false) ∧ (q.cls p = .finite → 2 ^ 127 ≤ q.man.toNat) := by
  have hvalid : q.valid p = true ↔
      q.sig.toNat ≤ 128 ∧ (p.eminInt ≤ q.expInt ∧ q.expInt ≤ p.emaxInt) ∧
        (q.isZero p = true → q.man = 0#128 ∧ q.neg = false) ∧ (q.isFinite p = true → msbSet q.man = true) := by
    simp only [Quad.valid, Bool.and_eq_true, Bool.or_eq_true, Bool.not_eq_true', decide_eq_true_eq, beq_iff_eq,
      ← Bool.not_eq_true, ← imp_iff_not_or]
    rw [Config.sigMax]
    tauto
  rw [hvalid]
  refine and_congr_right fun _ => and_congr_right fun ⟨hlow, hhigh⟩ => ?_
  rw [Quad.isZero_iff_cls, Quad.isFinite_iff_cls hlow hhigh, msbSet_iff]

theorem Quad.sig_le_of_valid {p : Params} {q : Quad} (h : q.valid p = true) : q.sig.toNat ≤ 128 :=
  ((Quad.valid_iff p q).mp h).1

/-- A valid finite Quad's exponent lies strictly between EMIN and EMAX. -/
theorem Quad.exp_between_of_valid {p : Params} {q : Quad} (h : q.valid p = true) (hc : q.cls p = .finite) :
    p.eminInt < q.expInt ∧ q.expInt < p.emaxInt := by
  obtain ⟨-, ⟨hlow, hhigh⟩, -⟩ := (Quad.valid_iff p q).mp h
  simpa [Quad.isFinite] using (Quad.isFinite_iff_cls hlow hhigh).mpr hc

/-- A normalised mantissa under an exponent strictly between EMIN and EMAX makes a valid Quad. -/
theorem Quad.valid_of_normalised {p : Params} {q : Quad} (hsig : q.sig.toNat ≤ 128)
    (hexp : p.eminInt < q.expInt ∧ q.expInt < p.emaxInt) (hmsb : 2 ^ 127 ≤ q.man.toNat) : q.valid p = true := by
  have hfinite := Quad.cls_of_exp_between hexp.1 hexp.2
  exact (Quad.valid_iff p q).mpr ⟨hsig, ⟨hexp.1.le, hexp.2.le⟩, fun hzero => by simp [hzero] at hfinite, fun _ => hmsb⟩

/-- R7's constraints leave the exponents of the integers from 1 on to finite Quads. -/
theorem exp_between_of_integer {p : Params} (hp : p.wf) {e : Int} (hlow : 0 < e) (hhigh : e ≤ 129) :
    p.eminInt < e ∧ e < p.emaxInt := by
  obtain ⟨hmin, hmax⟩ := hp
  omega

/-- Settles O37: each predicate is the test for its class, and a valid finite Quad's mantissa is normalised. -/
theorem validQuadsAreInExactlyOneClass : Obligations.ValidQuadsAreInExactlyOneClass := by
  intro p q hp hvalid
  obtain ⟨-, ⟨hlow, hhigh⟩, -⟩ := (Quad.valid_iff p q).mp hvalid
  exact ⟨Quad.isZero_iff_cls p q, Quad.isInf_iff_cls hp q, Quad.isNaN_iff_cls hp q, Quad.isFinite_iff_cls hlow hhigh,
    fun hfinite => Quad.mag_bounds (Quad.msb_of_valid hvalid hfinite)⟩

/-! ## A Q command with one operand, given the number of its word -/

theorem toNat_wordR2_qBits (op : BitVec 8) (d a : QReg) :
    (wordR2 op (qBits d) (qBits a)).toNat = numR2 op.toNat d a := by
  rw [toNat_wordR2, toNat_qBits, toNat_qBits]

section
variable {i : Instr} {w : Nat} {s : State} {d a : QReg} {f : Quad → QResult} (hs : s.status.fault = false)
  (hw : (encode i).toNat = w) (h : exec i s = s.command i (s.unaryQ d a f))
include hs hw h

theorem exec_unaryQ_of_invalid (ha : (s.readQ a).valid s.params = false) :
    exec i s = .next (s.faulted .badQuadOperand w) := by
  rcases s.unaryQ_cases d a f with ⟨hvalid, -⟩ | ⟨-, heffect⟩
  · simp [ha] at hvalid
  · exact exec_eq_faulted hs hw (h.trans (by rw [heffect]))

theorem exec_unaryQ_of_valid (ha : (s.readQ a).valid s.params = true) :
    exec i s = .next (s.doneQ d (f (s.readQ a)) w) := by
  rcases s.unaryQ_cases d a f with ⟨-, heffect⟩ | ⟨hinvalid, -⟩
  · exact exec_eq_doneQ hs hw (h.trans (by rw [heffect]))
  · simp [ha] at hinvalid

end

/-! ## Sign changes, class by class -/

/-- QNEG's result, by the operand's class (spec/43_quad_arith.md R172). -/
theorem negate_eq {p : Params} (hp : p.wf) (a : Quad) :
    negate p a = match a.cls p with
      | .nan => theNaN p a.sig
      | .zero => a
      | .finite | .inf => { a with neg := !a.neg } := by
  simp only [negate, Quad.isNaN_iff_cls hp, Quad.isZero_iff_cls]
  cases a.cls p <;> rfl

/-- QABS's result, by the operand's class (spec/43_quad_arith.md R173). -/
theorem absolute_eq {p : Params} (hp : p.wf) (a : Quad) :
    absolute p a = match a.cls p with
      | .nan => theNaN p a.sig
      | .zero | .finite | .inf => { a with neg := false } := by
  simp only [absolute, Quad.isNaN_iff_cls hp]
  cases a.cls p <;> rfl

/-- Settles O43: QNEG writes its result, which depends on the operand's class alone. -/
theorem qnegFlipsTheSign : Obligations.QnegFlipsTheSign := by
  intro d a s
  have hword : (encode (.qneg d a)).toNat = numR2 0x23 d a := toNat_wordR2_qBits ..
  have hexec : exec (.qneg d a) s = s.command (.qneg d a) (s.unaryQ d a fun q => .plain (negate s.params q)) := rfl
  refine ⟨decodes_of_toNat_encode hword rfl, fun hs => ⟨exec_unaryQ_of_invalid hs hword hexec, fun hp ha => ?_⟩⟩
  rw [exec_unaryQ_of_valid hs hword hexec ha, negate_eq hp]
  rfl

/-- Settles O44: QABS writes its result, which depends on the operand's class alone. -/
theorem qabsClearsTheSign : Obligations.QabsClearsTheSign := by
  intro d a s
  have hword : (encode (.qabs d a)).toNat = numR2 0x24 d a := toNat_wordR2_qBits ..
  have hexec : exec (.qabs d a) s = s.command (.qabs d a) (s.unaryQ d a fun q => .plain (absolute s.params q)) := rfl
  refine ⟨decodes_of_toNat_encode hword rfl, fun hs => ⟨exec_unaryQ_of_invalid hs hword hexec, fun hp ha => ?_⟩⟩
  rw [exec_unaryQ_of_valid hs hword hexec ha, absolute_eq hp]
  rfl

end Sys2Proof.Machine
end

section
/-! PROOF. QADD and QSUB (spec/43_quad_arith.md R164 to R170): the magnitude add and subtract of two finite Quads in
exact rationals, the sum class by class, and what the two commands leave. -/

namespace Sys2Proof.Machine

/-! ## The anchor of the alignment cutoff -/

/-- The cutoff leaves the anchor's own exponent and mantissa, which need no clamp (spec/43_quad_arith.md R166, R167,
spec/90_conflicts.md C4). -/
theorem saturatesTo_cutoffResult {p : Params} {anchor : Quad} (hvalid : anchor.valid p = true)
    (hfinite : anchor.cls p = .finite) (n : Bool) (s : BitVec 8) :
    SaturatesTo p n anchor.expInt anchor.man s true (cutoffResult n anchor s) := by
  obtain ⟨hlow, hhigh⟩ := Quad.exp_between_of_valid hvalid hfinite
  rw [SaturatesTo, ← Params.emaxInt, ← Params.eminInt, if_neg (not_le.mpr hhigh), if_neg (not_le.mpr hlow),
    Quad.expInt, BitVec.ofInt_toInt]
  rfl

/-! ## Magnitudes in units of the larger exponent -/

/-- A magnitude in the unit of an exponent that is larger by `d`: the mantissa before the aligner truncates it
(spec/43_quad_arith.md R164). -/
theorem Quad.mag_div_unit (q : Quad) {e : Int} {d : Nat} (h : e = q.expInt + d) :
    q.mag / (2 : ℚ) ^ (e - 128) = q.man.toNat / ((2 ^ d : Nat) : ℚ) := by
  have hunit : (2 : ℚ) ^ (e - 128) = (2 : ℚ) ^ (q.exp.toInt - 128) * ((2 ^ d : Nat) : ℚ) := by
    have hexp : e - 128 = (q.exp.toInt - 128) + d := by rw [h, Quad.expInt]; omega
    rw [hexp, zpow_add₀ two_ne_zero, zpow_natCast]
    push_cast
    rfl
  rw [Quad.mag, hunit, mul_comm (q.man.toNat : ℚ), mul_div_mul_left]
  positivity

/-- The larger operand's magnitude in its own unit is its mantissa. -/
theorem Quad.mag_div_own_unit (q : Quad) : q.mag / (2 : ℚ) ^ (q.expInt - 128) = q.man.toNat := by
  rw [Quad.mag_div_unit q (d := 0) (by simp), Nat.pow_zero, Nat.cast_one, div_one]

/-- Adding in the larger exponent's unit and truncating adds the aligned mantissa. -/
theorem floor_mag_add {hi lo : Quad} {d : Nat} (h : hi.expInt = lo.expInt + d) :
    ⌊(hi.mag + lo.mag) / (2 : ℚ) ^ (hi.expInt - 128)⌋ = ((hi.man.toNat + lo.man.toNat / 2 ^ d : Nat) : Int) := by
  rw [add_div, Quad.mag_div_own_unit, Quad.mag_div_unit lo h, Int.floor_natCast_add, Rat.floor_natCast_div_natCast]
  push_cast
  rfl

/-- Truncating in the next larger unit halves the truncated sum (spec/43_quad_arith.md R166, the carry fold). -/
theorem floor_mag_add_next {hi lo : Quad} {d : Nat} (h : hi.expInt = lo.expInt + d) :
    ⌊(hi.mag + lo.mag) / (2 : ℚ) ^ (hi.expInt + 1 - 128)⌋ =
      (((hi.man.toNat + lo.man.toNat / 2 ^ d) / 2 : Nat) : Int) := by
  have hunit : (2 : ℚ) ^ (hi.expInt + 1 - 128) = (2 : ℚ) ^ (hi.expInt - 128) * ((2 : Nat) : ℚ) := by
    have hexp : hi.expInt + 1 - 128 = (hi.expInt - 128) + 1 := by omega
    rw [hexp, zpow_add_one₀ two_ne_zero]
    rfl
  rw [hunit, ← div_div, Int.floor_div_natCast, floor_mag_add h]
  rfl

/-- Subtracting in the larger exponent's unit and rounding up subtracts the aligned mantissa: what the aligner truncates
is taken from the subtrahend. -/
theorem ceil_mag_sub {big small : Quad} {d : Nat} (h : big.expInt = small.expInt + d) :
    ⌈(big.mag - small.mag) / (2 : ℚ) ^ (big.expInt - 128)⌉ =
      (big.man.toNat : Int) - (small.man.toNat / 2 ^ d : Nat) := by
  have hneg : (big.man.toNat : ℚ) - small.man.toNat / ((2 ^ d : Nat) : ℚ) =
      -(small.man.toNat / ((2 ^ d : Nat) : ℚ) - big.man.toNat) := by ring
  rw [sub_div, Quad.mag_div_own_unit, Quad.mag_div_unit small h, hneg, Int.ceil_neg, Int.floor_sub_natCast,
    Rat.floor_natCast_div_natCast]
  push_cast
  omega

/-- An aligned mantissa is 0 past the cutoff (spec/43_quad_arith.md R164). -/
theorem aligned_eq_zero (v : U128) {d : Nat} (h : 128 < d) : v.toNat / 2 ^ d = 0 :=
  Nat.div_eq_of_lt (v.isLt.trans (Nat.pow_lt_pow_right (by norm_num) h))

/-! ## The magnitude add and subtract -/

/-- The exact magnitude sum truncated to 128 bits, saturated, with QCUT past the cutoff (spec/43_quad_arith.md R165,
R166). -/
theorem magAddAnchored_truncates {p : Params} {hi lo : Quad} (hvalid : hi.valid p = true)
    (hfinite : hi.cls p = .finite) {d : Nat} (hd : hi.expInt = lo.expInt + d) (n : Bool) (s : BitVec 8) :
    ∃ (e : Int) (m : U128), 2 ^ 127 ≤ m.toNat ∧ (m.toNat : Int) = ⌊(hi.mag + lo.mag) / (2 : ℚ) ^ (e - 128)⌋ ∧
      SaturatesTo p n e m s (decide (128 < d)) (magAddAnchored p n hi lo s) := by
  have hmsb := Quad.msb_of_valid hvalid hfinite
  have hdiff : (hi.expInt - lo.expInt).toNat = d := by omega
  rw [magAddAnchored, hdiff]
  rcases align_cases lo.man d with ⟨hcut, h⟩ | ⟨hcut, t, h, ht⟩ <;> rw [h]
  · refine ⟨hi.expInt, hi.man, hmsb, ?_, ?_⟩
    · rw [floor_mag_add hd, aligned_eq_zero lo.man hcut, Nat.add_zero]
    · rw [decide_eq_true hcut]
      exact saturatesTo_cutoffResult hvalid hfinite n s
  · rw [decide_eq_false (not_lt.mpr hcut)]
    rcases addAligned_cases p n hi t s with ⟨-, m, hm, hsum⟩ | ⟨hcarry, m, hm, hsum⟩ <;>
      simp only [hsum] <;> rw [ht] at hm
    · refine ⟨hi.expInt, m, by omega, ?_, saturatesTo_finish ..⟩
      rw [floor_mag_add hd, hm]
    · refine ⟨hi.expInt + 1, m, by omega, ?_, saturatesTo_finish ..⟩
      rw [floor_mag_add_next hd, hm]

/-- The exact magnitude difference rounded up to the larger exponent's unit, normalised and saturated, with QCUT past
the cutoff (spec/43_quad_arith.md R165, R167). -/
theorem magSubOrdered_roundsUp {p : Params} {big small : Quad} (hvalid : big.valid p = true)
    (hfinite : big.cls p = .finite) {d : Nat} (hd : big.expInt = small.expInt + d)
    (hman : d = 0 → small.man.toNat < big.man.toNat) (n : Bool) (s : BitVec 8) :
    ∃ (e : Int) (m : U128), 2 ^ 127 ≤ m.toNat ∧
      (m.toNat : ℚ) * (2 : ℚ) ^ (e - 128) =
        (⌈(big.mag - small.mag) / (2 : ℚ) ^ (big.expInt - 128)⌉ : ℚ) * (2 : ℚ) ^ (big.expInt - 128) ∧
      SaturatesTo p n e m s (decide (128 < d)) (magSubOrdered p n big small s) := by
  have hmsb := Quad.msb_of_valid hvalid hfinite
  have hdiff : (big.expInt - small.expInt).toNat = d := by omega
  rw [ceil_mag_sub hd, magSubOrdered, hdiff]
  rcases align_cases small.man d with ⟨hcut, h⟩ | ⟨hcut, t, h, ht⟩ <;> rw [h]
  · refine ⟨big.expInt, big.man, hmsb, ?_, ?_⟩
    · rw [aligned_eq_zero small.man hcut]
      simp
    · rw [decide_eq_true hcut]
      exact saturatesTo_cutoffResult hvalid hfinite n s
  · rw [decide_eq_false (not_lt.mpr hcut), ← ht]
    obtain ⟨hle, heq⟩ := shifted_le hmsb ht fun hd0 => (hman hd0).le
    have hne : big.man.toNat ≠ t.toNat := fun hsame => by
      obtain ⟨hd0, hsmall⟩ := heq.mp hsame
      exact absurd (hman hd0) (by rw [hsmall]; exact lt_irrefl _)
    rcases subAligned_cases p n big t s hle with ⟨hzero, -⟩ | ⟨-, k, m, -, hm, htop, hsub⟩
    · exact absurd hzero hne
    · refine ⟨big.expInt - k, m, htop, ?_, ?_⟩
      · rw [shifted_mul_zpow hm, Nat.cast_sub hle]
        push_cast
        rfl
      · simp only [hsub]
        exact saturatesTo_finish ..

/-- Equal magnitudes cancel to zero, without a status bit (spec/43_quad_arith.md R167). -/
theorem magSubOrdered_cancels (p : Params) (n : Bool) {big small : Quad} (hexp : big.expInt = small.expInt)
    (hman : big.man = small.man) (s : BitVec 8) :
    magSubOrdered p n big small s = .quiet (theZero p s) := by
  have hdiff : (big.expInt - small.expInt).toNat = 0 := by omega
  rw [magSubOrdered, hdiff]
  rcases align_cases small.man 0 with ⟨hcut, -⟩ | ⟨-, t, h, ht⟩
  · exact absurd hcut (by decide)
  · rw [Nat.pow_zero, Nat.div_one, BitVec.toNat_inj] at ht
    rw [h]
    rcases subAligned_cases p n big t s (by rw [ht, hman]) with ⟨-, hsub⟩ | ⟨hlt, -⟩
    · exact hsub
    · rw [ht, hman] at hlt
      exact absurd hlt (lt_irrefl _)

/-! ## The sum of two finite Quads -/

theorem Quad.mag_lt_of_man_lt {a b : Quad} (hexp : a.expInt = b.expInt) (h : a.man.toNat < b.man.toNat) :
    a.mag < b.mag := by
  rw [Quad.mag, Quad.mag, show a.exp.toInt = b.exp.toInt from hexp]
  exact mul_lt_mul_of_pos_right (by exact_mod_cast h) (by positivity)

/-- The order of exponent and mantissa is that of the magnitudes (spec/43_quad_arith.md R167). -/
theorem Quad.mag_lt_of_order {a b : Quad} (ha : 2 ^ 127 ≤ a.man.toNat) (hb : 2 ^ 127 ≤ b.man.toNat)
    (h : a.expInt < b.expInt ∨ (a.expInt = b.expInt ∧ a.man.toNat < b.man.toNat)) : a.mag < b.mag :=
  h.elim (Quad.mag_lt_of_exp_lt ha hb) fun ⟨hexp, hman⟩ => Quad.mag_lt_of_man_lt hexp hman

/-- MAGSUB's order and its two arms; the flipped operand's sign plays no part (spec/43_quad_arith.md R167, R168). -/
theorem magSub_flip (p : Params) (n : Bool) (a b : Quad) (s : BitVec 8) :
    magSub p n a b.flip s =
      if b.expInt < a.expInt ∨ (a.expInt = b.expInt ∧ b.man.toNat ≤ a.man.toNat) then magSubOrdered p n a b s
      else magSubOrdered p (!n) b a s := by
  simp only [magSub, Quad.magGe_iff]
  rfl

/-- The cutoff's distance is the difference of the exponents, whichever operand is the larger. -/
theorem decide_cutoff {x y : Int} {d : Nat} (h : x = y + d) :
    decide (128 < |x - y|) = decide (128 < d) ∧ decide (128 < |y - x|) = decide (128 < d) := by
  rw [abs_sub_comm y x, h, add_sub_cancel_left, Nat.abs_cast, and_self, decide_eq_decide]
  omega

section
variable {p : Params} {a b : Quad} (hfa : a.cls p = .finite) (hfb : b.cls p = .finite)
include hfa hfb

/-- Operands of one sign add their magnitudes. -/
theorem abs_value_add_of_neg_eq (hsign : a.neg = b.neg) (hma : 0 < a.mag) (hmb : 0 < b.mag) :
    |a.value p + b.value p| = a.mag + b.mag := by
  rw [Quad.value_of_finite hfa, Quad.value_of_finite hfb, hsign]
  cases b.neg
  · exact abs_of_pos (add_pos hma hmb)
  · rw [if_pos rfl, if_pos rfl, ← neg_add, abs_neg]
    exact abs_of_pos (add_pos hma hmb)

/-- Operands of opposite sign subtract the smaller magnitude from the larger, whose sign the sum has. -/
theorem value_add_of_neg_ne (hsign : a.neg ≠ b.neg) (hlt : b.mag < a.mag) :
    |a.value p + b.value p| = a.mag - b.mag ∧ decide (a.value p + b.value p < 0) = a.neg := by
  have hb : b.neg = !a.neg := Bool.eq_not.mpr (Ne.symm hsign)
  rw [Quad.value_of_finite hfa, Quad.value_of_finite hfb, hb]
  cases a.neg
  · have hv : a.mag + -b.mag = a.mag - b.mag := (sub_eq_add_neg ..).symm
    simp only [Bool.not_false, Bool.false_eq_true, if_true, if_false, hv, decide_eq_false_iff_not, not_lt]
    exact ⟨abs_of_pos (sub_pos.mpr hlt), (sub_pos.mpr hlt).le⟩
  · have hv : -a.mag + b.mag = -(a.mag - b.mag) := by ring
    simp only [Bool.not_true, Bool.false_eq_true, if_true, if_false, hv, decide_eq_true_eq, abs_neg]
    exact ⟨abs_of_pos (sub_pos.mpr hlt), neg_lt_zero.mpr (sub_pos.mpr hlt)⟩

variable (ha : a.valid p = true) (hb : b.valid p = true)
include ha hb

/-- MAGADD gives the sum of two finite operands of one sign (spec/43_quad_arith.md R166). -/
theorem isFiniteSum_magAdd (hsign : a.neg = b.neg) : IsFiniteSum p a b (magAdd p a.neg a b (leastSig a b)) := by
  have hma := Quad.mag_pos (Quad.msb_of_valid ha hfa)
  have hmb := Quad.mag_pos (Quad.msb_of_valid hb hfb)
  simp only [IsFiniteSum, if_pos hsign, abs_value_add_of_neg_eq hfa hfb hsign hma hmb, magAdd]
  split_ifs with h
  · obtain ⟨d, hd⟩ := Int.le.dest h
    rw [← Quad.expInt, ← Quad.expInt, (decide_cutoff hd.symm).1]
    exact magAddAnchored_truncates ha hfa hd.symm ..
  · obtain ⟨d, hd⟩ := Int.le.dest (not_le.mp h).le
    rw [← Quad.expInt, ← Quad.expInt, (decide_cutoff hd.symm).2, add_comm a.mag]
    exact magAddAnchored_truncates hb hfb hd.symm ..

/-- MAGSUB gives the sum of two finite operands of opposite sign (spec/43_quad_arith.md R167). -/
theorem isFiniteSum_magSub (hsign : a.neg ≠ b.neg) :
    IsFiniteSum p a b (magSub p a.neg a b.flip (leastSig a b)) := by
  have hma := Quad.msb_of_valid ha hfa
  have hmb := Quad.msb_of_valid hb hfb
  have hzero := Quad.value_add_eq_zero_iff hfa hfb hma hmb
  simp only [IsFiniteSum, if_neg hsign, magSub_flip]
  split_ifs with hcancel hge hge
  · obtain ⟨-, hexp, hman⟩ := hzero.mp hcancel
    exact magSubOrdered_cancels p a.neg hexp hman _
  · obtain ⟨-, hexp, hman⟩ := hzero.mp hcancel
    exact absurd (.inr ⟨hexp, by rw [hman]⟩) hge
  · have hlex : b.expInt < a.expInt ∨ (b.expInt = a.expInt ∧ b.man.toNat < a.man.toNat) := by
      have hne : a.expInt = b.expInt → a.man.toNat ≠ b.man.toNat := fun hexp hman =>
        hcancel (hzero.mpr ⟨hsign, hexp, BitVec.eq_of_toNat_eq hman⟩)
      omega
    obtain ⟨hv, hneg⟩ := value_add_of_neg_ne hfa hfb hsign (Quad.mag_lt_of_order hmb hma hlex)
    have hexp : b.expInt ≤ a.expInt := by omega
    obtain ⟨d, hd⟩ := Int.le.dest hexp
    rw [← Quad.expInt, ← Quad.expInt, hv, hneg, max_eq_left hexp, (decide_cutoff hd.symm).1]
    exact magSubOrdered_roundsUp ha hfa hd.symm (fun hd0 => by omega) ..
  · have hlex : a.expInt < b.expInt ∨ (a.expInt = b.expInt ∧ a.man.toNat < b.man.toNat) := by omega
    obtain ⟨hv, hneg⟩ := value_add_of_neg_ne hfb hfa hsign.symm (Quad.mag_lt_of_order hma hmb hlex)
    have hexp : a.expInt ≤ b.expInt := by omega
    obtain ⟨d, hd⟩ := Int.le.dest hexp
    have hflip : (!a.neg) = b.neg := (Bool.eq_not.mpr hsign.symm).symm
    rw [add_comm (a.value p), ← Quad.expInt, ← Quad.expInt, hv, hneg, hflip, max_eq_right hexp,
      (decide_cutoff hd.symm).2]
    exact magSubOrdered_roundsUp hb hfb hd.symm (fun hd0 => by omega) ..

end

/-! ## The sum, class by class -/

/-- The arms of ADDCORE, by the operands' classes (spec/43_quad_arith.md R168). -/
theorem addCore_eq {p : Params} (hp : p.wf) (a b : Quad) :
    addCore p a b =
      if a.cls p = .nan ∨ b.cls p = .nan then .quiet (theNaN p (leastSig a b))
      else if a.cls p = .inf ∧ b.cls p = .inf then
        if a.neg = b.neg then .quiet (theInf p a.neg (leastSig a b)) else invalidResult p (leastSig a b)
      else if a.cls p = .inf then .quiet (theInf p a.neg (leastSig a b))
      else if b.cls p = .inf then .quiet (theInf p b.neg (leastSig a b))
      else if a.cls p = .zero ∧ b.cls p = .zero then .quiet (theZero p (leastSig a b))
      else if b.cls p = .zero then .quiet { a with sig := leastSig a b }
      else if a.cls p = .zero then .quiet { b with sig := leastSig a b }
      else if a.neg = b.neg then magAdd p a.neg a b (leastSig a b)
      else magSub p a.neg a b.flip (leastSig a b) := by
  simp only [addCore, Bool.or_eq_true, Bool.and_eq_true, beq_iff_eq, Quad.isNaN_iff_cls hp, Quad.isInf_iff_cls hp,
    Quad.isZero_iff_cls, minSig_eq_leastSig, Quad.inf_eq_theInf]
  rfl

theorem isSum_addCore {p : Params} {a b : Quad} (hp : p.wf) (ha : a.valid p = true) (hb : b.valid p = true) :
    IsSum p a b (addCore p a b) := by
  rw [addCore_eq hp, IsSum]
  cases hfa : a.cls p with
  | nan => simp
  | zero | inf => cases b.cls p <;> simp
  | finite =>
    cases hfb : b.cls p with
    | nan | inf | zero => simp
    | finite =>
      by_cases hsign : a.neg = b.neg
      · simpa [hsign] using isFiniteSum_magAdd hfa hfb ha hb hsign
      · simpa [hsign] using isFiniteSum_magSub hfa hfb ha hb hsign

/-! ## The obligations -/

/-- Settles O38: QADD runs its core on two valid operands, and the core gives the sum. -/
theorem qaddGivesTheSum : Obligations.QaddGivesTheSum := by
  intro d a b s
  have hword : (encode (.qadd d a b)).toNat = numR3 0x20 d a b := toNat_wordR3_qBits ..
  have hexec : exec (.qadd d a b) s = s.command (.qadd d a b) (s.binaryQ d a b (addCore s.params)) := rfl
  refine ⟨decodes_of_toNat_encode hword rfl, fun hs => ⟨exec_binaryQ_of_invalid hs hword hexec, fun hp ha hb => ?_⟩⟩
  exact ⟨_, exec_binaryQ_of_valid hs hword hexec ha hb, isSum_addCore hp ha hb⟩

/-- QSUB's effect on an unhalted unit, given two valid operands. -/
theorem exec_qsub_of_valid {d a b : QReg} {s : State} (hs : s.status.fault = false)
    (ha : (s.readQ a).valid s.params = true) (hb : (s.readQ b).valid s.params = true) :
    exec (.qsub d a b) s = .next
      (s.doneQ d (addCore s.params (s.readQ a) (negated s.params (s.readQ b))) (numR3 0x21 d a b)) := by
  have hword : (encode (.qsub d a b)).toNat = numR3 0x21 d a b := toNat_wordR3_qBits ..
  have hexec : exec (.qsub d a b) s = s.command (.qsub d a b) (s.binaryQ d a b (subCore s.params)) := rfl
  rw [exec_binaryQ_of_valid hs hword hexec ha hb, subCore, subOperand_eq_negated]

/-- Settles O39: QSUB runs the core of QADD on its second operand negated, which is valid too. -/
theorem qsubGivesTheDifference : Obligations.QsubGivesTheDifference := by
  intro d a b s
  have hword : (encode (.qsub d a b)).toNat = numR3 0x21 d a b := toNat_wordR3_qBits ..
  have hexec : exec (.qsub d a b) s = s.command (.qsub d a b) (s.binaryQ d a b (subCore s.params)) := rfl
  refine ⟨decodes_of_toNat_encode hword rfl, fun hs => ⟨exec_binaryQ_of_invalid hs hword hexec, fun hp ha hb => ?_⟩⟩
  exact ⟨_, exec_qsub_of_valid hs ha hb, isSum_addCore hp ha (valid_negated hb)⟩

theorem negated_of_finite {p : Params} {a : Quad} (h : a.cls p = .finite) : negated p a = a.flip := by
  rw [negated, h]
  rfl

theorem isSum_iff_of_finite {p : Params} {a b : Quad} (ha : a.cls p = .finite) (hb : b.cls p = .finite)
    {r : QResult} : IsSum p a b r ↔ IsFiniteSum p a b r := by
  rw [IsSum, ha, hb]

theorem leastSig_flip (a : Quad) : leastSig a a.flip = a.sig := by
  rw [leastSig, Quad.flip, Nat.min_self, BitVec.ofNat_toNat, BitVec.setWidth_eq]

/-- The sum of a finite Quad and its negation is zero with the Quad's budget. -/
theorem addCore_negated_self {p : Params} {a : Quad} (hp : p.wf) (ha : a.valid p = true) (hfinite : a.cls p = .finite) :
    addCore p a (negated p a) = .quiet (theZero p a.sig) := by
  have hflip : a.flip.cls p = .finite := hfinite
  have hsign : a.neg ≠ a.flip.neg := (Bool.not_ne_self a.neg).symm
  have hmsb := Quad.msb_of_valid ha hfinite
  have hcancel : a.value p + a.flip.value p = 0 :=
    (Quad.value_add_eq_zero_iff hfinite hflip hmsb hmsb).mpr ⟨hsign, rfl, rfl⟩
  have hsum := isSum_addCore hp ha (valid_negated ha)
  rw [negated_of_finite hfinite] at hsum ⊢
  have hfinitesum := (isSum_iff_of_finite hfinite hflip).mp hsum
  simp only [IsFiniteSum, if_neg hsign, if_pos hcancel] at hfinitesum
  rw [hfinitesum, leastSig_flip]

/-- Settles O40: QSUB sums the finite Quad and its negation. -/
theorem subtractingAFiniteQuadFromItselfGivesZero : Obligations.SubtractingAFiniteQuadFromItselfGivesZero := by
  intro d a s hp hs ha hfinite
  have hcancel : addCore s.params (s.readQ a) (negated s.params (s.readQ a)) = _ := addCore_negated_self hp ha hfinite
  rw [exec_qsub_of_valid hs ha ha, hcancel]
  rfl

end Sys2Proof.Machine
end

section
/-! PROOF. QMUL by 1 (spec/43_quad_arith.md R171, spec/90_conflicts.md C5): MULHI halves the mantissa and drops its bit
0, which the normaliser's one position cannot bring back. -/

namespace Sys2Proof.Machine

/-- MULHI with 1's mantissa, for either setting of the cross carry: no partial product but the high half's own and the
low half's contributes. -/
theorem highProduct_two_pow_127 (c : Bool) (m : Nat) : highProduct c m (2 ^ 127) = m / 2 := by
  have hhigh : 2 ^ 127 / 2 ^ 64 = 2 ^ 63 := by norm_num
  have hlow : 2 ^ 127 % 2 ^ 64 = 0 := by norm_num
  rw [highProduct, hhigh, hlow]
  cases c
  · rw [if_neg Bool.false_ne_true]
    omega
  · rw [if_pos rfl]
    omega

/-- An exponent within range needs no clamp (spec/43_quad_arith.md R165). -/
theorem finish_of_between {p : Params} {e : Int} (hlow : p.eminInt < e) (hhigh : e < p.emaxInt) (n : Bool) (m : U128)
    (s : BitVec 8) : finish p n e m s = .plain { neg := n, exp := BitVec.ofInt 16 e, man := m, sig := s } := by
  rw [finish, if_neg (not_le.mpr hhigh), if_neg (not_le.mpr hlow)]

/-- The finite product with 1. -/
theorem mulFinite_one {p : Params} {a b : Quad} (ha : a.valid p = true) (hfinite : a.cls p = .finite)
    (hexp : b.expInt = 1) (hman : b.man.toNat = 2 ^ 127) (n : Bool) (s : BitVec 8) :
    mulFinite p n a b s =
      .plain { neg := n, exp := a.exp, man := BitVec.ofNat 128 (a.man.toNat / 2 * 2), sig := s } := by
  obtain ⟨k, m, hk, hm, htop, hmul⟩ := mulFinite_cases p n a b s (Quad.msb_of_valid ha hfinite) hman.ge
  rw [mulHiAcc_eq_highProduct, hman, highProduct_two_pow_127] at hm
  have hbound := a.man.isLt
  obtain rfl : k = 1 := by
    interval_cases k
    · omega
    · rfl
  have hm' : m = BitVec.ofNat 128 (a.man.toNat / 2 * 2) := by
    rw [pow_one] at hm
    rw [← hm, BitVec.ofNat_toNat, BitVec.setWidth_eq]
  have he : a.expInt + b.expInt - (1 : Nat) = a.expInt := by omega
  obtain ⟨hlow, hhigh⟩ := Quad.exp_between_of_valid ha hfinite
  rw [hmul, he, finish_of_between hlow hhigh, hm', Quad.expInt, BitVec.ofInt_toInt]

/-- The product of a valid finite Quad and 1: both operands are finite, so QMUL takes its last arm. -/
theorem mulCore_one {p : Params} (hp : p.wf) {a b : Quad} (ha : a.valid p = true) (hfinite : a.cls p = .finite)
    (hneg : b.neg = false) (hexp : b.expInt = 1) (hman : b.man.toNat = 2 ^ 127) :
    mulCore p a b =
      .plain { neg := a.neg, exp := a.exp, man := BitVec.ofNat 128 (a.man.toNat / 2 * 2), sig := leastSig a b } := by
  obtain ⟨hlow, hhigh⟩ := exp_between_of_integer hp (e := b.expInt) (by omega) (by omega)
  have hb : b.cls p = .finite := Quad.cls_of_exp_between hlow hhigh
  rw [mulCore_eq hp, hfinite, hb, hneg, Bool.bne_false]
  simpa using mulFinite_one ha hfinite hexp hman a.neg (leastSig a b)

/-- Settles O42: 1 is a valid operand under R7's constraints, and QMUL writes the product with it. -/
theorem multiplyingByOneClearsMantissaBitZero : Obligations.MultiplyingByOneClearsMantissaBitZero := by
  intro d a b s hp hs ha hfinite hsig hneg hexp hman
  have hone : (s.readQ b).expInt = 1 := congrArg BitVec.toInt hexp
  have hb : (s.readQ b).valid s.params = true :=
    Quad.valid_of_normalised hsig (exp_between_of_integer hp (by omega) (by omega)) hman.ge
  have hword : (encode (.qmul d a b)).toNat = numR3 0x22 d a b := toNat_wordR3_qBits ..
  have hexec : exec (.qmul d a b) s = s.command (.qmul d a b) (s.binaryQ d a b (mulCore s.params)) := rfl
  have hproduct : mulCore s.params (s.readQ a) (s.readQ b) = _ := mulCore_one hp ha hfinite hneg hone hman
  rw [exec_binaryQ_of_valid hs hword hexec ha hb, hproduct]
  rfl

end Sys2Proof.Machine
end

section
/-! PROOF. What a Q command that completes leaves in its destination: the budget of R163 and a valid Quad
(spec/43_quad_arith.md R161 to R163). -/

namespace Sys2Proof.Machine

/-! ## Budgets: every arm of the datapath passes the budget it is given (spec/43_quad_arith.md R163) -/

theorem sig_finish (p : Params) (n : Bool) (e : Int) (m : U128) (s : BitVec 8) : (finish p n e m s).val.sig = s := by
  rcases finish_cases p n e m s with ⟨-, h⟩ | ⟨-, -, h⟩ | ⟨-, -, h⟩ <;> rw [h] <;> rfl

theorem sig_magAddAnchored (p : Params) (n : Bool) (hi lo : Quad) (s : BitVec 8) :
    (magAddAnchored p n hi lo s).val.sig = s := by
  rw [magAddAnchored]
  cases align lo.man (hi.expInt - lo.expInt).toNat with
  | none => rfl
  | some t =>
    simp only [addAligned]
    split_ifs
    · exact sig_finish ..
    · exact sig_finish ..

theorem sig_magSubOrdered (p : Params) (n : Bool) (big small : Quad) (s : BitVec 8) :
    (magSubOrdered p n big small s).val.sig = s := by
  rw [magSubOrdered]
  cases align small.man (big.expInt - small.expInt).toNat with
  | none => rfl
  | some t =>
    simp only [subAligned]
    split_ifs
    · rfl
    · exact sig_finish ..

theorem sig_magAdd (p : Params) (n : Bool) (a b : Quad) (s : BitVec 8) : (magAdd p n a b s).val.sig = s := by
  rw [magAdd]
  split_ifs <;> exact sig_magAddAnchored ..

theorem sig_magSub (p : Params) (n : Bool) (a b : Quad) (s : BitVec 8) : (magSub p n a b s).val.sig = s := by
  rw [magSub]
  split_ifs <;> exact sig_magSubOrdered ..

theorem sig_addCore (p : Params) (a b : Quad) : (addCore p a b).val.sig = leastSig a b := by
  rw [← minSig_eq_leastSig]
  simp only [addCore]
  split_ifs <;> simp only [QResult.plain, Quad.nan, Quad.inf, Quad.zero, sig_magAdd, sig_magSub]

theorem sig_mulCore (p : Params) (a b : Quad) : (mulCore p a b).val.sig = leastSig a b := by
  rw [← minSig_eq_leastSig]
  simp only [mulCore]
  split_ifs
  · rfl
  · rfl
  · rfl
  · rfl
  · exact sig_finish ..

theorem sig_negated (p : Params) (a : Quad) : (negated p a).sig = a.sig := by
  rw [negated]
  cases a.cls p <;> rfl

theorem sig_negate (p : Params) (a : Quad) : (negate p a).sig = a.sig := by
  rw [negate]
  split_ifs <;> rfl

theorem sig_absolute (p : Params) (a : Quad) : (absolute p a).sig = a.sig := by
  rw [absolute]
  split_ifs <;> rfl

theorem sig_roundFraction (mode : RoundMode) (a : Quad) (f : Nat) : (roundFraction mode a f).sig = a.sig := by
  simp only [roundFraction]
  split_ifs <;> rfl

theorem sig_roundSmall (p : Params) (mode : RoundMode) (a : Quad) : (roundSmall p mode a).sig = a.sig := by
  rw [roundSmall]
  split_ifs <;> rfl

theorem sig_roundInt (p : Params) (mode : RoundMode) (a : Quad) : (roundInt p mode a).sig = a.sig := by
  rw [roundInt]
  split_ifs
  · rfl
  · rfl
  · rfl
  · exact sig_roundSmall p mode a
  · exact sig_roundFraction mode a _

theorem sig_fromMagnitude (p : Params) (n : Bool) (v : U128) : (fromMagnitude p n v).sig = 128#8 := by
  rw [fromMagnitude]
  split_ifs <;> rfl

theorem sig_setSig (p : Params) (a : Quad) (n : BitVec 8) : (setSig p a n).sig = n := by
  rw [setSig]
  split_ifs <;> rfl

theorem toNat_leastSig (a b : Quad) : (leastSig a b).toNat = min a.sig.toNat b.sig.toNat :=
  (BitVec.toNat_ofNat ..).trans (Nat.mod_eq_of_lt (lt_of_le_of_lt (min_le_left ..) a.sig.isLt))

/-! ## Validity of the special results and of changed fields (spec/43_quad_arith.md R161, R162) -/

/-- Infinities and NaNs, told by the exponent EMAX, are valid with every mantissa and sign. -/
theorem valid_of_exp_eq_emax {p : Params} (hp : p.wf) {q : Quad} (hexp : q.exp = p.emax) (hs : q.sig.toNat ≤ 128) :
    q.valid p = true := by
  have hne := emin_ne_emax hp
  have hmax : q.expInt = p.emaxInt := congrArg BitVec.toInt hexp
  obtain ⟨hmin, hmax'⟩ := hp
  refine (Quad.valid_iff p q).mpr ⟨hs, ⟨by omega, hmax.le⟩, fun hzero => ?_, fun hfinite => ?_⟩
  · rw [← Quad.isZero_iff_cls, Quad.isZero_iff, hexp] at hzero
    exact absurd hzero.symm hne
  · exact absurd hexp ((Quad.cls_eq_finite_iff p q).mp hfinite).2

section
variable {p : Params} (hp : p.wf) {s : BitVec 8} (hs : s.toNat ≤ 128)
include hp hs

theorem valid_theInf (n : Bool) : (theInf p n s).valid p = true :=
  valid_of_exp_eq_emax hp rfl hs

theorem valid_theNaN : (theNaN p s).valid p = true :=
  valid_of_exp_eq_emax hp rfl hs

theorem valid_theZero : (theZero p s).valid p = true := by
  have hcls : (theZero p s).cls p = .zero := Quad.cls_zero p s
  obtain ⟨hmin, hmax⟩ := hp
  have hrange : p.eminInt ≤ p.emaxInt := by omega
  exact (Quad.valid_iff ..).mpr ⟨hs, ⟨le_refl p.eminInt, hrange⟩, fun _ => ⟨rfl, rfl⟩, fun h => by simp [hcls] at h⟩

end

/-- A legal budget in place of another keeps a Quad valid. -/
theorem valid_withSig {p : Params} {a : Quad} (h : a.valid p = true) {s : BitVec 8} (hs : s.toNat ≤ 128) :
    Quad.valid p { a with sig := s } = true := by
  obtain ⟨-, hrest⟩ := (Quad.valid_iff p a).mp h
  exact (Quad.valid_iff ..).mpr ⟨hs, hrest⟩

/-- Sign 0 is valid in every class. -/
theorem valid_withoutSign {p : Params} {a : Quad} (h : a.valid p = true) :
    Quad.valid p { a with neg := false } = true := by
  obtain ⟨hsig, hexp, hzero, hmsb⟩ := (Quad.valid_iff p a).mp h
  exact (Quad.valid_iff ..).mpr ⟨hsig, hexp, fun hcls => ⟨(hzero hcls).1, rfl⟩, hmsb⟩

/-- A result built from an exponent that needs no clamp and a normalised mantissa is valid. -/
theorem valid_ofInt {p : Params} {e : Int} (hexp : p.eminInt < e ∧ e < p.emaxInt) {m : U128}
    (hmsb : 2 ^ 127 ≤ m.toNat) {s : BitVec 8} (hs : s.toNat ≤ 128) (n : Bool) :
    Quad.valid p { neg := n, exp := BitVec.ofInt 16 e, man := m, sig := s } = true := by
  have hmin := p.emin.le_toInt
  have hmax := p.emax.toInt_lt
  have hfits : (BitVec.ofInt 16 e).toInt = e := by
    rw [Params.eminInt, Params.emaxInt] at hexp
    rw [BitVec.toInt_ofInt]
    exact Int.bmod_eq_of_le (by omega) (by omega)
  refine Quad.valid_of_normalised hs ?_ hmsb
  rwa [Quad.expInt, hfits]

/-! ## Validity of the results -/

/-- The exponent clamp leaves a valid Quad for every exponent (spec/43_quad_arith.md R165). -/
theorem valid_of_saturatesTo {p : Params} (hp : p.wf) {n : Bool} {e : Int} {m : U128} {s : BitVec 8} {cut : Bool}
    {r : QResult} (hmsb : 2 ^ 127 ≤ m.toNat) (hs : s.toNat ≤ 128) (h : SaturatesTo p n e m s cut r) :
    r.val.valid p = true := by
  rw [SaturatesTo] at h
  split_ifs at h with hhigh hlow <;> rw [h]
  · exact valid_theInf hp hs n
  · exact valid_theZero hp hs
  · exact valid_ofInt ⟨not_le.mp hlow, not_le.mp hhigh⟩ hmsb hs n

section
variable {p : Params} {a b : Quad} (hp : p.wf) (ha : a.valid p = true) (hb : b.valid p = true)
include ha

theorem leastSig_le : (leastSig a b).toNat ≤ 128 := by
  rw [toNat_leastSig]
  exact min_le_of_left_le (Quad.sig_le_of_valid ha)

include hp

theorem valid_of_isFiniteSum {r : QResult} (h : IsFiniteSum p a b r) : r.val.valid p = true := by
  simp only [IsFiniteSum] at h
  split_ifs at h
  · obtain ⟨e, m, hmsb, -, hr⟩ := h
    exact valid_of_saturatesTo hp hmsb (leastSig_le ha) hr
  · rw [h]
    exact valid_theZero hp (leastSig_le ha)
  · obtain ⟨e, m, hmsb, -, hr⟩ := h
    exact valid_of_saturatesTo hp hmsb (leastSig_le ha) hr

include hb

theorem valid_addCore : (addCore p a b).val.valid p = true := by
  have hs : (leastSig a b).toNat ≤ 128 := leastSig_le ha
  rw [addCore_eq hp]
  split_ifs with hnan hinfs hsign hainf hbinf hzeros hbzero hazero hsign
  · exact valid_theNaN hp hs
  · exact valid_theInf hp hs _
  · exact valid_theNaN hp hs
  · exact valid_theInf hp hs _
  · exact valid_theInf hp hs _
  · exact valid_theZero hp hs
  · exact valid_withSig ha hs
  · exact valid_withSig hb hs
  all_goals
    have hfa := Quad.cls_eq_finite (mt .inl hnan) hainf hazero
    have hfb := Quad.cls_eq_finite (mt .inr hnan) hbinf hbzero
  · exact valid_of_isFiniteSum hp ha (isFiniteSum_magAdd hfa hfb ha hb hsign)
  · exact valid_of_isFiniteSum hp ha (isFiniteSum_magSub hfa hfb ha hb hsign)

theorem valid_mulCore : (mulCore p a b).val.valid p = true := by
  have hs : (leastSig a b).toNat ≤ 128 := leastSig_le ha
  rw [mulCore_eq hp]
  split_ifs with hnan hdomain hinf hzero
  · exact valid_theNaN hp hs
  · exact valid_theNaN hp hs
  · exact valid_theInf hp hs _
  · exact valid_theZero hp hs
  · have hfa := Quad.cls_eq_finite (mt .inl hnan) (mt .inl hinf) (mt .inl hzero)
    have hfb := Quad.cls_eq_finite (mt .inr hnan) (mt .inr hinf) (mt .inr hzero)
    obtain ⟨k, m, -, hmsb, -, -, -, hr⟩ :=
      isFiniteProduct_mulFinite (p := p) (Quad.msb_of_valid ha hfa) (Quad.msb_of_valid hb hfb)
    exact valid_of_saturatesTo hp hmsb hs hr

omit hb

theorem valid_negate : (negate p a).valid p = true := by
  rw [negate]
  split_ifs with hnan hzero
  · exact valid_theNaN hp (Quad.sig_le_of_valid ha)
  · exact ha
  · exact valid_flip (Bool.eq_false_iff.mpr hzero) ha

theorem valid_absolute : (absolute p a).valid p = true := by
  rw [absolute]
  split_ifs
  · exact valid_theNaN hp (Quad.sig_le_of_valid ha)
  · exact valid_withoutSign ha

theorem valid_setSig {n : BitVec 8} (hn : n.toNat ≤ 128) : (setSig p a n).valid p = true := by
  rw [setSig]
  split_ifs
  · exact valid_theNaN hp hn
  · exact valid_withSig ha hn

/-- A magnitude below 1 rounds to 0 or 1 (spec/44_quad_round_convert.md R190). -/
theorem valid_roundSmall (mode : RoundMode) : (roundSmall p mode a).valid p = true := by
  rw [roundSmall]
  split_ifs
  · exact valid_ofInt (exp_between_of_integer hp one_pos (by decide)) msbOnly_toNat.ge (Quad.sig_le_of_valid ha) a.neg
  · exact valid_theZero hp (Quad.sig_le_of_valid ha)

end

/-- The integer part of a normalised mantissa over `f` fraction bits, taken up by one unit or not: bit 127 stays set,
and the carry reaches at most 2^128 (spec/44_quad_round_convert.md R190). -/
theorem roundedPart_bounds {m f : Nat} (hlow : 2 ^ 127 ≤ m) (hhigh : m < 2 ^ 128) (hf : f ≤ 127) (up : Bool) :
    2 ^ 127 ≤ (if up then m / 2 ^ f + 1 else m / 2 ^ f) * 2 ^ f ∧
      (if up then m / 2 ^ f + 1 else m / 2 ^ f) * 2 ^ f ≤ 2 ^ 128 := by
  have hpos : 0 < 2 ^ f := Nat.two_pow_pos f
  have h127 : 2 ^ 127 = 2 ^ (127 - f) * 2 ^ f := by rw [← Nat.pow_add, Nat.sub_add_cancel hf]
  have h128 : 2 ^ 128 = 2 ^ (128 - f) * 2 ^ f := by rw [← Nat.pow_add, Nat.sub_add_cancel (by omega)]
  have hdown : 2 ^ (127 - f) ≤ m / 2 ^ f := (Nat.le_div_iff_mul_le hpos).mpr (h127 ▸ hlow)
  have hup : m / 2 ^ f < 2 ^ (128 - f) := (Nat.div_lt_iff_lt_mul hpos).mpr (h128 ▸ hhigh)
  rw [h127, h128]
  constructor <;> apply Nat.mul_le_mul_right <;> split_ifs <;> omega

/-- The rounding of an exponent from 1 to 127: the mantissa stays normalised, the carry out included
(spec/44_quad_round_convert.md R190). -/
theorem valid_roundFraction {p : Params} (hp : p.wf) {a : Quad} (hsig : a.sig.toNat ≤ 128)
    (hmsb : 2 ^ 127 ≤ a.man.toNat) (hlow : 0 < a.expInt) (hhigh : a.expInt < 128) (mode : RoundMode) :
    (roundFraction mode a (128 - a.expInt).toNat).valid p = true := by
  obtain ⟨hmin, hmax⟩ := roundedPart_bounds (f := (128 - a.expInt).toNat) hmsb a.man.isLt (by omega)
    (roundUp mode a.neg _ (a.man.toNat % 2 ^ (128 - a.expInt).toNat) (2 ^ ((128 - a.expInt).toNat - 1)))
  simp only [roundFraction]
  generalize (if roundUp mode a.neg _ _ _ = true then _ else _) * 2 ^ (128 - a.expInt).toNat = r at hmin hmax ⊢
  split_ifs with hcarry
  · exact valid_ofInt (exp_between_of_integer hp (by omega) (by omega)) msbOnly_toNat.ge hsig a.neg
  · have hman : (BitVec.ofNat 128 r).toNat = r :=
      (BitVec.toNat_ofNat ..).trans (Nat.mod_eq_of_lt (lt_of_le_of_ne hmax hcarry))
    rw [← hman] at hmin
    have hexp := exp_between_of_integer hp hlow (hhigh.le.trans (by decide))
    exact Quad.valid_of_normalised (q := { a with man := BitVec.ofNat 128 r }) hsig hexp hmin

theorem valid_roundInt {p : Params} (hp : p.wf) {a : Quad} (ha : a.valid p = true) (mode : RoundMode) :
    (roundInt p mode a).valid p = true := by
  rw [roundInt]
  split_ifs with hnan hspecial hlarge hsmall
  · exact valid_theNaN hp (Quad.sig_le_of_valid ha)
  · exact ha
  · exact ha
  · exact valid_roundSmall hp ha mode
  · rw [Bool.or_eq_true, not_or, Quad.isInf_iff_cls hp, Quad.isZero_iff_cls] at hspecial
    rw [Quad.isNaN_iff_cls hp] at hnan
    have hmsb := Quad.msb_of_valid ha (Quad.cls_eq_finite hnan hspecial.1 hspecial.2)
    exact valid_roundFraction hp (Quad.sig_le_of_valid ha) hmsb (by omega) (by omega) mode

theorem valid_fromMagnitude {p : Params} (hp : p.wf) (n : Bool) (v : U128) :
    (fromMagnitude p n v).valid p = true := by
  rcases fromMagnitude_cases p n v with ⟨-, h⟩ | ⟨-, k, m, hk, -, hmsb, h⟩ <;> rw [h]
  · exact valid_theZero hp (by decide)
  · exact valid_ofInt (exp_between_of_integer hp (by omega) (by omega)) hmsb (by decide) n

/-! ## What a completing Q command leaves -/

/-- A command leaves its destination a result with the budget of R163, valid under R7's constraints. -/
def LeavesResult (i : Instr) (s : State) (d : QReg) : Prop :=
  ∃ (r : QResult) (w : Nat), exec i s = .next (s.doneQ d r w) ∧ sigOf i s = some r.val.sig ∧
    (s.params.wf → r.val.valid s.params = true)

theorem valid_of_no_badQuadOperand {b : Bool} (h : (if !b then Cause.badQuadOperand else .none) = .none) :
    b = true := by
  cases b
  · cases h
  · rfl

section
variable {i : Instr} {s : State} {d a b : QReg} (hs : s.status.fault = false)
include hs

theorem unaryQ_leavesResult {f : Quad → Quad} (h : exec i s = s.command i (s.unaryQ d a fun q => .plain (f q)))
    (hfault : (if !(s.readQ a).valid s.params then Cause.badQuadOperand else .none) = .none)
    (hsig : sigOf i s = some (f (s.readQ a)).sig)
    (hvalid : s.params.wf → (s.readQ a).valid s.params = true → (f (s.readQ a)).valid s.params = true) :
    LeavesResult i s d := by
  have ha := valid_of_no_badQuadOperand hfault
  exact ⟨_, _, exec_unaryQ_of_valid hs rfl h ha, hsig, fun hp => hvalid hp ha⟩

theorem binaryQ_leavesResult {f : Quad → Quad → QResult} (h : exec i s = s.command i (s.binaryQ d a b f))
    (hfault : (if !(s.readQ a).valid s.params || !(s.readQ b).valid s.params then Cause.badQuadOperand else .none) =
      .none)
    (hsig : sigOf i s = some (f (s.readQ a) (s.readQ b)).val.sig)
    (hvalid : s.params.wf → (s.readQ a).valid s.params = true → (s.readQ b).valid s.params = true →
      (f (s.readQ a) (s.readQ b)).val.valid s.params = true) : LeavesResult i s d := by
  rw [← Bool.not_and] at hfault
  obtain ⟨ha, hb⟩ := Bool.and_eq_true_iff.mp (valid_of_no_badQuadOperand hfault)
  exact ⟨_, _, exec_binaryQ_of_valid hs rfl h ha hb, hsig, fun hp => hvalid hp ha hb⟩

/-- A Q command without a listed fault leaves its result, command by command. -/
theorem exec_leavesResult (hd : qDest i = some d) (hfault : faultOf i s = .none) : LeavesResult i s d := by
  cases i with
  | qadd _ a b =>
    cases hd
    exact binaryQ_leavesResult hs rfl hfault (congrArg some (sig_addCore ..).symm) valid_addCore
  | qsub _ a b =>
    cases hd
    refine binaryQ_leavesResult hs rfl hfault (congrArg some ?_) fun hp ha hb => ?_ <;>
      rw [subCore, subOperand_eq_negated]
    · rw [sig_addCore, leastSig, leastSig, sig_negated]
      rfl
    · exact valid_addCore hp ha (valid_negated hb)
  | qmul _ a b =>
    cases hd
    exact binaryQ_leavesResult hs rfl hfault (congrArg some (sig_mulCore ..).symm) valid_mulCore
  | qneg _ a =>
    cases hd
    exact unaryQ_leavesResult hs rfl hfault (congrArg some (sig_negate ..).symm) valid_negate
  | qabs _ a =>
    cases hd
    exact unaryQ_leavesResult hs rfl hfault (congrArg some (sig_absolute ..).symm) valid_absolute
  | qtrunc _ a | qfloor _ a | qceil _ a | qround _ a =>
    cases hd
    exact unaryQ_leavesResult hs rfl hfault (congrArg some (sig_roundInt ..).symm) fun hp ha => valid_roundInt hp ha _
  | qfromu _ a | qfroms _ a =>
    cases hd
    exact ⟨_, _, exec_eq_doneQ hs rfl rfl, congrArg some (sig_fromMagnitude ..).symm,
      fun hp => valid_fromMagnitude hp _ _⟩
  | qsetsig _ a n =>
    cases hd
    by_cases hn : 128 < n.toNat
    · rw [faultOf, if_pos hn] at hfault
      cases hfault
    · have hexec : exec (.qsetsig d a n) s = s.command (.qsetsig d a n)
          (if 128 < n.toNat then .error .illegalCmd else s.unaryQ d a fun q => .plain (setSig s.params q n)) := rfl
      rw [if_neg hn] at hexec
      rw [faultOf, if_neg hn] at hfault
      exact unaryQ_leavesResult hs hexec hfault (congrArg some (sig_setSig ..).symm) fun hp ha =>
        valid_setSig hp ha (not_lt.mp hn)
  | _ => cases hd

end

/-! ## The obligations -/

/-- Settles O50: a Q command without a fault leaves a result with the budget of R163 in its destination. -/
theorem resultBudgetsAreTheLeastOperandBudget : Obligations.ResultBudgetsAreTheLeastOperandBudget := by
  intro i s d g hs hfault hd hg
  obtain ⟨r, w, hexec, hsig, -⟩ := exec_leavesResult hs hd hfault
  have hdest : (s.q.set d.val r.val)[d.val] = r.val := Vector.getElem_set_self _
  refine ⟨_, hexec, ?_⟩
  rw [State.doneQ, hdest]
  exact Option.some.inj (hsig.symm.trans hg)

/-- Settles O51: a fault and the commands' frame keep every other Q register, and a result is valid. -/
theorem commandsLeaveValidQuads : Obligations.CommandsLeaveValidQuads := by
  intro i s t hp hs hexec
  rcases exec_unhalted_cases hs i with ⟨-, hfaults⟩ | ⟨hfault, -⟩
  · obtain rfl := Host.Outcome.next.inj (hfaults.symm.trans hexec)
    exact ⟨fun _ hj => hj, fun _ _ h => Bool.noConfusion h⟩
  · have hwritten : ∀ d : QReg, qDest i = some d → (t.q[d.val]).valid t.params = true := by
      intro d hd
      obtain ⟨r, w, hdone, -, hvalid⟩ := exec_leavesResult hs hd hfault
      obtain rfl := Host.Outcome.next.inj (hdone.symm.trans hexec)
      have hdest : (s.q.set d.val r.val)[d.val] = r.val := Vector.getElem_set_self _
      rw [State.doneQ, hdest]
      exact hvalid hp
    have hsame := exec_sameBut hexec
    refine ⟨fun j hj => ?_, fun d hd _ => hwritten d hd⟩
    by_cases hd : qDest i = some j
    · exact hwritten j hd
    · rw [hsame.q j hd, hsame.params]
      exact hj

end Sys2Proof.Machine
end

section
/-! PROOF. QSETSIG (spec/44_quad_round_convert.md R197): its decoding for every count, and its result by the operand's
class. -/

namespace Sys2Proof.Machine

/-- A word that is a command's but for its count is refused for the count (spec/30_encoding.md R79). -/
theorem decode_of_countIllegal {i : Instr} (h : countIllegal (encode i) = true) :
    decode (encode i) = .error .illegalCount := by
  obtain ⟨r, hrow, hmask⟩ := encode_matches_row i
  have hr : r ∈ opRows := List.mem_of_getElem? hrow
  have hfind : findRow (encode i) = some r := findRow_eq_some_iff.mpr ⟨hr, opField_of_match hr hmask⟩
  simp [decode, hfind, hmask, h]

theorem toNat_wordRS_qBits (op : BitVec 8) (d a : QReg) (n : BitVec 8) :
    (wordRS op (qBits d) (qBits a) n).toNat = numRS op.toNat d a n.toNat := by
  rw [toNat_wordRS, toNat_qBits, toNat_qBits]

/-- QSETSIG's word with a count above 128 is no command (spec/30_encoding.md R77). -/
theorem decode_qsetsig_of_count_gt (d a : QReg) {n : BitVec 8} (hn : 128 < n.toNat) :
    decode (encode (.qsetsig d a n)) = .error .illegalCount :=
  decode_of_countIllegal (by simpa [encode, countIllegal] using hn)

/-- QSETSIG's result, by the operand's class. -/
theorem setSig_eq {p : Params} (hp : p.wf) (a : Quad) (n : BitVec 8) :
    setSig p a n = match a.cls p with
      | .nan => theNaN p n
      | .zero | .finite | .inf => { a with sig := n } := by
  simp only [setSig, Quad.isNaN_iff_cls hp]
  cases a.cls p <;> rfl

/-- QSETSIG with a legal count is a command with one Q operand. -/
theorem exec_qsetsig_of_count_le (d a : QReg) {n : BitVec 8} (hn : n.toNat ≤ 128) (s : State) :
    exec (.qsetsig d a n) s =
      s.command (.qsetsig d a n) (s.unaryQ d a fun q => .plain (setSig s.params q n)) :=
  congrArg (s.command _) (if_neg (not_lt.mpr hn))

/-- Settles O49: the count decides whether the word is a command, and the operand's class the result. -/
theorem qsetsigReplacesTheBudget : Obligations.QsetsigReplacesTheBudget := by
  intro d a n s
  have hword : (encode (.qsetsig d a n)).toNat = numRS 0x34 d a n.toNat := toNat_wordRS_qBits ..
  refine ⟨fun hn => decodes_of_toNat_encode hword (decide_eq_true hn), fun hn => ?_, fun hs hn => ?_⟩
  · rw [← hword, BitVec.ofNat_toNat, BitVec.setWidth_eq]
    exact decode_qsetsig_of_count_gt d a hn
  · have hexec := exec_qsetsig_of_count_le d a hn s
    refine ⟨exec_unaryQ_of_invalid hs hword hexec, fun hp ha => ?_⟩
    rw [exec_unaryQ_of_valid hs hword hexec ha, setSig_eq hp]
    rfl

end Sys2Proof.Machine
end

section
/-! PROOF. QFROMU and QFROMS (spec/44_quad_round_convert.md R195, R196): the Quad of an integer, and what the two
commands leave. -/

namespace Sys2Proof.Machine

/-! ## The Quads of integers -/

/-- The Quad of sign `n` whose mantissa `m` has its lowest `f` bits below the binary point (spec/00_scope.md R11). -/
def pointedQuad (n : Bool) (f : Nat) (m : U128) (s : BitVec 8) : Quad :=
  { neg := n, exp := BitVec.ofInt 16 (128 - f), man := m, sig := s }

section
variable {f : Nat} (hf : f ≤ 127) (n : Bool) (m : U128) (s : BitVec 8)
include hf

theorem expInt_pointedQuad : (pointedQuad n f m s).expInt = 128 - f := by
  rw [Quad.expInt, pointedQuad, BitVec.toInt_ofInt]
  exact Int.bmod_eq_of_le (by omega) (by omega)

theorem cls_pointedQuad {p : Params} (hp : p.wf) : (pointedQuad n f m s).cls p = .finite := by
  have hexp := expInt_pointedQuad hf n m s
  obtain ⟨hlow, hhigh⟩ := exp_between_of_integer hp (e := (pointedQuad n f m s).expInt) (by omega) (by omega)
  exact Quad.cls_of_exp_between hlow hhigh

/-- An integer `j` placed above the binary point is the Quad's magnitude. -/
theorem mag_pointedQuad {m : U128} {j : Nat} (hm : m.toNat = j * 2 ^ f) : (pointedQuad n f m s).mag = j := by
  have hexp : (pointedQuad n f m s).exp.toInt = 128 - f := expInt_pointedQuad hf n m s
  have hman : (pointedQuad n f m s).man.toNat = m.toNat := rfl
  rw [Quad.mag, hexp, hman, shifted_mul_zpow hm, sub_self, zpow_zero, mul_one]

theorem value_pointedQuad {p : Params} (hp : p.wf) {m : U128} {j : Nat} (hm : m.toNat = j * 2 ^ f) :
    (pointedQuad n f m s).value p = if n then -(j : ℚ) else j := by
  rw [Quad.value_of_finite (cls_pointedQuad hf n m s hp), mag_pointedQuad hf n s hm]
  rfl

end

/-! ## Construction from an integer -/

/-- A number of `j` bits has an exponent of at most `j` (spec/44_quad_round_convert.md R195, R196). -/
theorem expInt_fromMagnitude_le {p : Params} (hp : p.wf) (n : Bool) {v : U128} {j : Nat} (hv : v.toNat < 2 ^ j) :
    (fromMagnitude p n v).expInt ≤ j := by
  rcases fromMagnitude_cases p n v with ⟨-, h⟩ | ⟨-, k, m, hk, hm, hmsb, h⟩ <;> rw [h]
  · have hexp : (Quad.zero p 128#8).expInt = p.eminInt := rfl
    have hmin := hp.1
    omega
  · have hexp := expInt_pointedQuad hk n m 128#8
    rw [pointedQuad] at hexp
    have hbits : 2 ^ 127 < 2 ^ (j + k) :=
      calc 2 ^ 127 ≤ v.toNat * 2 ^ k := hm ▸ hmsb
        _ < 2 ^ j * 2 ^ k := Nat.mul_lt_mul_of_pos_right hv (Nat.two_pow_pos k)
        _ = 2 ^ (j + k) := (Nat.pow_add ..).symm
    have hjk := (Nat.pow_lt_pow_iff_right one_lt_two).mp hbits
    omega

/-- Construction from the magnitude and sign of an integer gives the Quad of that integer. -/
theorem isInteger_fromMagnitude {p : Params} (hp : p.wf) {v : U128} {z : Int} (hv : v.toNat = z.natAbs) :
    IsInteger p z (fromMagnitude p (decide (z < 0)) v) := by
  have hvalid := valid_fromMagnitude hp (decide (z < 0)) v
  rw [IsInteger]
  rcases fromMagnitude_cases p (decide (z < 0)) v with ⟨rfl, h⟩ | ⟨hne, k, m, hk, hm, -, h⟩
  · have hzero : z = 0 := Int.natAbs_eq_zero.mp hv.symm
    rw [if_pos hzero, h]
    rfl
  · have hnonzero : z ≠ 0 := fun hz => hne (BitVec.eq_of_toNat_eq (by simpa [hz] using hv))
    have hq : fromMagnitude p (decide (z < 0)) v = pointedQuad (decide (z < 0)) k m 128#8 := h
    have hexp : (pointedQuad (decide (z < 0)) k m 128#8).exp.toInt = 128 - k := expInt_pointedQuad hk _ m _
    rw [hq] at hvalid
    rw [if_neg hnonzero, hq]
    refine ⟨cls_pointedQuad hk _ m _ hp, hvalid, rfl, rfl, ?_, by omega, by omega⟩
    rw [value_pointedQuad hk _ _ hp hm, hv, Nat.cast_natAbs]
    split_ifs with hneg
    · rw [abs_of_neg (of_decide_eq_true hneg), Int.cast_neg, neg_neg]
    · rw [abs_of_nonneg (by simpa using hneg)]

theorem isInteger_fromUnsigned {p : Params} (hp : p.wf) (v : U128) : IsInteger p v.toNat (fromUnsigned p v) := by
  have hsign : decide ((v.toNat : Int) < 0) = false := decide_eq_false (by omega)
  rw [fromUnsigned, ← hsign]
  exact isInteger_fromMagnitude hp (Int.natAbs_natCast _).symm

/-! ## The signed low half -/

theorem natAbs_signedLow_le (v : U128) : (signedLow v).natAbs ≤ 2 ^ 63 := by
  have hlow := (lowHalf v).le_toInt
  have hhigh := (lowHalf v).toInt_lt
  rw [signedLow]
  omega

/-- The magnitude of the signed low half fits 128 bits. -/
theorem toNat_ofNat_natAbs_signedLow (v : U128) :
    (BitVec.ofNat 128 (signedLow v).natAbs).toNat = (signedLow v).natAbs := by
  have hle := natAbs_signedLow_le v
  rw [BitVec.toNat_ofNat]
  exact Nat.mod_eq_of_lt (by omega)

theorem signedLow_eq (v : U128) : signedLow v = (BitVec.ofNat 64 v.toNat).toInt := by
  rw [signedLow, lowHalf, BitVec.ofNat_toNat, BitVec.setWidth_eq_extractLsb' (by decide)]

theorem isInteger_fromSigned {p : Params} (hp : p.wf) (v : U128) :
    IsInteger p (BitVec.ofNat 64 v.toNat).toInt (fromSigned p v) := by
  rw [← signedLow_eq]
  exact isInteger_fromMagnitude hp (toNat_ofNat_natAbs_signedLow v)

theorem expInt_fromSigned_le {p : Params} (hp : p.wf) (v : U128) : (fromSigned p v).expInt ≤ 64 := by
  have hle := natAbs_signedLow_le v
  refine expInt_fromMagnitude_le hp _ (j := 64) ?_
  rw [toNat_ofNat_natAbs_signedLow]
  omega

/-! ## The obligations -/

theorem toNat_wordR2_qxBits (op : BitVec 8) (d : QReg) (a : XReg) :
    (wordR2 op (qBits d) (xBits a)).toNat = numR2 op.toNat d a := by
  rw [toNat_wordR2, toNat_qBits, toNat_xBits]

/-- Settles O47: QFROMU writes the Quad of its operand, which is not negative. -/
theorem qfromuIsExact : Obligations.QfromuIsExact := by
  intro d a s
  have hword : (encode (.qfromu d a)).toNat = numR2 0x30 d a := toNat_wordR2_qxBits ..
  exact ⟨decodes_of_toNat_encode hword rfl, fun hp hs => ⟨_, exec_eq_doneQ hs hword rfl, isInteger_fromUnsigned hp _⟩⟩

/-- Settles O48: QFROMS writes the Quad of the signed low half, whose magnitude is at most 2^63. -/
theorem qfromsIsExact : Obligations.QfromsIsExact := by
  intro d a s
  have hword : (encode (.qfroms d a)).toNat = numR2 0x31 d a := toNat_wordR2_qxBits ..
  exact ⟨decodes_of_toNat_encode hword rfl, fun hp hs =>
    ⟨_, exec_eq_doneQ hs hword rfl, isInteger_fromSigned hp _, expInt_fromSigned_le hp _⟩⟩

end Sys2Proof.Machine
end

section
/-! PROOF. The integer rounder (spec/44_quad_round_convert.md R190 to R194): when a magnitude is rounded away from zero,
what that makes of the signed value, and the Quad the datapath leaves. -/

namespace Sys2Proof.Machine

/-! ## Rounding a magnitude -/

/-- The magnitude `x` of sign `n`, with integer part `i`, goes up to `i + 1` in the mode (spec/44_quad_round_convert.md
R190): the numbers behind the datapath's `roundUpSmall` and `roundUp`. -/
def RoundsAway (mode : RoundMode) (n : Bool) (x : ℚ) (i : Nat) : Prop :=
  match mode with
  | .trunc => False
  | .floor => n = true ∧ (i : ℚ) < x
  | .ceil => n = false ∧ (i : ℚ) < x
  | .round => (i : ℚ) + 1 / 2 < x ∨ (x = i + 1 / 2 ∧ i % 2 = 1)

/-- An integer is not rounded. -/
theorem not_roundsAway_natCast (mode : RoundMode) (n : Bool) (i : Nat) : ¬ RoundsAway mode n i i := by
  cases mode with
  | trunc => exact id
  | floor | ceil => exact fun h => lt_irrefl _ h.2
  | round =>
    rintro (h | ⟨h, -⟩)
    · linarith
    · linarith

section
variable {x : ℚ} {i : Nat} (hlow : (i : ℚ) ≤ x) (hhigh : x < i + 1)
include hlow hhigh

theorem floor_of_between : ⌊x⌋ = i := Int.floor_eq_iff.mpr ⟨by exact_mod_cast hlow, by exact_mod_cast hhigh⟩

/-- A magnitude is rounded up in magnitude exactly when it is above its integer part. -/
theorem ceil_of_between {up : Bool} (hup : up = true ↔ (i : ℚ) < x) : ⌈x⌉ = (i + up.toNat : Nat) := by
  rw [Int.ceil_eq_iff]
  cases up
  · have hx : x = i := le_antisymm (not_lt.mp fun h => Bool.false_ne_true (hup.mpr h)) hlow
    constructor <;> simp [hx]
  · have hx : (i : ℚ) < x := hup.mp rfl
    exact ⟨by simpa using hx, by simpa using hhigh.le⟩

/-- Going up past the half, and at the half from an odd integer part, stays within 1/2, and at 1/2 the result is even. -/
theorem nearest_of_between {up : Bool} (hup : up = true ↔ (i : ℚ) + 1 / 2 < x ∨ (x = i + 1 / 2 ∧ i % 2 = 1)) :
    |x - (i + up.toNat : Nat)| ≤ 1 / 2 ∧ (|x - (i + up.toNat : Nat)| = 1 / 2 → (i + up.toNat) % 2 = 0) := by
  cases up
  · have hdown := mt hup.mpr Bool.false_ne_true
    rw [not_or, not_lt, not_and] at hdown
    obtain ⟨hle, htie⟩ := hdown
    rw [Bool.toNat_false, Nat.add_zero, abs_of_nonneg (by linarith)]
    refine ⟨by linarith, fun h => ?_⟩
    have heven := htie (by linarith)
    omega
  · rw [Bool.toNat_true, abs_sub_comm, Nat.cast_succ, abs_of_nonneg (by linarith)]
    rcases hup.mp rfl with hgt | ⟨heq, hodd⟩
    · exact ⟨by linarith, fun h => by linarith⟩
    · exact ⟨by linarith, fun _ => by omega⟩

/-- A signed value whose magnitude is rounded as `RoundsAway` says is rounded in its mode. -/
theorem roundsTo_of_roundsAway {mode : RoundMode} {n up : Bool} (hup : up = true ↔ RoundsAway mode n x i) :
    RoundsTo mode (if n then -x else x)
      (if n then -((i + up.toNat : Nat) : Int) else ((i + up.toNat : Nat) : Int)) := by
  have hfloor := floor_of_between hlow hhigh
  have hx : 0 ≤ x := le_trans (by positivity) hlow
  cases mode with
  | trunc =>
    obtain rfl : up = false := Bool.eq_false_iff.mpr hup.mp
    cases n
    · simp [RoundsTo, hfloor, not_lt.mpr hx]
    · rcases hx.eq_or_lt with rfl | hpos
      · simp_all [RoundsTo]
      · simp [RoundsTo, hfloor, hpos, Int.ceil_neg]
  | floor =>
    cases n
    · obtain rfl : up = false := Bool.eq_false_iff.mpr fun h => Bool.false_ne_true (hup.mp h).1
      simp [RoundsTo, hfloor]
    · have hceil := ceil_of_between hlow hhigh (hup.trans (and_iff_right rfl))
      simp [RoundsTo, Int.floor_neg, hceil]
  | ceil =>
    cases n
    · have hceil := ceil_of_between hlow hhigh (hup.trans (and_iff_right rfl))
      simp [RoundsTo, hceil]
    · obtain rfl : up = false := Bool.eq_false_iff.mpr fun h => nomatch (hup.mp h).1
      simp [RoundsTo, Int.ceil_neg, hfloor]
  | round =>
    obtain ⟨hnear, heven⟩ := nearest_of_between hlow hhigh hup
    generalize i + up.toNat = k at hnear heven ⊢
    have habs : |(if n then -x else x) - ((if n then -(k : Int) else (k : Int) : Int) : ℚ)| = |x - k| := by
      cases n
      · simp
      · rw [← abs_neg]
        simp [add_comm, sub_eq_add_neg]
    rw [RoundsTo, habs]
    refine ⟨hnear, fun h => ?_⟩
    have hk := heven h
    split_ifs <;> omega

end

/-! ## The datapath's decision to round up -/

/-- Of the magnitudes of exponent at most 0, those above 1/2 have exponent 0 and a bit below the mantissa's top bit. -/
theorem half_lt_mag_iff {a : Quad} (hmsb : 2 ^ 127 ≤ a.man.toNat) (hexp : a.expInt ≤ 0) :
    1 / 2 < a.mag ↔ a.expInt = 0 ∧ 2 ^ 127 < a.man.toNat := by
  rcases hexp.lt_or_eq with hneg | hzero
  · have hsmall : a.mag < 1 / 2 :=
      calc a.mag < (2 : ℚ) ^ a.expInt := (Quad.mag_bounds hmsb).2
        _ ≤ (2 : ℚ) ^ (-1 : Int) := zpow_le_zpow_right₀ one_le_two (by omega)
        _ = 1 / 2 := by norm_num
    exact iff_of_false hsmall.not_gt fun h => hneg.ne h.1
  · have hmag : a.mag / (2 : ℚ) ^ (a.expInt - 128) = a.man.toNat := Quad.mag_div_own_unit a
    have hunit : (1 / 2 : ℚ) / (2 : ℚ) ^ (a.expInt - 128) = (2 ^ 127 : Nat) := by rw [hzero]; norm_num
    rw [← Nat.cast_lt (α := ℚ), ← hmag, ← hunit, div_lt_div_iff_of_pos_right (by positivity)]
    exact (and_iff_right hzero).symm

/-- The datapath's decision below 1 (spec/44_quad_round_convert.md R190), where the integer part is 0. -/
theorem roundUpSmall_iff (mode : RoundMode) {a : Quad} (hmsb : 2 ^ 127 ≤ a.man.toNat) (hexp : a.expInt ≤ 0) :
    roundUpSmall mode a = true ↔ RoundsAway mode a.neg a.mag 0 := by
  have hpos := Quad.mag_pos hmsb
  have hhalf := half_lt_mag_iff hmsb hexp
  cases mode with
  | trunc => simp [roundUpSmall, RoundsAway]
  | floor | ceil => simp [roundUpSmall, RoundsAway, hpos]
  | round => simpa [roundUpSmall, RoundsAway, msbOnly_toNat] using hhalf.symm

/-- A mantissa over `f` fraction bits, split at the binary point. -/
theorem div_two_pow_eq_add (m f : Nat) :
    (m : ℚ) / (2 ^ f : Nat) = (m / 2 ^ f : Nat) + (m % 2 ^ f : Nat) / (2 ^ f : Nat) := by
  have hpos : ((2 ^ f : Nat) : ℚ) ≠ 0 := by positivity
  rw [div_eq_iff hpos, add_mul, div_mul_cancel₀ _ hpos]
  exact_mod_cast (Nat.div_add_mod' m (2 ^ f)).symm

/-- The datapath's decision from the fraction bits (spec/44_quad_round_convert.md R190): the fraction bits stand for the
fraction, and half their weight for 1/2. -/
theorem roundUp_iff (mode : RoundMode) (n : Bool) (m : Nat) {f : Nat} (hf : 0 < f) :
    roundUp mode n (m / 2 ^ f) (m % 2 ^ f) (2 ^ (f - 1)) = true ↔
      RoundsAway mode n (m / (2 ^ f : Nat)) (m / 2 ^ f) := by
  have hpos : (0 : ℚ) < (2 ^ f : Nat) := by positivity
  have hhalf : (1 / 2 : ℚ) = (2 ^ (f - 1) : Nat) / (2 ^ f : Nat) := by
    rw [eq_div_iff hpos.ne', ← Nat.pow_pred_mul hf]
    push_cast
    ring
  rw [div_two_pow_eq_add]
  cases mode with
  | trunc => simp [roundUp, RoundsAway]
  | floor | ceil => simp [roundUp, RoundsAway, div_pos_iff_of_pos_right, Nat.pos_iff_ne_zero]
  | round =>
    rw [RoundsAway, add_lt_add_iff_left, add_right_inj, hhalf, div_lt_div_iff_of_pos_right hpos,
      div_left_inj' hpos.ne', Nat.cast_lt, Nat.cast_inj]
    simp [roundUp]

/-! ## The Quad left -/

/-- `r` is the zero or a finite Quad of sign `n`, and its value is the integer of that sign with magnitude `j`. -/
def HoldsInteger (p : Params) (n : Bool) (j : Nat) (r : Quad) : Prop :=
  (r.cls p = .zero ∨ (r.cls p = .finite ∧ r.neg = n)) ∧
    r.value p = ((if n then -(j : Int) else (j : Int) : Int) : ℚ)

theorem holdsInteger_of_finite {p : Params} {a : Quad} {j : Nat} (h : a.cls p = .finite) (hmag : a.mag = j) :
    HoldsInteger p a.neg j a := by
  refine ⟨.inr ⟨h, rfl⟩, ?_⟩
  rw [Quad.value_of_finite h, hmag]
  split_ifs <;> simp

theorem holdsInteger_zero (p : Params) (n : Bool) (s : BitVec 8) : HoldsInteger p n 0 (Quad.zero p s) := by
  refine ⟨.inl (Quad.cls_zero p s), ?_⟩
  simp [Quad.value, Quad.zero]

theorem holdsInteger_pointedQuad {p : Params} (hp : p.wf) {f j : Nat} (hf : f ≤ 127) {m : U128}
    (hm : m.toNat = j * 2 ^ f) (n : Bool) (s : BitVec 8) : HoldsInteger p n j (pointedQuad n f m s) :=
  holdsInteger_of_finite (cls_pointedQuad hf n m s hp) (mag_pointedQuad hf n s hm)

theorem holdsInteger_roundSmall {p : Params} (hp : p.wf) (mode : RoundMode) (a : Quad) :
    HoldsInteger p a.neg (roundUpSmall mode a).toNat (roundSmall p mode a) := by
  rw [roundSmall]
  cases roundUpSmall mode a
  · exact holdsInteger_zero p a.neg a.sig
  · exact holdsInteger_pointedQuad hp (f := 127) le_rfl (msbOnly_toNat.trans (one_mul _).symm) a.neg a.sig

/-- The carry out moves the binary point up by one bit (spec/44_quad_round_convert.md R190). -/
theorem holdsInteger_roundFraction {p : Params} (hp : p.wf) (mode : RoundMode) {a : Quad}
    (hmsb : 2 ^ 127 ≤ a.man.toNat) {f : Nat} (hlow : 0 < f) (hhigh : f ≤ 127) (hexp : a.expInt = 128 - f) :
    HoldsInteger p a.neg
      (a.man.toNat / 2 ^ f + (roundUp mode a.neg (a.man.toNat / 2 ^ f) (a.man.toNat % 2 ^ f) (2 ^ (f - 1))).toNat)
      (roundFraction mode a f) := by
  generalize hup : roundUp mode a.neg (a.man.toNat / 2 ^ f) (a.man.toNat % 2 ^ f) (2 ^ (f - 1)) = up
  have hbound := (roundedPart_bounds hmsb a.man.isLt hhigh up).2
  have hpart : (if up then a.man.toNat / 2 ^ f + 1 else a.man.toNat / 2 ^ f) = a.man.toNat / 2 ^ f + up.toNat := by
    cases up <;> rfl
  simp only [roundFraction, hup]
  rw [hpart] at hbound ⊢
  generalize a.man.toNat / 2 ^ f + up.toNat = j at hbound ⊢
  split_ifs with hcarry
  · have hm : msbOnly.toNat = j * 2 ^ (f - 1) := by
      rw [← Nat.pow_pred_mul hlow, ← mul_assoc] at hcarry
      rw [msbOnly_toNat]
      omega
    have hq := holdsInteger_pointedQuad hp (by omega) hm a.neg a.sig
    rwa [pointedQuad, show (128 : Int) - (f - 1 : Nat) = a.expInt + 1 by omega] at hq
  · have hm : (BitVec.ofNat 128 (j * 2 ^ f)).toNat = j * 2 ^ f :=
      (BitVec.toNat_ofNat ..).trans (Nat.mod_eq_of_lt (lt_of_le_of_ne hbound hcarry))
    have hq := holdsInteger_pointedQuad hp hhigh hm a.neg a.sig
    rwa [pointedQuad, ← hexp, Quad.expInt, BitVec.ofInt_toInt] at hq

/-! ## The rounder -/

/-- The rounder's result, by the operand's class (spec/44_quad_round_convert.md R190). -/
theorem roundInt_eq {p : Params} (hp : p.wf) (mode : RoundMode) (a : Quad) :
    roundInt p mode a = match a.cls p with
      | .nan => theNaN p a.sig
      | .inf | .zero => a
      | .finite =>
        if 128 ≤ a.expInt then a
        else if a.expInt ≤ 0 then roundSmall p mode a
        else roundFraction mode a (128 - a.expInt).toNat := by
  simp only [roundInt, Bool.or_eq_true, Quad.isNaN_iff_cls hp, Quad.isInf_iff_cls hp, Quad.isZero_iff_cls]
  cases a.cls p <;> rfl

/-- An exponent of 128 or more leaves no fraction bit. -/
theorem exists_mag_eq_natCast {a : Quad} (h : 128 ≤ a.expInt) : ∃ j : Nat, a.mag = j := by
  refine ⟨a.man.toNat * 2 ^ (a.expInt - 128).toNat, ?_⟩
  have hexp : a.exp.toInt - 128 = ((a.expInt - 128).toNat : Int) := by rw [Quad.expInt] at *; omega
  rw [Quad.mag, hexp, zpow_natCast]
  push_cast
  rfl

/-- A finite operand's magnitude lies between two integers, and the rounder leaves the one its mode asks for
(spec/44_quad_round_convert.md R190), by the three ranges of the exponent. -/
theorem roundInt_of_finite {p : Params} (hp : p.wf) (mode : RoundMode) {a : Quad} (ha : a.valid p = true)
    (hfinite : a.cls p = .finite) :
    ∃ (i : Nat) (up : Bool), (i : ℚ) ≤ a.mag ∧ a.mag < i + 1 ∧ (up = true ↔ RoundsAway mode a.neg a.mag i) ∧
      HoldsInteger p a.neg (i + up.toNat) (roundInt p mode a) := by
  have hmsb := Quad.msb_of_valid ha hfinite
  have hround := roundInt_eq hp mode a
  rw [hfinite] at hround
  simp only at hround
  rw [hround]
  split_ifs with hlarge hsmall
  · obtain ⟨j, hmag⟩ := exists_mag_eq_natCast hlarge
    refine ⟨j, false, hmag.ge, by rw [hmag]; exact lt_add_one _, ?_, holdsInteger_of_finite hfinite hmag⟩
    rw [hmag]
    simp [not_roundsAway_natCast]
  · have hbelow : a.mag < 1 := (Quad.mag_bounds hmsb).2.trans_le (zpow_le_one_of_nonpos₀ one_le_two hsmall)
    refine ⟨0, roundUpSmall mode a, ?_, ?_, roundUpSmall_iff mode hmsb hsmall, ?_⟩
    · exact_mod_cast (Quad.mag_pos hmsb).le
    · simpa using hbelow
    · rw [Nat.zero_add]
      exact holdsInteger_roundSmall hp mode a
  · have hf : a.expInt = 128 - ((128 - a.expInt).toNat : Int) := by omega
    have hf_low : 0 < (128 - a.expInt).toNat := by omega
    have hf_high : (128 - a.expInt).toNat ≤ 127 := by omega
    generalize (128 - a.expInt).toNat = f at hf hf_low hf_high ⊢
    have hmag : a.mag = a.man.toNat / (2 ^ f : Nat) := by
      simpa using Quad.mag_div_unit a (e := 128) (d := f) (by omega)
    have hfloor : ⌊a.mag⌋ = (a.man.toNat / 2 ^ f : Nat) := by rw [hmag, Rat.floor_natCast_div_natCast]; rfl
    obtain ⟨hlow, hhigh⟩ := Int.floor_eq_iff.mp hfloor
    refine ⟨_, _, hlow, hhigh, ?_, holdsInteger_roundFraction hp mode hmsb hf_low hf_high hf⟩
    rw [hmag]
    exact roundUp_iff mode a.neg _ hf_low

theorem isRounded_roundInt {p : Params} (hp : p.wf) (mode : RoundMode) {a : Quad} (ha : a.valid p = true) :
    IsRounded p mode a (roundInt p mode a) := by
  rw [IsRounded]
  cases hc : a.cls p with
  | nan | inf | zero => simp [roundInt_eq hp, hc]
  | finite =>
    obtain ⟨i, up, hlow, hhigh, hup, hcls, hvalue⟩ := roundInt_of_finite hp mode ha hc
    refine ⟨valid_roundInt hp ha mode, sig_roundInt p mode a, hcls, _, hvalue, ?_⟩
    rw [Quad.value_of_finite hc]
    exact roundsTo_of_roundsAway hlow hhigh hup

/-! ## The obligations -/

section
variable {i : Instr} {w : Nat} {mode : RoundMode} {s : State} {d a : QReg} (hs : s.status.fault = false)
  (hw : (encode i).toNat = w)
  (h : exec i s = s.command i (s.unaryQ d a fun q => .plain (roundInt s.params mode q)))
include hs hw h

/-- What a rounding command leaves, for its mode. -/
theorem exec_round (hp : s.params.wf) (ha : (s.readQ a).valid s.params = true) :
    ∃ r : Quad, exec i s = .next (s.doneQ d (.quiet r) w) ∧ IsRounded s.params mode (s.readQ a) r :=
  ⟨roundInt s.params mode (s.readQ a), exec_unaryQ_of_valid hs hw h ha, isRounded_roundInt hp mode ha⟩

end

/-- Settles O45: QTRUNC and QFLOOR write what the rounder leaves in their modes. -/
theorem qtruncAndQfloorRoundTheValue : Obligations.QtruncAndQfloorRoundTheValue := by
  intro d a s
  have htrunc : (encode (.qtrunc d a)).toNat = numR2 0x28 d a := toNat_wordR2_qBits ..
  have hfloor : (encode (.qfloor d a)).toNat = numR2 0x29 d a := toNat_wordR2_qBits ..
  exact ⟨decodes_of_toNat_encode htrunc rfl, decodes_of_toNat_encode hfloor rfl, fun hs =>
    ⟨fun ha => ⟨exec_unaryQ_of_invalid hs htrunc rfl ha, exec_unaryQ_of_invalid hs hfloor rfl ha⟩,
      fun hp ha => ⟨exec_round hs htrunc rfl hp ha, exec_round hs hfloor rfl hp ha⟩⟩⟩

/-- Settles O46: QCEIL and QROUND write what the rounder leaves in their modes. -/
theorem qceilAndQroundRoundTheValue : Obligations.QceilAndQroundRoundTheValue := by
  intro d a s
  have hceil : (encode (.qceil d a)).toNat = numR2 0x2A d a := toNat_wordR2_qBits ..
  have hround : (encode (.qround d a)).toNat = numR2 0x2B d a := toNat_wordR2_qBits ..
  exact ⟨decodes_of_toNat_encode hceil rfl, decodes_of_toNat_encode hround rfl, fun hs =>
    ⟨fun ha => ⟨exec_unaryQ_of_invalid hs hceil rfl ha, exec_unaryQ_of_invalid hs hround rfl ha⟩,
      fun hp ha => ⟨exec_round hs hceil rfl hp ha, exec_round hs hround rfl hp ha⟩⟩⟩

end Sys2Proof.Machine
end

section
/-! PROOF. A faulting command as the host delivers it: the state that has taken the CMD write, with FAULT, CAUSE and FCMD
written (spec/60_exceptions.md R221). -/

namespace Sys2Proof.Machine

/-- The unit takes bits 31:0 of a CMD write, which are the word the host extended (spec/20_memory.md R52). -/
theorem cmdWord_of_setWidth (w : CmdWord) : BitVec.ofNat 32 (w.setWidth 64).toNat = w := by
  rw [BitVec.toNat_setWidth_of_le (by decide), BitVec.ofNat_toNat, BitVec.setWidth_eq]

/-- A legal word runs its command, which raises the fault listed for it; FCMD's word is the one delivered, for it is the
command's only encoding. -/
theorem step_of_faultOf {s : State} {w : CmdWord} {rest : List HostEvent} {i : Instr}
    (hinbox : s.inbox = hostWrite 0 (w.setWidth 64) :: rest) (hs : s.status.fault = false) (hdecode : decode w = .ok i)
    (hfault : faultOf i (s.delivered rest) ≠ .none) :
    step s = .next ((s.delivered rest).faulted (faultOf i (s.delivered rest)) w.toNat) := by
  have hword : encode i = w := (decodedWordIsItsCommandsEncoding w i hdecode).1
  have hexec := (commandsFaultExactlyAsListed i (s.delivered rest) hs).1 hfault
  rw [stepRunsTheDecodedCommand s _ rest i hinbox (by rwa [cmdWord_of_setWidth]), hexec, hword]

/-- Settles O9: a legal word raises the fault of its command, and any other word ILLEGAL_CMD. -/
theorem faultWritesOnlyFaultCauseAndFcmd : Obligations.FaultWritesOnlyFaultCauseAndFcmd :=
  fun _ _ _ hinbox hs =>
    ⟨fun _ hdecode hfault => step_of_faultOf hinbox hs hdecode hfault,
      fun _ hdecode => step_of_decode_error hdecode hinbox hs⟩

end Sys2Proof.Machine
end
